-- ==== Sys2Proof/Word.lean ====
section
/-! DEFINITION. The word types of the block: host registers, symbols and counts are 32 bits, node indices are 16 bits
(spec/00_scope.md R10, R12; spec/10_state.md R20). Everything is unsigned. -/

namespace Sys2Proof

/-- A register, a symbol or a count (R10: `REG_W`, `SYM_W` and `CNT_W` are 32). -/
abbrev Word := BitVec 32

/-- A node index, and every 16-bit field that holds one (R20: `UInt16`). -/
abbrev Index := BitVec 16

/-- `CNT_MAX`, the largest count (R10, R11). -/
abbrev cntMax : Word := 0xFFFFFFFF#32

/-- `zext_32` of a 16-bit value (R13). -/
abbrev zext (v : Index) : Word := v.setWidth 32

end Sys2Proof
end

