-- ==== Sys2Proof/Config.lean ====
section
/-! DEFINITION. What one implementation of the block fixes (its parameters, spec/00_scope.md R10), the formats of its
internal storage (spec/10_state.md R35, R37, R38), and the FREE VALUES: what the spec leaves unspecified
(spec/70_reset_and_hazards.md R276; spec/93_implementation_defined.md I6, I9). A free value has no body, so no proof
can know it. -/

namespace Sys2Proof

/-- The parameters the spec calls model arguments (R10). `base` is the host address of the register block. -/
structure Params where
  maxSyms : Nat
  outqDepth : Nat
  base : Nat
  deriving DecidableEq, Repr

/-- The defaults of R10. BASE is OPEN there; 0 is a DESIGN CHOICE (log 1). -/
def Params.default : Params := { maxSyms := 256, outqDepth := 32, base := 0 }

/-- `NODE_CAP` (R10). -/
def Params.nodeCap (p : Params) : Nat := 2 * p.maxSyms - 1

/-- The legal ranges of R10 and R68. -/
abbrev Params.wf (p : Params) : Prop :=
  2 ≤ p.maxSyms ∧ p.maxSyms ≤ 32768 ∧ 32 ≤ p.outqDepth ∧ p.outqDepth ≤ 255 ∧ p.base % 64 = 0

/-- One entry of the frequency table (R35). -/
structure FtEntry where
  sym : Word
  count : Word
  deriving DecidableEq, Repr, Inhabited

/-- A node's variant. Its 2-bit encoding is `Kind.bits`; the encoding's value 3 is never written (R38). -/
inductive Kind where
  | leaf
  | fork
  | placeholder
  deriving DecidableEq, Repr, Inhabited

/-- One entry of the node memory (R37). -/
structure NodeEntry where
  kind : Kind
  sym : Word
  left : Index
  right : Index
  freq : Word
  lsd : Index
  lml : Word
  deriving DecidableEq, Repr, Inhabited

/-- FREE VALUE (log 5): the 32 bits of the n-th read made while a command executes (R276, I6). -/
opaque Config.freeRead : Nat → Word

/-- FREE VALUE (log 3): what a node-memory slot that holds no node reads as (R37, I9). -/
opaque Config.freeNode : Nat → NodeEntry

/-- FREE VALUE (log 3): what an invalid frequency-table slot reads as (R35, I9). -/
opaque Config.freeEntry : Nat → FtEntry

end Sys2Proof
end

