-- ==== Sys2Proof/Syntax.lean ====
section
/-! DEFINITION. The command set: one constructor per row of spec/opcode_table.json (spec/30_encoding.md R92). -/

namespace Sys2Proof

/-- A command. Register operands (A0, A1) are not part of the command word: they are latched from ARG0 and ARG1 at
issue (R90, R92). -/
inductive Instr where
  /-- NOP (45_control.md R230). -/
  | nop
  /-- CLEAR (45_control.md R231). -/
  | clear
  /-- COUNT: A0 a symbol (40_frequency.md R121). -/
  | count
  /-- FSET: A0 a symbol, A1 a count (40_frequency.md R124). -/
  | fset
  /-- FREAD: A0 an entry index (40_frequency.md R126). -/
  | fread
  /-- BUILD (42_tree_build.md R170). -/
  | build
  /-- NREAD: A0 a node index (42_tree_build.md R175). -/
  | nread
  /-- CODE: A0 a symbol, `k` the chunk index of R95 (43_code_lookup.md R190). -/
  | code (k : Nat)
  /-- DEC: A0 the bits, `n` the bit count of R94 (44_decoder.md R200). -/
  | dec (n : Nat)
  /-- DRST (44_decoder.md R210). -/
  | drst
  /-- POP (44_decoder.md R213). -/
  | pop
  deriving DecidableEq, Repr

end Sys2Proof
end

