-- ==== Sys2Proof/WellFormed.lean ====
section
/-! DEFINITION. Which commands have a word: the fields K and N fit their formats (spec/30_encoding.md R94, R95; the
assembler's refusal of R102). -/

namespace Sys2Proof

/-- `k` from 0 to 65535 and `n` from 0 to 63 (R102). N = 0 and N above 32 are words all the same: they decode as DEC
and are refused with RANGE when executed (R94). -/
def Instr.wellFormed : Instr → Bool
  | .nop => true
  | .clear => true
  | .count => true
  | .fset => true
  | .fread => true
  | .build => true
  | .nread => true
  | .code k => decide (k < 65536)
  | .dec n => decide (n < 64)
  | .drst => true
  | .pop => true

end Sys2Proof
end

