-- ==== Sys2Proof/Decode.lean ====
section
/-! DEFINITION. Decoding of command words, total, with the table of (match, mask) pairs of spec/30_encoding.md R92
read as R93 reads it; then the encoder, from the formats of R91. -/

namespace Sys2Proof

/-- One row of the opcode map: a word `w` selects it when `w AND mask = pattern` (R92). `read` assembles the fields. -/
structure Row where
  mnemonic : String
  pattern : Word
  mask : Word
  read : Word → Instr

/-- Field K of format C: `zext_32(w[31:16])` (R95). -/
def fieldK (w : Word) : Nat := (w.extractLsb' 16 16).toNat

/-- Field N of format D: `zext_32(w[13:8])` (R94). -/
def fieldN (w : Word) : Nat := (w.extractLsb' 8 6).toNat

/-- The opcode OP: bits 7:0 (R90). -/
def opcodeOf (w : Word) : Nat := (w.extractLsb' 0 8).toNat

/-- The opcode map, row by row (R92). -/
def opcodeTable : List Row := [
  ⟨"NOP", 0x00000000#32, 0xFFFFFFFF#32, fun _ => .nop⟩,
  ⟨"CLEAR", 0x00000001#32, 0xFFFFFFFF#32, fun _ => .clear⟩,
  ⟨"COUNT", 0x00000002#32, 0xFFFFFFFF#32, fun _ => .count⟩,
  ⟨"FSET", 0x00000003#32, 0xFFFFFFFF#32, fun _ => .fset⟩,
  ⟨"FREAD", 0x00000004#32, 0xFFFFFFFF#32, fun _ => .fread⟩,
  ⟨"BUILD", 0x00000010#32, 0xFFFFFFFF#32, fun _ => .build⟩,
  ⟨"NREAD", 0x00000011#32, 0xFFFFFFFF#32, fun _ => .nread⟩,
  ⟨"CODE", 0x00000020#32, 0x0000FFFF#32, fun w => .code (fieldK w)⟩,
  ⟨"DEC", 0x00000030#32, 0xFFFFC0FF#32, fun w => .dec (fieldN w)⟩,
  ⟨"DRST", 0x00000031#32, 0xFFFFFFFF#32, fun _ => .drst⟩,
  ⟨"POP", 0x00000032#32, 0xFFFFFFFF#32, fun _ => .pop⟩]

/-- Whether a word selects a row (R92). -/
def Row.selects (r : Row) (w : Word) : Bool := w &&& r.mask == r.pattern

/-- Why a word is ILLEGAL (the list of R99). -/
inductive Illegal where
  /-- No row has the word's opcode. -/
  | unassignedOpcode
  /-- A row has the word's opcode, and a bit that must be zero is set. -/
  | mustBeZero
  deriving DecidableEq, Repr

/-- The name of an illegal word's fault in R99's list. -/
def illegalReason (w : Word) : Illegal :=
  if opcodeTable.any (fun r => opcodeOf r.pattern == opcodeOf w) then .mustBeZero else .unassignedOpcode

/-- R93: the first row the word selects, or ILLEGAL. -/
def decode (w : Word) : Except Illegal Instr :=
  match opcodeTable.find? (fun r => r.selects w) with
  | some r => .ok (r.read w)
  | none => .error (illegalReason w)

/-- The word of a command, from the formats Z, C and D of R91. -/
def encode : Instr → Word
  | .nop => 0x00000000#32
  | .clear => 0x00000001#32
  | .count => 0x00000002#32
  | .fset => 0x00000003#32
  | .fread => 0x00000004#32
  | .build => 0x00000010#32
  | .nread => 0x00000011#32
  | .code k => BitVec.ofNat 16 k ++ 0#8 ++ 0x20#8
  | .dec n => 0#18 ++ BitVec.ofNat 6 n ++ 0x30#8
  | .drst => 0x00000031#32
  | .pop => 0x00000032#32

/-- A 32-bit word from its four bytes on the bus, the byte at the lowest address first (spec/20_memory.md R64). -/
def wordOfBytes (b0 b1 b2 b3 : BitVec 8) : Word := b3 ++ b2 ++ b1 ++ b0

/-- Byte `k` of a register: bits `8k+7 : 8k` (R64). -/
def byteOfWord (w : Word) (k : Nat) : BitVec 8 := w.extractLsb' (8 * k) 8

/-- The command word of a table row's bits: a command is one 32-bit word (R90), the bits above `nbits` zero. -/
def commandWord (nbits w : Nat) : Word := BitVec.ofNat 32 (w % 2 ^ nbits)

/-- What the decoder reads from the bits of an opcode-table row, through the bytes as the bus carries them. -/
def decodeTableWord (nbits w : Nat) : Option Instr :=
  let c := commandWord nbits w
  match decode (wordOfBytes (byteOfWord c 0) (byteOfWord c 1) (byteOfWord c 2) (byteOfWord c 3)) with
  | .ok i => some i
  | .error _ => none

end Sys2Proof
end

