-- ==== Sys2Proof/Machine/State.lean ====
section
/-! DEFINITION. The machine's state as plain data (spec/10_state.md R20, R46), with the host's pending accesses beside
it, the reasons a step can stop, and the state after reset. -/

namespace Sys2Proof.Machine

/-- The result codes of STATUS.ERR (spec/60_exceptions.md R241). Codes 8 to 15 are never written, so none stands here. -/
inductive ErrCode where
  | ok
  | empty
  | full
  | notree
  | range
  | ovf
  | qempty
  | illegal
  deriving DecidableEq, Repr

/-- The command engine's state (10_state.md R44, 42_tree_build.md R162). -/
inductive Eng where
  | idle
  | exec
  | bSeed
  | bPopA
  | bPopB
  | bJoin
  | bLast
  | bFixup
  | bDone
  deriving DecidableEq, Repr

/-- The width of a host access. Only `word` is defined (20_memory.md R65). -/
inductive Width where
  | byte
  | half
  | word
  deriving DecidableEq, Repr

/-- Where a host access goes: a host address and a width (20_memory.md R60). -/
structure Access where
  addr : Nat
  width : Width
  deriving DecidableEq, Repr

/-- One statement of a host program (30_encoding.md R101). -/
inductive HostOp where
  /-- `RD`: a read. -/
  | rd (a : Access)
  /-- `WR`: a write of a value. -/
  | wr (a : Access) (v : Word)
  /-- `POLL`: read STATUS until BUSY reads 0. -/
  | poll
  deriving DecidableEq, Repr

/-- Who acts next: the two agents of 00_scope.md R19, and the reset input of 70_reset_and_hazards.md R270. -/
inductive Turn where
  | host
  | engine
  | reset
  deriving DecidableEq, Repr

/-- The node memory NODE: (index, entry) pairs, indices strictly rising (log 18). An index that is not listed holds
no node; reading it gives a free value (log 3). -/
abbrev Memory := List (Nat × NodeEntry)

/-- The canonical form of the node memory. -/
abbrev Memory.wf (m : Memory) : Prop := (m.map Prod.fst).Pairwise (· < ·)

/-- The whole state: the record of R20 and the environment. NSYMS is the length of `ft` (log 4). -/
structure State where
  /-- MAX_SYMS, OUTQ_DEPTH and BASE (00_scope.md R10). -/
  params : Params
  arg0 : Word
  arg1 : Word
  res0 : Word
  res1 : Word
  res2 : Word
  res3 : Word
  err : ErrCode
  drop : Bool
  phit : Bool
  sat : Bool
  /-- The valid entries of FT, in order (R35). -/
  ft : List FtEntry
  tv : Bool
  root : Index
  nnodes : Index
  nodes : Memory
  /-- PQ, ascending (R41). -/
  pq : List Index
  cursor : Index
  depth : Index
  /-- OUTQ, oldest first (R42). -/
  outq : List Word
  eng : Eng
  cmdl : Word
  a0l : Word
  a1l : Word
  /-- NEXT, the next free node index (R44). -/
  nextIdx : Index
  ia : Index
  ib : Index
  seedi : Index
  satp : Bool
  /-- The host's accesses still to come (log 6). -/
  host : List HostOp
  /-- What the host's reads returned, newest first (log 6). -/
  reads : List Word
  /-- Who acts next (log 6). -/
  turns : List Turn
  /-- The model's own: how many free values reads have drawn (log 5). -/
  draws : Nat
  deriving DecidableEq, Repr

/-- NSYMS (R29, R35). -/
def State.nsyms (s : State) : Nat := s.ft.length

/-- The model's own faults. Both are SAFE: no state that satisfies `Sys2Proof.Safety.Inv` raises one (log 10). -/
inductive Fault where
  /-- Raised by the tree builder: POPMIN applied to an empty PQ, against the precondition of 41_pq_engine.md R146. -/
  | emptyQueue
  /-- Raised by CODE: `tree(ROOT)` of 10_state.md R39 is not defined, because the nodes under ROOT form no tree. -/
  | notATree
  deriving DecidableEq, Repr

/-- What the model refuses. All are SAFE: the machine stops. -/
inductive Refusal where
  /-- An instruction with no meaning yet, by its mnemonic. -/
  | notModelled (mnemonic : String)
  /-- Raised by a host access that is not 32 bits wide at a multiple of 4: "A model refuses such an access"
  (20_memory.md R65, 93 I7). -/
  | undefinedAccess
  /-- Raised by a host access outside BASE to BASE + 0x3F (93 I8). -/
  | outsideBlock
  deriving DecidableEq, Repr

/-- What a meaning or a step answers. -/
abbrev Result := Host.Outcome State Fault Refusal

/-- The state after reset of a block with the given parameters (10_state.md R46). The reset values of CMDL, A0L, A1L,
NEXT, IA, IB, SEEDI and SATP are unspecified there; 0 is a DESIGN CHOICE (log 2). -/
def State.resetWith (p : Params) : State where
  params := p
  arg0 := 0
  arg1 := 0
  res0 := 0
  res1 := 0
  res2 := 0
  res3 := 0
  err := .ok
  drop := false
  phit := false
  sat := false
  ft := []
  tv := false
  root := 0
  nnodes := 0
  nodes := []
  pq := []
  cursor := 0
  depth := 0
  outq := []
  eng := .idle
  cmdl := 0
  a0l := 0
  a1l := 0
  nextIdx := 0
  ia := 0
  ib := 0
  seedi := 0
  satp := false
  host := []
  reads := []
  turns := []
  draws := 0

/-- The machine right after reset, with the default parameters (log 1). -/
def State.reset : State := State.resetWith Params.default

end Sys2Proof.Machine
end

