-- ==== Sys2Proof/Machine/Flags.lean ====
section
/-! DEFINITION. Saturating arithmetic (spec/00_scope.md R13) and the STATUS register: its fields, its views and its
write-one-to-clear bits (spec/10_state.md R25, R26, R34, R43). -/

namespace Sys2Proof.Machine

/-- `sat_add(a, b) = min(a + b, CNT_MAX)` (R13). -/
def satAdd (a b : Word) : Word := BitVec.ofNat 32 (min (a.toNat + b.toNat) cntMax.toNat)

/-- `ovf_add(a, b)`: `sat_add` saturated (R13). -/
def ovfAdd (a b : Word) : Bool := decide (a.toNat + b.toNat > cntMax.toNat)

/-- `sat_inc(a) = sat_add(a, 1)` (R13). -/
def satInc (a : Word) : Word := satAdd a 1

/-- The 4-bit codes of STATUS.ERR (60_exceptions.md R241). -/
def ErrCode.bits : ErrCode → BitVec 4
  | .ok => 0
  | .empty => 1
  | .full => 2
  | .notree => 3
  | .range => 4
  | .ovf => 5
  | .qempty => 6
  | .illegal => 7

/-- BUSY: `ENG != IDLE` (10_state.md R44, 70_reset_and_hazards.md R272). -/
def State.busy (s : State) : Bool := decide (s.eng ≠ .idle)

/-- PARTIAL: `DEPTH != 0` (R25). -/
def State.pending (s : State) : Bool := decide (s.depth ≠ 0)

/-- OUTQ_COUNT, 8 bits (R25). -/
def State.outqCount (s : State) : BitVec 8 := BitVec.ofNat 8 s.outq.length

/-- The STATUS word from its fields, bit 31 first; bits 31:19 and 3 are reserved and read 0 (R25). -/
def statusWord (busy treeValid pending : Bool) (err : BitVec 4) (count : BitVec 8) (drop phit sat : Bool) : Word :=
  0#13 ++ BitVec.ofBool sat ++ BitVec.ofBool phit ++ BitVec.ofBool drop ++ count ++ err ++ 0#1 ++
    BitVec.ofBool pending ++ BitVec.ofBool treeValid ++ BitVec.ofBool busy

/-- STATUS as it reads while the engine is idle (R25). -/
def State.status (s : State) : Word :=
  statusWord s.busy s.tv s.pending s.err.bits s.outqCount s.drop s.phit s.sat

/-- STATUS as it reads while a command executes: BUSY is 1, DROP is its current value, the reserved bits are 0, and
every other field comes from the drawn value `d` (70_reset_and_hazards.md R276). -/
def State.statusBusy (s : State) (d : Word) : Word :=
  statusWord true (d.getLsbD 1) (d.getLsbD 2) (d.extractLsb' 4 4) (d.extractLsb' 8 8) s.drop (d.getLsbD 17)
    (d.getLsbD 18)

/-- A write of `v` to STATUS: each of DROP, PHIT and SAT whose bit in `v` is 1 is cleared (R26). -/
def State.clearFlags (s : State) (v : Word) : State :=
  { s with
    drop := s.drop && !v.getLsbD 16
    phit := s.phit && !v.getLsbD 17
    sat := s.sat && !v.getLsbD 18 }

end Sys2Proof.Machine
end

