-- ==== Sys2Proof/Machine/Ops.lean ====
section
/-! DEFINITION. The named operations over the internal storage (FT, NODE, PQ) and the two ways a command completes.
Raising an error is ONE operation, `raiseError`: the block has no traps and nothing to return from
(spec/60_exceptions.md R240, R247). -/

namespace Sys2Proof.Machine

/-! ### Completion -/

/-- `raise Error(code)`: the command ends at its completion step, `ERR <- code`, BUSY returns to 0, and nothing else
changes (60_exceptions.md R240). -/
def raiseError (c : ErrCode) (s : State) : State := { s with err := c, eng := .idle }

/-- A command that raised no error completes: `ERR <- OK`, `ENG <- IDLE` (70_reset_and_hazards.md R273). -/
def complete (s : State) : State := { s with err := .ok, eng := .idle }

/-! ### The frequency table -/

/-- `find(s)`: the index of the valid entry that holds symbol `x` (40_frequency.md R120). -/
def ftFind (ft : List FtEntry) (x : Word) : Option Nat := ft.findIdx? (fun e => e.sym == x)

/-- FT[i]. A slot that is not valid reads as a free value (log 3). -/
def ftRead (ft : List FtEntry) (i : Nat) : FtEntry := ft[i]?.getD (Config.freeEntry i)

/-- `FT[i] <- e`: replaces a valid entry, or appends when `i` is NSYMS (40_frequency.md R121, R124). -/
def ftWrite (ft : List FtEntry) (i : Nat) (e : FtEntry) : List FtEntry :=
  if i < ft.length then ft.set i e else ft ++ [e]

/-! ### The node memory -/

/-- The node held at an index, if the index was written. -/
def nodeAt? : Memory → Nat → Option NodeEntry
  | [], _ => none
  | (k, e) :: m, i => if k = i then some e else nodeAt? m i

/-- NODE[i]. A slot that was not written reads as a free value (log 3). -/
def nodeRead (m : Memory) (i : Index) : NodeEntry := (nodeAt? m i.toNat).getD (Config.freeNode i.toNat)

/-- `NODE[i] <- e`, at its place in the canonical form. -/
def nodeInsert : Memory → Nat → NodeEntry → Memory
  | [], i, e => [(i, e)]
  | (k, x) :: m, i, e =>
    if i < k then (i, e) :: (k, x) :: m else if i = k then (i, e) :: m else (k, x) :: nodeInsert m i e

/-- `NODE[i] <- e`. -/
def nodeWrite (m : Memory) (i : Index) (e : NodeEntry) : Memory := nodeInsert m i.toNat e

/-- The 2-bit encoding of a node's KIND (10_state.md R38). -/
def kindBits : Kind → BitVec 2
  | .leaf => 0
  | .fork => 1
  | .placeholder => 2

/-- The LEAF node made from an FT entry (42_tree_build.md R163). -/
def leafEntry (e : FtEntry) : NodeEntry :=
  { kind := .leaf, sym := e.sym, left := 0, right := 0, freq := e.count, lsd := 0, lml := e.sym }

/-- The FORK node made from the two popped elements `a` and `b`, the first popped on the left (42_tree_build.md R164,
41_pq_engine.md R149). -/
def joinEntry (m : Memory) (a b : Index) : NodeEntry :=
  { kind := .fork, sym := 0, left := a, right := b
    freq := satAdd (nodeRead m a).freq (nodeRead m b).freq
    lsd := (nodeRead m a).lsd + 1, lml := (nodeRead m a).lml }

/-- The PLACEHOLDER node (42_tree_build.md R166). -/
def placeholderEntry : NodeEntry :=
  { kind := .placeholder, sym := 0, left := 0, right := 0, freq := 0, lsd := 0, lml := 0 }

/-- The synthetic FORK of the single-symbol fix-up, over the leaf `a` and the placeholder `p` (R166). -/
def fixupEntry (m : Memory) (a p : Index) : NodeEntry :=
  { kind := .fork, sym := 0, left := a, right := p
    freq := (nodeRead m a).freq, lsd := 1, lml := (nodeRead m a).sym }

/-! ### Abstract trees -/

/-- The abstract tree (00_scope.md R15). -/
inductive Tree where
  | leaf (sym : Word)
  | fork (left right : Tree)
  | placeholder
  deriving DecidableEq, Repr

/-- `tree(i)` of 10_state.md R39, following at most `fuel` levels; `none` when the nodes under `i` go deeper. -/
def treeAt (m : Memory) : Nat → Index → Option Tree
  | 0, _ => none
  | fuel + 1, i =>
    match (nodeRead m i).kind with
    | .leaf => some (.leaf (nodeRead m i).sym)
    | .placeholder => some .placeholder
    | .fork =>
      match treeAt m fuel (nodeRead m i).left, treeAt m fuel (nodeRead m i).right with
      | some l, some r => some (.fork l r)
      | _, _ => none

/-- `tree(i)`: every child index is smaller than its parent's (10_state.md R40), so `i + 1` levels are enough. -/
def treeOf (m : Memory) (i : Index) : Option Tree := treeAt m (i.toNat + 1) i

/-! ### The priority queue -/

/-- PUSH(i): add `i` to the multiset, kept ascending (41_pq_engine.md R145; log 4). -/
def pqPush : List Index → Index → List Index
  | [], i => [i]
  | j :: q, i => if i.toNat ≤ j.toNat then i :: j :: q else j :: pqPush q i

/-- The hardware comparison `i ⊏ j`: the key (FREQ, LSD, LML) in lexicographic order, all parts unsigned
(41_pq_engine.md R143). -/
def keyBefore (a b : NodeEntry) : Bool :=
  decide (a.freq.toNat < b.freq.toNat) ||
    (a.freq == b.freq && (decide (a.lsd.toNat < b.lsd.toNat) || (a.lsd == b.lsd && decide (a.lml.toNat < b.lml.toNat))))

/-- The smallest of `best` and the elements of a queue; the earlier one on a tie, which no reachable queue has
(41_pq_engine.md R144; log 9). -/
def pqMin (m : Memory) : Index → List Index → Index
  | best, [] => best
  | best, i :: q => pqMin m (if keyBefore (nodeRead m i) (nodeRead m best) then i else best) q

/-- POPMIN(): the smallest element and the queue without it; `none` when PQ is empty (41_pq_engine.md R146). -/
def pqPop (m : Memory) : List Index → Option (Index × List Index)
  | [] => none
  | i :: q => some (pqMin m i q, (i :: q).erase (pqMin m i q))

end Sys2Proof.Machine
end

