-- ==== Sys2Proof/Machine/Operands.lean ====
section
/-! DEFINITION. Operand forms (spec/30_encoding.md R94 to R98): the latched registers A0L and A1L as symbol, count,
index and bits, and how a bit sequence crosses the register interface, least significant bit first. -/

namespace Sys2Proof.Machine

/-- A symbol operand: all 32 bits of A0 (R96). -/
def State.symbolOperand (s : State) : Word := s.a0l

/-- A count operand: all 32 bits of A1 (R96). -/
def State.countOperand (s : State) : Word := s.a1l

/-- An index operand: all 32 bits of A0 as an unsigned number, never truncated to 16 bits (R96). -/
def State.indexOperand (s : State) : Nat := s.a0l.toNat

/-- The bits `A0[0]`, …, `A0[n-1]`, in the order DEC consumes them (R98). -/
def State.bitOperand (s : State) (n : Nat) : List Bool := (List.range n).map fun j => s.a0l.getLsbD j

/-- The number whose binary digits, least significant first, are the given bits. -/
def natOfBits : List Bool → Nat
  | [] => 0
  | b :: bs => b.toNat + 2 * natOfBits bs

/-- Chunk `k` of a code: bit `i` is `code[32k + i]`, and 0 past the code's end (R98, 43_code_lookup.md R190). -/
def chunkOf (code : List Bool) (k : Nat) : Word := BitVec.ofNat 32 (natOfBits ((code.drop (32 * k)).take 32))

/-- RES2 of NREAD: `(RIGHT << 16) | LEFT` (42_tree_build.md R175). -/
def childrenWord (e : NodeEntry) : Word := e.right ++ e.left

end Sys2Proof.Machine
end

