-- ==== Sys2Proof/Machine/Build.lean ====
section
/-! DEFINITION. The tree builder as commands: BUILD as the one atomic step of spec/42_tree_build.md R170, and NREAD
(R175). The tree-merge FSM that BUILD runs as when the host issues it is Machine/Fsm.lean. -/

namespace Sys2Proof.Machine

/-- What BUILD works on: the node memory, PQ, the next free node index and whether a sum saturated (R170). -/
structure BuildRun where
  nodes : Memory
  pq : List Index
  next : Index
  satp : Bool
  deriving DecidableEq, Repr

/-- `NODE[e] <- Leaf entry from FT[e] ; PUSH(e)` (R163). -/
def seedOne (x : FtEntry) (e : Nat) (b : BuildRun) : BuildRun :=
  { b with
    nodes := nodeWrite b.nodes (BitVec.ofNat 16 e) (leafEntry x)
    pq := pqPush b.pq (BitVec.ofNat 16 e) }

/-- The seeding loop: the entries from number `e` on (R170). -/
def seedAll : List FtEntry → Nat → BuildRun → BuildRun
  | [], _, b => b
  | x :: xs, e, b => seedAll xs (e + 1) (seedOne x e b)

/-- `NODE[next] <- Fork entry with LEFT a, RIGHT b ; PUSH(next)` (R164). -/
def joinTwo (a b : Index) (r : BuildRun) : BuildRun :=
  { nodes := nodeWrite r.nodes r.next (joinEntry r.nodes a b)
    pq := pqPush r.pq r.next
    next := r.next + 1
    satp := r.satp || ovfAdd (nodeRead r.nodes a).freq (nodeRead r.nodes b).freq }

/-- One turn of the merge loop, when PQ holds two elements or more; `none` otherwise (R170). -/
def mergeOne (r : BuildRun) : Option BuildRun :=
  match pqPop r.nodes r.pq with
  | none => none
  | some (a, q) =>
    match pqPop r.nodes q with
    | none => none
    | some (b, q') => some (joinTwo a b { r with pq := q' })

/-- The merge loop `while |PQ| >= 2`. Each turn takes one element off PQ, so `|PQ|` turns are enough. -/
def mergeAll : Nat → BuildRun → BuildRun
  | 0, r => r
  | fuel + 1, r =>
    match mergeOne r with
    | none => r
    | some r' => mergeAll fuel r'

/-- The single-symbol fix-up: the node memory, the root and the next free index after it (R166). -/
def fixup (m : Memory) (a next : Index) : Memory × Index × Index :=
  match (nodeRead m a).kind with
  | .leaf => (nodeWrite (nodeWrite m next placeholderEntry) (next + 1) (fixupEntry m a next), next + 1, next + 2)
  | .fork => (m, a, next)
  | .placeholder => (m, a, next)

/-- Completion with a tree: the tree registers, the decoder cursor at the new root, the results (R167). -/
def finishTree (s : State) (root next : Index) (satp : Bool) : State :=
  complete { s with
    tv := true, root := root, nnodes := next, cursor := root, depth := 0
    sat := s.sat || satp
    res0 := zext root, res1 := zext next, res2 := BitVec.ofNat 32 s.nsyms }

/-- Completion without a tree: the block holds "no tree", and EMPTY is raised (R168). -/
def finishEmpty (s : State) : State :=
  raiseError .empty { s with tv := false, root := 0, nnodes := 0, cursor := 0, depth := 0 }

/-- The start of BUILD on the valid entries: PQ empty, `next <- n`, `satp <- 0` (R170). -/
def buildStart (s : State) : BuildRun :=
  { nodes := s.nodes, pq := [], next := BitVec.ofNat 16 s.nsyms, satp := false }

/-- The state of BUILD when its merge loop ends (R170). -/
def buildMerged (s : State) : BuildRun := mergeAll s.nsyms (seedAll s.ft 0 (buildStart s))

/-- BUILD: the tree from the frequency table (R170). -/
def execBuild (s : State) : Result :=
  if s.nsyms = 0 then .next (finishEmpty s)
  else
    match pqPop (buildMerged s).nodes (buildMerged s).pq with
    | none => .fault .emptyQueue
    | some (a, q) =>
      match fixup (buildMerged s).nodes a (buildMerged s).next with
      | (nodes, root, next) => .next (finishTree { s with nodes := nodes, pq := q } root next (buildMerged s).satp)

/-- NREAD: node A0 of the tree (R175). -/
def execNread (s : State) : Result :=
  if s.tv = false then .next (raiseError .notree s)
  else if s.indexOperand ≥ s.nnodes.toNat then .next (raiseError .range s)
  else
    .next (complete { s with
      res0 := (kindBits (nodeRead s.nodes (BitVec.ofNat 16 s.indexOperand)).kind).setWidth 32
      res1 := (nodeRead s.nodes (BitVec.ofNat 16 s.indexOperand)).sym
      res2 := childrenWord (nodeRead s.nodes (BitVec.ofNat 16 s.indexOperand))
      res3 := (nodeRead s.nodes (BitVec.ofNat 16 s.indexOperand)).freq })

end Sys2Proof.Machine
end

