-- ==== Sys2Proof/Machine/Control.lean ====
section
/-! DEFINITION. The control commands NOP and CLEAR (spec/45_control.md). -/

namespace Sys2Proof.Machine

/-- NOP: `ERR <- OK` (R230). -/
def execNop (s : State) : Result := .next (complete s)

/-- CLEAR: discards the frequency table, the tree, the decoder stream and the results; ARG0, ARG1, DROP, PHIT and SAT
stay (R231). The contents of NODE "become unspecified": no slot is held any more (log 12). -/
def execClear (s : State) : Result :=
  .next (complete { s with
    ft := [], tv := false, root := 0, nnodes := 0, nodes := [], cursor := 0, depth := 0, outq := []
    res0 := 0, res1 := 0, res2 := 0, res3 := 0 })

end Sys2Proof.Machine
end

