-- ==== Sys2Proof/Machine/Decoder.lean ====
section
/-! DEFINITION. The symbol decoder: one decoder step, DEC, DRST and POP (spec/44_decoder.md). -/

namespace Sys2Proof.Machine

/-- The decoder's own state: CURSOR, DEPTH and the sticky flag PHIT (10_state.md R43, R25). -/
structure Walk where
  cursor : Index
  depth : Index
  phit : Bool
  deriving DecidableEq, Repr

/-- `step(bit)`: the decoder's state after one bit, and the symbol emitted, if any (R202, R203). -/
def walkBit (m : Memory) (root : Index) (bit : Bool) (w : Walk) : Walk × Option Word :=
  let c := if bit then (nodeRead m w.cursor).right else (nodeRead m w.cursor).left
  match (nodeRead m c).kind with
  | .leaf => ({ w with cursor := root, depth := 0 }, some (nodeRead m c).sym)
  | .placeholder => ({ cursor := root, depth := 0, phit := true }, none)
  | .fork => ({ w with cursor := c, depth := w.depth + 1 }, none)

/-- The decoder over a bit sequence: its last state and the symbols emitted, in order (R200). -/
def walkBits (m : Memory) (root : Index) : List Bool → Walk → Walk × List Word
  | [], w => (w, [])
  | b :: bs, w =>
    let r := walkBit m root b w
    let rest := walkBits m root bs r.1
    (rest.1, r.2.toList ++ rest.2)

/-- The decoder's state in the machine. -/
def State.walk (s : State) : Walk := { cursor := s.cursor, depth := s.depth, phit := s.phit }

/-- The end of a DEC that emitted `out`: OUTQ grows by it, RES0 is its length and RES1 its last symbol, or 0 (R200). -/
def finishDec (s : State) (w : Walk) (out : List Word) : State :=
  complete { s with
    cursor := w.cursor, depth := w.depth, phit := w.phit
    outq := s.outq ++ out
    res0 := BitVec.ofNat 32 out.length, res1 := out.getLast?.getD 0 }

/-- DEC: feeds the low `n` bits of A0 to the decoder. The checks are NOTREE, RANGE, OVF, in that order, and OVF is
made against `n` before any bit is consumed (R200, R208). -/
def execDec (n : Nat) (s : State) : Result :=
  if s.tv = false then .next (raiseError .notree s)
  else if n = 0 ∨ n > 32 then .next (raiseError .range s)
  else if s.params.outqDepth - s.outq.length < n then .next (raiseError .ovf s)
  else
    match walkBits s.nodes s.root (s.bitOperand n) s.walk with
    | (w, out) => .next (finishDec s w out)

/-- DRST: ends the stream; RES0 is the number of trailing bits dropped (R210). -/
def execDrst (s : State) : Result :=
  .next (complete { s with res0 := zext s.depth, cursor := s.root, depth := 0 })

/-- POP: takes the oldest symbol from OUTQ (R213). -/
def execPop (s : State) : Result :=
  match s.outq with
  | [] => .next (raiseError .qempty s)
  | x :: q => .next (complete { s with res0 := x, outq := q })

end Sys2Proof.Machine
end

