-- ==== Sys2Proof/Machine/Frequency.lean ====
section
/-! DEFINITION. The frequency counter: COUNT, FSET and FREAD (spec/40_frequency.md). -/

namespace Sys2Proof.Machine

/-- The shared end of COUNT and FSET: `FT[i] <- e`, RES0 the index, RES1 the count (R121, R124). -/
def storeEntry (s : State) (i : Nat) (e : FtEntry) : State :=
  complete { s with ft := ftWrite s.ft i e, res0 := BitVec.ofNat 32 i, res1 := e.count }

/-- COUNT: one occurrence of the symbol A0 (R121). -/
def execCount (s : State) : Result :=
  match ftFind s.ft s.symbolOperand with
  | none =>
    if s.nsyms = s.params.maxSyms then .next (raiseError .full s)
    else .next (storeEntry s s.nsyms ⟨s.symbolOperand, 1⟩)
  | some i =>
    .next (storeEntry { s with sat := s.sat || (ftRead s.ft i).count == cntMax } i
      ⟨s.symbolOperand, satInc (ftRead s.ft i).count⟩)

/-- FSET: the count of the symbol A0 becomes A1 (R124). -/
def execFset (s : State) : Result :=
  match ftFind s.ft s.symbolOperand with
  | none =>
    if s.nsyms = s.params.maxSyms then .next (raiseError .full s)
    else .next (storeEntry s s.nsyms ⟨s.symbolOperand, s.countOperand⟩)
  | some i => .next (storeEntry s i ⟨s.symbolOperand, s.countOperand⟩)

/-- FREAD: entry A0 of the frequency table (R126). -/
def execFread (s : State) : Result :=
  if s.indexOperand ≥ s.nsyms then .next (raiseError .range s)
  else
    .next (complete { s with
      res0 := (ftRead s.ft s.indexOperand).sym
      res1 := (ftRead s.ft s.indexOperand).count })

end Sys2Proof.Machine
end

