-- ==== Sys2Proof/Machine/Lookup.lean ====
section
/-! DEFINITION. The code lookup: the path function and CODE (spec/43_code_lookup.md). -/

namespace Sys2Proof.Machine

/-- `path(t, s)`: the bits from the root of `t` to the leaf that holds `x`, left (0) first; the placeholder matches no
symbol (R189). -/
def path : Tree → Word → Option (List Bool)
  | .leaf y, x => if y = x then some [] else none
  | .placeholder, _ => none
  | .fork l r, x =>
    match path l x with
    | some p => some (false :: p)
    | none =>
      match path r x with
      | some p => some (true :: p)
      | none => none

/-- `codeFor(s)`: the path, or no bits when the symbol is absent (R189). -/
def codeFor (t : Tree) (x : Word) : List Bool := (path t x).getD []

/-- CODE: length, chunk `k` and FOUND of the code of the symbol A0 (R190). -/
def execCode (k : Nat) (s : State) : Result :=
  if s.tv = false then .next (raiseError .notree s)
  else
    match treeOf s.nodes s.root with
    | none => .fault .notATree
    | some t =>
      .next (complete { s with
        res0 := BitVec.ofNat 32 (codeFor t s.symbolOperand).length
        res1 := chunkOf (codeFor t s.symbolOperand) k
        res2 := if (path t s.symbolOperand).isSome then 1 else 0 })

end Sys2Proof.Machine
end

