-- ==== Sys2Proof/Machine/Dispatch.lean ====
section
/-! DEFINITION. One arm per command. -/

namespace Sys2Proof.Machine

-- The completion step of a command, as one atomic step (spec/70_reset_and_hazards.md R273; BUILD: 42_tree_build.md R170).
def exec (i : Instr) (s : State) : Host.Outcome State Fault Refusal :=
  match i with
  | .nop => Sys2Proof.Machine.execNop s
  | .clear => Sys2Proof.Machine.execClear s
  | .count => Sys2Proof.Machine.execCount s
  | .fset => Sys2Proof.Machine.execFset s
  | .fread => Sys2Proof.Machine.execFread s
  | .build => Sys2Proof.Machine.execBuild s
  | .nread => Sys2Proof.Machine.execNread s
  | .code k => Sys2Proof.Machine.execCode k s
  | .dec n => Sys2Proof.Machine.execDec n s
  | .drst => Sys2Proof.Machine.execDrst s
  | .pop => Sys2Proof.Machine.execPop s

end Sys2Proof.Machine
end

