-- ==== Sys2Proof/Machine/Fsm.lean ====
section
/-! DEFINITION. The tree-merge FSM: BUILD one FSM step at a time (spec/42_tree_build.md R162 to R168). -/

namespace Sys2Proof.Machine

/-- The IDLE action of a BUILD issue: `PQ <- {}`, `SEEDI <- 0`, `NEXT <- NSYMS`, `SATP <- 0` (R162). -/
def buildIssue (s : State) : State :=
  { s with
    pq := [], seedi := 0, nextIdx := BitVec.ofNat 16 s.nsyms, satp := false
    eng := if s.nsyms = 0 then .bDone else .bSeed }

/-- B_SEED: one leaf from FT into NODE and PQ (R163). The next state is decided after the action (R162). -/
def fsmSeed (s : State) : Result :=
  let pq := pqPush s.pq s.seedi
  .next { s with
    nodes := nodeWrite s.nodes s.seedi (leafEntry (ftRead s.ft s.seedi.toNat))
    pq := pq
    seedi := s.seedi + 1
    eng := if (s.seedi + 1).toNat < s.nsyms then .bSeed else if 2 ≤ pq.length then .bPopA else .bLast }

/-- B_POPA: `IA <- POPMIN()` (R162). -/
def fsmPopA (s : State) : Result :=
  match pqPop s.nodes s.pq with
  | none => .fault .emptyQueue
  | some (i, q) => .next { s with ia := i, pq := q, eng := .bPopB }

/-- B_POPB: `IB <- POPMIN()` (R162). -/
def fsmPopB (s : State) : Result :=
  match pqPop s.nodes s.pq with
  | none => .fault .emptyQueue
  | some (i, q) => .next { s with ib := i, pq := q, eng := .bJoin }

/-- B_JOIN: the fork of IA and IB into NODE and PQ (R164). -/
def fsmJoin (s : State) : Result :=
  let pq := pqPush s.pq s.nextIdx
  .next { s with
    satp := s.satp || ovfAdd (nodeRead s.nodes s.ia).freq (nodeRead s.nodes s.ib).freq
    nodes := nodeWrite s.nodes s.nextIdx (joinEntry s.nodes s.ia s.ib)
    pq := pq
    nextIdx := s.nextIdx + 1
    eng := if 2 ≤ pq.length then .bPopA else .bLast }

/-- B_LAST: pops the one remaining element into IA (R165). -/
def fsmLast (s : State) : Result :=
  match pqPop s.nodes s.pq with
  | none => .fault .emptyQueue
  | some (i, q) => .next { s with ia := i, pq := q, eng := .bFixup }

/-- B_FIXUP: the single-symbol fix-up (R166). -/
def fsmFixup (s : State) : Result :=
  match fixup s.nodes s.ia s.nextIdx with
  | (nodes, ia, next) => .next { s with nodes := nodes, ia := ia, nextIdx := next, eng := .bDone }

/-- B_DONE: completion with a tree, or without one when NSYMS = 0 (R167, R168). -/
def fsmDone (s : State) : Result :=
  if s.nsyms = 0 then .next (finishEmpty s) else .next (finishTree s s.ia s.nextIdx s.satp)

end Sys2Proof.Machine
end

