-- ==== Sys2Proof/Machine/Engine.lean ====
section
/-! DEFINITION. The command engine: issue (spec/70_reset_and_hazards.md R271) and one engine step (R273). -/

namespace Sys2Proof.Machine

/-- The latches of an issue: the command word and the operands (R271; 10_state.md R27). -/
def latch (v : Word) (s : State) : State := { s with cmdl := v, a0l := s.arg0, a1l := s.arg1 }

/-- A command word latched, the engine about to execute it (R271). -/
def latchExec (v : Word) (s : State) : State := { latch v s with eng := .exec }

/-- `issue(v)`: BUILD starts the tree-merge FSM, every other word (ILLEGAL included) goes to EXEC (R271). -/
def issue (v : Word) (s : State) : State :=
  match decode v with
  | .ok i => if i = .build then buildIssue (latch v s) else latchExec v s
  | .error _ => latchExec v s

/-- The EXEC step: the whole pseudocode of the latched command, or ILLEGAL (R273; 60_exceptions.md R242). -/
def runLatched (s : State) : Result :=
  match decode s.cmdl with
  | .ok i => exec i s
  | .error _ => .next (raiseError .illegal s)

/-- One step of the command engine. An idle engine keeps all its state (60_exceptions.md R255). -/
def engineStep (s : State) : Result :=
  match s.eng with
  | .idle => .next s
  | .exec => runLatched s
  | .bSeed => fsmSeed s
  | .bPopA => fsmPopA s
  | .bPopB => fsmPopB s
  | .bJoin => fsmJoin s
  | .bLast => fsmLast s
  | .bFixup => fsmFixup s
  | .bDone => fsmDone s

end Sys2Proof.Machine
end

