-- ==== Sys2Proof/Machine/Bus.lean ====
section
/-! DEFINITION. The register block on the host's bus: the address map (spec/10_state.md R21), reads while idle (R22 to
R33) and while busy (spec/70_reset_and_hazards.md R276), writes (spec/20_memory.md R63), and the host's next access. -/

namespace Sys2Proof.Machine

/-- The sixteen registers of the block (R21). -/
inductive Reg where
  | id
  | cfg
  | cmd
  | status
  | arg0
  | arg1
  | res0
  | res1
  | res2
  | res3
  | nsyms
  | tree
  | decst
  | rsv34
  | rsv38
  | rsv3c
  deriving DecidableEq, Repr

/-- The offset of a register in the block (R21). -/
def Reg.offset : Reg → Nat
  | .id => 0x00
  | .cfg => 0x04
  | .cmd => 0x08
  | .status => 0x0C
  | .arg0 => 0x10
  | .arg1 => 0x14
  | .res0 => 0x18
  | .res1 => 0x1C
  | .res2 => 0x20
  | .res3 => 0x24
  | .nsyms => 0x28
  | .tree => 0x2C
  | .decst => 0x30
  | .rsv34 => 0x34
  | .rsv38 => 0x38
  | .rsv3c => 0x3C

/-- All registers, in the order of the map. -/
def Reg.all : List Reg :=
  [.id, .cfg, .cmd, .status, .arg0, .arg1, .res0, .res1, .res2, .res3, .nsyms, .tree, .decst, .rsv34, .rsv38, .rsv3c]

/-- The register at an offset; none when the offset is not a multiple of 4 below 64 (R21, R65). -/
def regAt (off : Nat) : Option Reg := Reg.all.find? fun r => r.offset == off

/-- The register a host access reaches. Only a 32-bit access at a multiple of 4 in the block is defined; the model
refuses every other (20_memory.md R65; 93 I7, I8; log 11). -/
def resolve (p : Params) (a : Access) : Except Refusal Reg :=
  if a.addr < p.base ∨ p.base + 0x40 ≤ a.addr then .error .outsideBlock
  else
    match a.width with
    | .byte => .error .undefinedAccess
    | .half => .error .undefinedAccess
    | .word =>
      match regAt (a.addr - p.base) with
      | some r => .ok r
      | none => .error .undefinedAccess

/-- CFG: VERSION 1, OUTQ_DEPTH, MAX_SYMS (R23). -/
def cfgWord (p : Params) : Word := 0x01#8 ++ BitVec.ofNat 8 p.outqDepth ++ BitVec.ofNat 16 p.maxSyms

/-- What a register reads as while the engine is idle (R22 to R33). -/
def State.readIdle (s : State) : Reg → Word
  | .id => 0x48554601#32
  | .cfg => cfgWord s.params
  | .cmd => 0
  | .status => s.status
  | .arg0 => s.arg0
  | .arg1 => s.arg1
  | .res0 => s.res0
  | .res1 => s.res1
  | .res2 => s.res2
  | .res3 => s.res3
  | .nsyms => BitVec.ofNat 16 0 ++ BitVec.ofNat 16 s.nsyms
  | .tree => s.nnodes ++ s.root
  | .decst => s.depth ++ s.cursor
  | .rsv34 => 0
  | .rsv38 => 0
  | .rsv3c => 0

/-- What a register reads as while a command executes, `d` being the value drawn for this read. The reserved bits 31:16
of NSYMS read 0 (70_reset_and_hazards.md R276; 10_state.md R29; log 20). -/
def State.readBusy (s : State) (d : Word) : Reg → Word
  | .id => 0x48554601#32
  | .cfg => cfgWord s.params
  | .cmd => 0
  | .status => s.statusBusy d
  | .arg0 => s.arg0
  | .arg1 => s.arg1
  | .res0 => d
  | .res1 => d
  | .res2 => d
  | .res3 => d
  | .nsyms => BitVec.ofNat 16 0 ++ d.extractLsb' 0 16
  | .tree => d
  | .decst => d
  | .rsv34 => 0
  | .rsv38 => 0
  | .rsv3c => 0

/-- The value a host read of `r` returns in `s` (R62, R276). -/
def State.readReg (s : State) (r : Reg) : Word :=
  if s.busy then s.readBusy (Config.freeRead s.draws) r else s.readIdle r

/-- A host read of `r`: the block's state does not change (R62). The host has the value; a read while busy has used
one free value (log 5). -/
def hostRead (r : Reg) (s : State) : State :=
  { s with reads := s.readReg r :: s.reads, draws := if s.busy then s.draws + 1 else s.draws }

/-- A host write of `v` to `r` (20_memory.md R63). -/
def hostWrite (r : Reg) (v : Word) (s : State) : State :=
  match r with
  | .cmd => if s.busy then { s with drop := true } else issue v s
  | .status => s.clearFlags v
  | .arg0 => { s with arg0 := v }
  | .arg1 => { s with arg1 := v }
  | .id => s
  | .cfg => s
  | .res0 => s
  | .res1 => s
  | .res2 => s
  | .res3 => s
  | .nsyms => s
  | .tree => s
  | .decst => s
  | .rsv34 => s
  | .rsv38 => s
  | .rsv3c => s

/-- The host's next access. POLL reads STATUS and stays as long as BUSY reads 1 (30_encoding.md R101; log 22). A host
with nothing left to do does nothing (log 21). -/
def hostStep (s : State) : Result :=
  match s.host with
  | [] => .next s
  | .rd a :: ops =>
    match resolve s.params a with
    | .error e => .refused e
    | .ok r => .next { hostRead r s with host := ops }
  | .wr a v :: ops =>
    match resolve s.params a with
    | .error e => .refused e
    | .ok r => .next { hostWrite r v s with host := ops }
  | .poll :: ops =>
    if (s.readReg .status).getLsbD 0 then .next (hostRead .status s)
    else .next { hostRead .status s with host := ops }

/-- The reset input: every piece of the block's state takes its reset value, a running command is abandoned
(70_reset_and_hazards.md R270). The parameters and the environment stay (log 14). -/
def applyReset (s : State) : State :=
  { State.resetWith s.params with host := s.host, reads := s.reads, turns := s.turns, draws := s.draws }

end Sys2Proof.Machine
end

