-- ==== Sys2Proof/Machine/Step.lean ====
section
/-! DEFINITION. One step of the machine: the host, the command engine or the reset input acts (spec/00_scope.md R19,
spec/20_memory.md R70, spec/70_reset_and_hazards.md R270, R277), and where a command word is placed for the engine. -/

namespace Sys2Proof.Machine

/-- One step. `turns` says who acts; when it is used up, a busy engine acts before the host, so an issued command
completes (R277, weak fairness; log 6). -/
def step (s : State) : Host.Outcome State Fault Refusal :=
  match s.turns with
  | [] => if s.busy then engineStep s else hostStep s
  | .host :: ts => hostStep { s with turns := ts }
  | .engine :: ts => engineStep { s with turns := ts }
  | .reset :: ts => .next (applyReset { s with turns := ts })

/-- The state in which the command word of these bits has been latched and the engine's EXEC step comes next
(R271, R273; log 7). The block fetches nothing (20_memory.md R74): a command word reaches the engine by a CMD write. -/
def State.withFetchWord (s : State) (nbits w : Nat) : State :=
  { latchExec (commandWord nbits w) s with
    turns := match s.turns with
      | [] => []
      | t :: ts => .engine :: t :: ts }

end Sys2Proof.Machine
end

