-- ==== Sys2Proof/Machine/Script.lean ====
section
/-! DEFINITION. The host's side: the script syntax and its pseudo-instructions (spec/30_encoding.md R101, R102), and
the host procedures of the source's three functions (spec/40_frequency.md R123, spec/43_code_lookup.md R192,
spec/44_decoder.md R211). -/

namespace Sys2Proof.Machine

/-- The access `RD reg` or `WR reg` makes (R101). -/
def regAccess (p : Params) (r : Reg) : Access := { addr := p.base + r.offset, width := .word }

/-- `WR <reg>, <value>` (R101). -/
def wrOp (p : Params) (r : Reg) (v : Word) : HostOp := .wr (regAccess p r) v

/-- The pseudo-instructions of R102. Operands are numbers; those that do not fit have no expansion. -/
inductive Pseudo where
  | nop
  | clear
  | count (s : Nat)
  | fset (s c : Nat)
  | fread (i : Nat)
  | build
  | nread (i : Nat)
  | code (s k : Nat)
  | dec (b n : Nat)
  | drst
  | pop
  | clrf
  deriving DecidableEq, Repr

/-- The command of a pseudo-instruction, with the values it writes to ARG0 and ARG1; `CLRF` is no command (R102). -/
def Pseudo.command : Pseudo → Option (Instr × Option Nat × Option Nat)
  | .nop => some (.nop, none, none)
  | .clear => some (.clear, none, none)
  | .count s => some (.count, some s, none)
  | .fset s c => some (.fset, some s, some c)
  | .fread i => some (.fread, some i, none)
  | .build => some (.build, none, none)
  | .nread i => some (.nread, some i, none)
  | .code s k => some (.code k, some s, none)
  | .dec b n => some (.dec n, some b, none)
  | .drst => some (.drst, none, none)
  | .pop => some (.pop, none, none)
  | .clrf => none

/-- The write of one operand, if the pseudo-instruction has it (R102). -/
def argOp (p : Params) (r : Reg) : Option Nat → List HostOp
  | none => []
  | some v => [wrOp p r (BitVec.ofNat 32 v)]

/-- Whether an operand fits a register. R102 has an assembler refuse a symbol or a count that does not; that it refuses
an index (FREAD, NREAD) and bits (DEC) that do not is the model's DESIGN CHOICE (log 23). -/
def fits : Option Nat → Bool
  | none => true
  | some v => decide (v < 2 ^ 32)

/-- The expansion of a pseudo-instruction; none where an assembler refuses its operands: `k`, `n`, a symbol or a count
that does not fit (R102), and by DESIGN CHOICE an index or bits that do not fit in 32 bits (log 23). -/
def Pseudo.expand (p : Params) (x : Pseudo) : Option (List HostOp) :=
  match x.command with
  | none => some [wrOp p .status 0x00070000#32]
  | some (i, a0, a1) =>
    if i.wellFormed && fits a0 && fits a1 then
      some (argOp p .arg0 a0 ++ argOp p .arg1 a1 ++ [wrOp p .cmd (encode i), .poll])
    else none

/-- A script of pseudo-instructions. -/
def expandAll (p : Params) : List Pseudo → Option (List HostOp)
  | [] => some []
  | x :: xs =>
    match x.expand p, expandAll p xs with
    | some a, some b => some (a ++ b)
    | _, _ => none

/-- `host_build(x)` as a script (R123). -/
def hostBuild (xs : List Word) : List Pseudo :=
  [.clear] ++ xs.map (fun x => .count x.toNat) ++ [.build]

/-! The procedures that depend on results, command by command: each command is issued and completes before the next
(R278), so it is one `command`. -/

/-- A command issued and completed, with nothing in between. -/
def command (i : Instr) (s : State) : Result := runLatched (latchExec (encode i) s)

/-- COUNT of each symbol of a sequence, in order (40_frequency.md R122); none if a COUNT does not end with OK. -/
def countAll : List Word → State → Option State
  | [], s => some s
  | x :: xs, s =>
    match command .count { s with arg0 := x } with
    | .next t => if t.err = .ok then countAll xs t else none
    | .fault _ => none
    | .refused _ => none

/-- `host_build(x)` command by command: CLEAR, the COUNTs, BUILD (40_frequency.md R123). -/
def buildText (xs : List Word) (s : State) : Option State :=
  match command .clear s with
  | .next s1 =>
    match countAll xs s1 with
    | none => none
    | some s2 =>
      match command .build s2 with
      | .next s3 => some s3
      | .fault _ => none
      | .refused _ => none
  | .fault _ => none
  | .refused _ => none

/-- The chunks `K` of the code of the symbol in ARG0, one CODE each (R192). -/
def readChunks : List Nat → State → Option (List Word × State)
  | [], s => some ([], s)
  | k :: ks, s =>
    match command (.code k) s with
    | .next s1 =>
      match readChunks ks s1 with
      | some (ws, s2) => some (s1.res1 :: ws, s2)
      | none => none
    | .fault _ => none
    | .refused _ => none

/-- The bits of a word, bit 0 first (R98). -/
def wordBits (w : Word) : List Bool := (List.range 32).map fun i => w.getLsbD i

/-- One symbol of `host_encode`: CODE s, 0 for the length and chunk 0, then the further chunks; bits 0 to L - 1 (R192). -/
def encodeSymbol (x : Word) (s : State) : Option (List Bool × State) :=
  match command (.code 0) { s with arg0 := x } with
  | .next s1 =>
    match readChunks ((List.range ((s1.res0.toNat + 31) / 32 - 1)).map (· + 1)) s1 with
    | some (ws, s2) => some (((s1.res1 :: ws).flatMap wordBits).take s1.res0.toNat, s2)
    | none => none
  | .fault _ => none
  | .refused _ => none

/-- `host_encode(x)` (R192). -/
def hostEncode : List Word → State → Option (List Bool × State)
  | [], s => some ([], s)
  | x :: xs, s =>
    match encodeSymbol x s with
    | none => none
    | some (bits, s1) =>
      match hostEncode xs s1 with
      | none => none
      | some (rest, s2) => some (bits ++ rest, s2)

/-- `repeat n times: POP` (R211). -/
def popMany : Nat → State → Option (List Word × State)
  | 0, s => some ([], s)
  | n + 1, s =>
    match command .pop s with
    | .next s1 =>
      match popMany n s1 with
      | some (out, s2) => some (s1.res0 :: out, s2)
      | none => none
    | .fault _ => none
    | .refused _ => none

/-- `DEC w, len(w)` and then a POP for each symbol it emitted (R211). -/
def decodeChunk (w : List Bool) (s : State) : Option (List Word × State) :=
  match command (.dec w.length) { s with arg0 := BitVec.ofNat 32 (natOfBits w) } with
  | .next s1 => popMany s1.res0.toNat s1
  | .fault _ => none
  | .refused _ => none

/-- The chunks of a bit sequence in order (R211). -/
def decodeChunks : List (List Bool) → State → Option (List Word × State)
  | [], s => some ([], s)
  | w :: ws, s =>
    match decodeChunk w s with
    | none => none
    | some (out, s1) =>
      match decodeChunks ws s1 with
      | none => none
      | some (rest, s2) => some (out ++ rest, s2)

/-- `host_decode(bits)` over the given chunks of the bits: DRST, the chunks, DRST (R211). -/
def hostDecode (chunks : List (List Bool)) (s : State) : Option (List Word × State) :=
  match command .drst s with
  | .next s1 =>
    match decodeChunks chunks s1 with
    | none => none
    | some (out, s2) =>
      match command .drst s2 with
      | .next s3 => some (out, s3)
      | .fault _ => none
      | .refused _ => none
  | .fault _ => none
  | .refused _ => none

end Sys2Proof.Machine
end

