-- ==== Sys2Proof/Machine/Abstract.lean ====
section
/-! DEFINITION. The spec's abstract functions, independent of the machine's storage: what the statements compare the
machine with (spec/00_scope.md R16, spec/40_frequency.md R120, spec/41_pq_engine.md R142, spec/42_tree_build.md R160,
spec/44_decoder.md R199). -/

namespace Sys2Proof.Machine

/-- `leaves(t)`, the symbols of the leaves from left to right (R16). -/
def Tree.leaves : Tree → List Word
  | .leaf x => [x]
  | .fork l r => l.leaves ++ r.leaves
  | .placeholder => []

/-- The trees that enter the priority queue: Leaf and Fork alone (41_pq_engine.md R141). -/
inductive QTree where
  | leaf (sym : Word)
  | fork (left right : QTree)
  deriving DecidableEq, Repr

/-- A queue tree as an abstract tree. -/
def QTree.toTree : QTree → Tree
  | .leaf x => .leaf x
  | .fork l r => .fork l.toTree r.toTree

/-- The leaf symbols of a queue tree. -/
def QTree.leaves : QTree → List Word
  | .leaf x => [x]
  | .fork l r => l.leaves ++ r.leaves

/-- `lsd(t)`, the left-spine depth (R16). -/
def QTree.lsd : QTree → Nat
  | .leaf _ => 0
  | .fork l _ => l.lsd + 1

/-- `lml(t)`, the leftmost leaf's symbol (R16). -/
def QTree.lml : QTree → Word
  | .leaf x => x
  | .fork l _ => l.lml

/-- `cmpT`: Leaf before Fork, leaves by symbol, forks by the left subtree and then the right (R142). -/
def cmpT : QTree → QTree → Ordering
  | .leaf a, .leaf b => compare a.toNat b.toNat
  | .leaf _, .fork _ _ => .lt
  | .fork _ _, .leaf _ => .gt
  | .fork l1 r1, .fork l2 r2 =>
    match cmpT l1 l2 with
    | .lt => .lt
    | .gt => .gt
    | .eq => cmpT r1 r2

/-- A queue element as the source has it: a frequency and a subtree (41_pq_engine.md R140). -/
abbrev Elem := Word × QTree

/-- `x ⊏ y`: frequency ascending, then `cmpT` (R142). -/
def elemBefore (x y : Elem) : Bool :=
  decide (x.1.toNat < y.1.toNat) || (x.1 == y.1 && cmpT x.2 y.2 == .lt)

/-- The smallest of `best` and a list of elements. -/
def minElem : Elem → List Elem → Elem
  | best, [] => best
  | best, x :: q => minElem (if elemBefore x best then x else best) q

/-- `x <- min Q ; Q <- Q \ {x}` (R160). -/
def takeMin : List Elem → Option (Elem × List Elem)
  | [] => none
  | x :: q => some (minElem x q, (x :: q).erase (minElem x q))

/-- The loop `while |Q| >= 2` of R160; each turn takes one element off Q. -/
def mergeElems : Nat → List Elem → List Elem
  | 0, q => q
  | fuel + 1, q =>
    match takeMin q with
    | none => q
    | some (x, q1) =>
      match takeMin q1 with
      | none => q
      | some (y, q2) => mergeElems fuel ((satAdd x.1 y.1, .fork x.2 y.2) :: q2)

/-- The pairs the merge loop of R160 pops, in order, the element popped first on the left (42_tree_build.md R164). -/
def mergePairs : Nat → List Elem → List (Elem × Elem)
  | 0, _ => []
  | fuel + 1, q =>
    match takeMin q with
    | none => []
    | some (x, q1) =>
      match takeMin q1 with
      | none => []
      | some (y, q2) => (x, y) :: mergePairs fuel ((satAdd x.1 y.1, .fork x.2 y.2) :: q2)

/-- Whether a sum of the merge loop exceeds CNT_MAX (`ovf_add`, 42_tree_build.md R164). -/
def mergeOverflows : Nat → List Elem → Bool
  | 0, _ => false
  | fuel + 1, q =>
    match takeMin q with
    | none => false
    | some (x, q1) =>
      match takeMin q1 with
      | none => false
      | some (y, q2) => ovfAdd x.1 y.1 || mergeOverflows fuel ((satAdd x.1 y.1, .fork x.2 y.2) :: q2)

/-- The queue elements of the valid FT entries: one Leaf each (R160). -/
def seedElems (ft : List FtEntry) : List Elem := ft.map fun e => (e.count, .leaf e.sym)

/-- The final tree: a fork as it is, a bare leaf paired with the placeholder (R160). -/
def finalTree : QTree → Tree
  | .leaf x => .fork (.leaf x) .placeholder
  | .fork l r => .fork l.toTree r.toTree

/-- `buildTree(E)` (R160). -/
def buildTree (ft : List FtEntry) : Option Tree :=
  match mergeElems ft.length (seedElems ft) with
  | [] => none
  | (_, t) :: _ => some (finalTree t)

/-- The decode loop of R199 from a cursor that stands at the fork of `cl` and `cr`, in the tree whose root is the fork
of `l` and `r`. -/
def decodeFrom (l r : Tree) : Tree → Tree → List Bool → List Word
  | _, _, [] => []
  | cl, cr, b :: bs =>
    match if b then cr else cl with
    | .leaf x => x :: decodeFrom l r l r bs
    | .placeholder => decodeFrom l r l r bs
    | .fork l' r' => decodeFrom l r l' r' bs

/-- `decode(t, bits)`; the trees the block holds are forks (R199, 10_state.md R40). -/
def decodeBits : Tree → List Bool → List Word
  | .fork l r, bits => decodeFrom l r l r bits
  | .leaf _, _ => []
  | .placeholder, _ => []

/-- Whether the decode loop, from a cursor at the fork of `cl` and `cr`, reaches the placeholder (44_decoder.md R203). -/
def hitsFrom (l r : Tree) : Tree → Tree → List Bool → Bool
  | _, _, [] => false
  | cl, cr, b :: bs =>
    match if b then cr else cl with
    | .leaf _ => hitsFrom l r l r bs
    | .placeholder => true
    | .fork l' r' => hitsFrom l r l' r' bs

/-- Whether decoding a bit sequence reaches the placeholder (R203; PHIT of 10_state.md R34). -/
def decodeHits : Tree → List Bool → Bool
  | .fork l r, bits => hitsFrom l r l r bits
  | .leaf _, _ => false
  | .placeholder, _ => false

/-- The distinct symbols of a sequence, in order of first appearance (R122). -/
def firstSeen : List Word → List Word
  | [] => []
  | x :: xs => x :: (firstSeen xs).filter fun y => y ≠ x

/-- `count(x)` of R120, saturated at CNT_MAX, in order of first appearance (R122). -/
def countTable (xs : List Word) : List FtEntry :=
  (firstSeen xs).map fun x => ⟨x, BitVec.ofNat 32 (min (xs.count x) cntMax.toNat)⟩

end Sys2Proof.Machine
end

