-- ==== Sys2Proof/Safety.lean ====
section
/-! DEFINITION. What a safe run is: the invariant of the machine's reachable states, gathered from the invariants the
spec states (spec/10_state.md R35, R40, R41, R43; spec/41_pq_engine.md R141, R147; spec/42_tree_build.md R162 to R169),
and the notions the statements use. -/

namespace Sys2Proof.Safety

open Sys2Proof.Machine

/-- The children of node `i`: LEFT and RIGHT of a FORK, nothing otherwise. -/
def childrenOf (m : Memory) (i : Nat) : List Nat :=
  match nodeAt? m i with
  | none => []
  | some e => if e.kind = .fork then [e.left.toNat, e.right.toNat] else []

/-- The children of the nodes below `n`, in order. -/
def childList (m : Memory) (n : Nat) : List Nat := (List.range n).flatMap (childrenOf m)

/-- The symbol of node `i`, if it is a LEAF. -/
def leafSym (m : Memory) (i : Nat) : Option Word :=
  match nodeAt? m i with
  | none => none
  | some e => if e.kind = .leaf then some e.sym else none

/-- The symbols of the LEAF nodes below `n`. -/
def leafSyms (m : Memory) (n : Nat) : List Word := (List.range n).filterMap (leafSym m)

/-- Node `i` is a LEAF, the PLACEHOLDER or a FORK over two nodes of smaller index, every field as 10_state.md R37 and
41_pq_engine.md R149 give it. -/
def NodeOk (m : Memory) (i : Nat) : Prop :=
  nodeAt? m i = some placeholderEntry ∨ (∃ x, nodeAt? m i = some (leafEntry x)) ∨
    ∃ a b : Index, a.toNat < i ∧ b.toNat < i ∧ nodeAt? m i = some (joinEntry m a b)

/-- The nodes below `n` form one tree with root `root` (R40): every index other than the root is the child of exactly
one FORK, the root of none, the root is a FORK, and the leaves hold distinct symbols. -/
structure IsTree (m : Memory) (n : Nat) (root : Index) : Prop where
  nodes : ∀ i < n, NodeOk m i
  parents : (root.toNat :: childList m n).Perm (List.range n)
  rootFork : (nodeRead m root).kind = .fork
  leaves : (leafSyms m n).Nodup

/-- The nodes below `next` form a forest with the given roots, in the middle of a BUILD: node `e` is the leaf of FT
entry `e` (R163), every later node is a merge of two smaller ones (R164), and every node is a root or the child of
exactly one fork (R141). -/
structure IsForest (ft : List FtEntry) (m : Memory) (next : Nat) (roots : List Index) : Prop where
  enough : ft.length ≤ next
  leaves : ∀ (i : Nat) (x : FtEntry), ft[i]? = some x → nodeAt? m i = some (leafEntry x)
  forks : ∀ i, ft.length ≤ i → i < next →
    ∃ a b : Index, a.toNat < i ∧ b.toNat < i ∧ nodeAt? m i = some (joinEntry m a b)
  parents : (roots.map BitVec.toNat ++ childList m next).Perm (List.range next)

/-- The node reached from `i` by following FORK nodes along a bit sequence: left on 0, right on 1. -/
def descend (m : Memory) : Index → List Bool → Option Index
  | i, [] => some i
  | i, b :: bs =>
    match (nodeRead m i).kind with
    | .fork => descend m (if b then (nodeRead m i).right else (nodeRead m i).left) bs
    | .leaf => none
    | .placeholder => none

/-- The decoder stands at a FORK, and DEPTH is its depth in the tree (R43). -/
def CursorOk (s : State) : Prop :=
  (nodeRead s.nodes s.cursor).kind = .fork ∧
    ∃ pend, descend s.nodes s.root pend = some s.cursor ∧ s.depth.toNat = pend.length

/-- What holds of a held tree while no BUILD runs (R40, R43, R169). -/
def TreeOk (s : State) : Prop :=
  s.tv = true → IsTree s.nodes s.nnodes.toNat s.root ∧ s.nnodes.toNat ≤ s.params.nodeCap ∧ CursorOk s

/-- What holds of the node memory and PQ in each state of the engine (R41, R162). -/
def EngineOk (s : State) : Prop :=
  match s.eng with
  | .idle => s.pq = [] ∧ TreeOk s
  | .exec => s.pq = [] ∧ TreeOk s
  | .bSeed => s.seedi.toNat < s.nsyms ∧ s.nextIdx.toNat = s.nsyms ∧
      s.pq.map BitVec.toNat = List.range s.seedi.toNat ∧
      ∀ i < s.seedi.toNat, ∀ x, s.ft[i]? = some x → nodeAt? s.nodes i = some (leafEntry x)
  | .bPopA => IsForest s.ft s.nodes s.nextIdx.toNat s.pq ∧ 2 ≤ s.pq.length
  | .bPopB => IsForest s.ft s.nodes s.nextIdx.toNat (s.ia :: s.pq) ∧ 1 ≤ s.pq.length
  | .bJoin => IsForest s.ft s.nodes s.nextIdx.toNat (s.ia :: s.ib :: s.pq)
  | .bLast => IsForest s.ft s.nodes s.nextIdx.toNat s.pq ∧ s.pq.length = 1
  | .bFixup => IsForest s.ft s.nodes s.nextIdx.toNat [s.ia] ∧ s.pq = []
  | .bDone => s.pq = [] ∧
      (s.nsyms ≠ 0 → IsTree s.nodes s.nextIdx.toNat s.ia ∧ s.nextIdx.toNat ≤ s.params.nodeCap)

/-- The invariant of the machine's states. -/
structure Inv (s : State) : Prop where
  /-- The parameters are in their ranges (00_scope.md R10). -/
  params : s.params.wf
  /-- The symbols of the valid FT entries are pairwise distinct (R35). -/
  ftNodup : (s.ft.map FtEntry.sym).Nodup
  /-- FT holds at most MAX_SYMS entries (R36). -/
  ftCap : s.ft.length ≤ s.params.maxSyms
  /-- OUTQ holds at most OUTQ_DEPTH symbols (R42). -/
  outqCap : s.outq.length ≤ s.params.outqDepth
  /-- The node memory keeps its canonical form. -/
  nodesWf : Memory.wf s.nodes
  /-- Only indices below NODE_CAP were written (R37). -/
  nodesCap : ∀ e ∈ s.nodes, e.1 < s.params.nodeCap
  /-- PQ is kept ascending (log 4). -/
  pqSorted : (s.pq.map BitVec.toNat).Pairwise (· ≤ ·)
  /-- PQ holds at most PQ_CAP = MAX_SYMS elements (41_pq_engine.md R147). -/
  pqCap : s.pq.length ≤ s.params.maxSyms
  /-- With no tree, the tree registers and the decoder are at 0 (R40, R43). -/
  noTree : s.tv = false → s.root = 0 ∧ s.nnodes = 0 ∧ s.cursor = 0 ∧ s.depth = 0
  /-- The node memory and PQ agree with the engine's state. -/
  engine : EngineOk s

/-- A state from which the next step does not stop with one of the model's own faults. -/
def NoFault (s : State) : Prop := ∀ f, step s ≠ .fault f

/-- The end of a host program: its last access has been performed and BUSY = 0 (70_reset_and_hazards.md R281). -/
def ProgramEnded (s : State) : Prop := s.host = [] ∧ s.eng = .idle

/-- `k` steps of the command engine with no host access between them. -/
def engineRun : Nat → State → Result
  | 0, s => .next s
  | k + 1, s =>
    match engineStep s with
    | .next t => engineRun k t
    | .fault f => .fault f
    | .refused r => .refused r

/-- The number of engine steps from the issue of a BUILD over `n` entries to its completion (42_tree_build.md R162):
`n` seeds, `n - 1` merges of three states each, B_LAST, B_FIXUP and B_DONE (log 13). -/
def fsmSteps (n : Nat) : Nat := if n = 0 then 1 else n + 3 * (n - 1) + 3

/-- The state with the FSM's working registers forgotten: they are hidden, and every BUILD writes them before it reads
them (10_state.md R45, 93 I10). -/
def forgetWorking (s : State) : State :=
  { s with nextIdx := 0, ia := 0, ib := 0, seedi := 0, satp := false }

/-- The block's own state: the environment (host, reads, turns, draws) forgotten. -/
def blockOf (s : State) : State := { s with host := [], reads := [], turns := [], draws := 0 }

/-- Two states that differ at most in working registers the engine will write before it reads them: the registers
whose reset value is unspecified (10_state.md R46, 93 I10). -/
def SameButDead (s t : State) : Prop :=
  { t with cmdl := s.cmdl, a0l := s.a0l, a1l := s.a1l, nextIdx := s.nextIdx, ia := s.ia, ib := s.ib,
           seedi := s.seedi, satp := s.satp } = s ∧
  (s.eng = .exec → t.cmdl = s.cmdl ∧ t.a0l = s.a0l ∧ t.a1l = s.a1l) ∧
  (s.eng = .bSeed → t.nextIdx = s.nextIdx ∧ t.seedi = s.seedi ∧ t.satp = s.satp) ∧
  (s.eng = .bPopA → t.nextIdx = s.nextIdx ∧ t.satp = s.satp) ∧
  (s.eng = .bPopB → t.nextIdx = s.nextIdx ∧ t.satp = s.satp ∧ t.ia = s.ia) ∧
  (s.eng = .bJoin → t.nextIdx = s.nextIdx ∧ t.satp = s.satp ∧ t.ia = s.ia ∧ t.ib = s.ib) ∧
  (s.eng = .bLast → t.nextIdx = s.nextIdx ∧ t.satp = s.satp) ∧
  (s.eng = .bFixup → t.nextIdx = s.nextIdx ∧ t.satp = s.satp ∧ t.ia = s.ia) ∧
  (s.eng = .bDone → s.nsyms ≠ 0 → t.nextIdx = s.nextIdx ∧ t.satp = s.satp ∧ t.ia = s.ia)

/-- Two outcomes of the same kind, whose next states are related. -/
def SameOutcome (R : State → State → Prop) : Result → Result → Prop
  | .next s, .next t => R s t
  | .fault f, .fault g => f = g
  | .refused r, .refused q => r = q
  | .next _, .fault _ => False
  | .next _, .refused _ => False
  | .fault _, .next _ => False
  | .fault _, .refused _ => False
  | .refused _, .next _ => False
  | .refused _, .fault _ => False

end Sys2Proof.Safety
end

