-- ==== Sys2Proof/Certificates/Slice0/Obligations.lean ====
section
/-! DEFINITION. The statements for the provers. Each docstring names the rule of spec/ it states, or says that it is
derived. An equation `exec i s = .next { s with … }` says the result AND the frame: every field it does not name keeps
its value, and a field of memory is the same list. -/

open Sys2Proof Sys2Proof.Machine Sys2Proof.Safety

/-! ### Encoding -/

/-- Derived from the table of 30_encoding.md R92 and R94, R95, R99: the spec's own decodings of some words (95 V1). -/
def Obligations.DecodeReadsSpecWords : Prop :=
  decode 0x00000000#32 = .ok .nop ∧ decode 0x00000001#32 = .ok .clear ∧ decode 0x00000010#32 = .ok .build ∧
  decode 0x00000032#32 = .ok .pop ∧ decode 0x00030020#32 = .ok (.code 3) ∧
  decode 0xFFFF0020#32 = .ok (.code 65535) ∧ decode 0x00001430#32 = .ok (.dec 20) ∧
  decode 0x00003F30#32 = .ok (.dec 63) ∧ decode 0x00000120#32 = .error .mustBeZero ∧
  decode 0x00004030#32 = .error .mustBeZero ∧ decode 0x00000033#32 = .error .unassignedOpcode

/-- Derived from 30_encoding.md R91 to R95: every well-formed command is read back from its word, with K and N at every
value the formats admit. -/
def Obligations.DecodeOfEncodeIsTheCommand : Prop :=
  ∀ i : Instr, i.wellFormed = true → decode (encode i) = .ok i

/-- Derived from 30_encoding.md R91 to R95: a word that decodes is the word of the command it decodes to, so no bit of
a legal word is dropped and no two words are one command. -/
def Obligations.EncodeOfDecodeIsTheWord : Prop :=
  ∀ (w : Word) (i : Instr), decode w = .ok i → i.wellFormed = true ∧ encode i = w

/-- Derived from the list of 30_encoding.md R99: the illegal words are exactly the words with an unassigned opcode, the
format Z words with a bit of 31:8 set, CODE with a bit of 15:8 set and DEC with a bit of 31:14 set. -/
def Obligations.IllegalWordsAreThoseListed : Prop :=
  ∀ w : Word, (∃ e, decode w = .error e) ↔
    ((0x05 ≤ opcodeOf w ∧ opcodeOf w ≤ 0x0F) ∨ (0x12 ≤ opcodeOf w ∧ opcodeOf w ≤ 0x1F) ∨
      (0x21 ≤ opcodeOf w ∧ opcodeOf w ≤ 0x2F) ∨ 0x33 ≤ opcodeOf w) ∨
    (opcodeOf w ∈ [0x00, 0x01, 0x02, 0x03, 0x04, 0x10, 0x11, 0x31, 0x32] ∧ w.extractLsb' 8 24 ≠ 0) ∨
    (opcodeOf w = 0x20 ∧ w.extractLsb' 8 8 ≠ 0) ∨
    (opcodeOf w = 0x30 ∧ w.extractLsb' 14 18 ≠ 0)

/-- Derived from the last sentence of 30_encoding.md R92: no word selects two rows of the opcode map. -/
def Obligations.NoWordSelectsTwoRows : Prop :=
  opcodeTable.Pairwise fun a b => ∀ w : Word, ¬(a.selects w = true ∧ b.selects w = true)

/-- Derived from the byte order of 20_memory.md R64: the four byte lanes of a register, lowest address first, make up
the register. -/
def Obligations.RegisterBytesAreLittleEndian : Prop :=
  ∀ w : Word, wordOfBytes (byteOfWord w 0) (byteOfWord w 1) (byteOfWord w 2) (byteOfWord w 3) = w ∧
    ∀ k < 4, ∀ j < 8, (byteOfWord w k).getLsbD j = w.getLsbD (8 * k + j)

/-! ### Control and errors -/

/-- Derived from 45_control.md R230. -/
def Obligations.NopOnlySetsErrOk : Prop :=
  decode 0x00000000#32 = .ok .nop ∧ ∀ s : State, exec .nop s = .next { s with err := .ok, eng := .idle }

/-- Derived from 45_control.md R231. That the node memory holds nothing afterwards is the model's way to say that its
contents become unspecified (log 12). -/
def Obligations.ClearDiscardsTableTreeAndStream : Prop :=
  decode 0x00000001#32 = .ok .clear ∧ ∀ s : State, exec .clear s = .next { s with
    ft := [], tv := false, root := 0, nnodes := 0, nodes := [], cursor := 0, depth := 0, outq := []
    res0 := 0, res1 := 0, res2 := 0, res3 := 0, err := .ok, eng := .idle }

/-- 60_exceptions.md R242, as the engine's step in EXEC (70_reset_and_hazards.md R273): whatever A0L and A1L hold. -/
def Obligations.IllegalWordCompletesWithErrSeven : Prop :=
  ∀ (s : State) (e : Illegal), decode s.cmdl = .error e →
    runLatched s = .next { s with err := .illegal, eng := .idle } ∧
    (s.eng = .exec → engineStep s = .next { s with err := .illegal, eng := .idle }) ∧ ErrCode.illegal.bits = 7#4

/-- 60_exceptions.md R243: the order of a command's checks. -/
def Obligations.ErrorPrecedence : Prop :=
  (∀ (s : State) (e : Illegal), decode s.cmdl = .error e →
    runLatched s = .next { s with err := .illegal, eng := .idle } ∧
    (s.eng = .exec → engineStep s = .next { s with err := .illegal, eng := .idle })) ∧
  (∀ s : State, (∀ e ∈ s.ft, e.sym ≠ s.a0l) → s.nsyms = s.params.maxSyms →
    exec .count s = .next { s with err := .full, eng := .idle } ∧
    exec .fset s = .next { s with err := .full, eng := .idle }) ∧
  (∀ s : State, s.a0l.toNat ≥ s.nsyms → exec .fread s = .next { s with err := .range, eng := .idle }) ∧
  (∀ s : State, s.nsyms = 0 → ∃ t, exec .build s = .next t ∧ t.err = .empty) ∧
  (∀ s : State, s.tv = false → exec .nread s = .next { s with err := .notree, eng := .idle }) ∧
  (∀ s : State, s.tv = true → s.a0l.toNat ≥ s.nnodes.toNat →
    exec .nread s = .next { s with err := .range, eng := .idle }) ∧
  (∀ (s : State) (k : Nat), s.tv = false → exec (.code k) s = .next { s with err := .notree, eng := .idle }) ∧
  (∀ (s : State) (n : Nat), s.tv = false → exec (.dec n) s = .next { s with err := .notree, eng := .idle }) ∧
  (∀ (s : State) (n : Nat), s.tv = true → n = 0 ∨ n > 32 →
    exec (.dec n) s = .next { s with err := .range, eng := .idle }) ∧
  (∀ (s : State) (n : Nat), s.tv = true → 1 ≤ n → n ≤ 32 → s.outq.length + n > s.params.outqDepth →
    exec (.dec n) s = .next { s with err := .ovf, eng := .idle }) ∧
  (∀ s : State, s.outq = [] → exec .pop s = .next { s with err := .qempty, eng := .idle }) ∧
  (∀ s t : State, exec .nop s = .next t ∨ exec .clear s = .next t ∨ exec .drst s = .next t → t.err = .ok)

/-- Derived from 60_exceptions.md R240 and R246: a command that raises an error changes nothing but ERR (and BUSY),
except BUILD's EMPTY, which also discards the tree (42_tree_build.md R168). -/
def Obligations.ErrorsChangeNothingElse : Prop :=
  ∀ (i : Instr) (s t : State), exec i s = .next t → t.err ≠ .ok →
    t = { s with err := t.err, eng := .idle } ∨
    (i = .build ∧ s.ft = [] ∧ t = { s with
      tv := false, root := 0, nnodes := 0, cursor := 0, depth := 0, err := .empty, eng := .idle })

/-! ### Frequency counter -/

/-- 40_frequency.md R121. -/
def Obligations.CountCountsOneOccurrence : Prop :=
  decode 0x00000002#32 = .ok .count ∧
  (∀ (s : State) (i : Nat) (c : Word), (s.ft.map FtEntry.sym).Nodup → s.ft[i]? = some ⟨s.a0l, c⟩ →
    exec .count s = .next { s with
      ft := s.ft.set i ⟨s.a0l, satInc c⟩, sat := s.sat || c == cntMax
      res0 := BitVec.ofNat 32 i, res1 := satInc c, err := .ok, eng := .idle }) ∧
  (∀ s : State, (∀ e ∈ s.ft, e.sym ≠ s.a0l) → s.ft.length ≠ s.params.maxSyms →
    exec .count s = .next { s with
      ft := s.ft ++ [⟨s.a0l, 1⟩]
      res0 := BitVec.ofNat 32 s.ft.length, res1 := 1, err := .ok, eng := .idle }) ∧
  (∀ s : State, (∀ e ∈ s.ft, e.sym ≠ s.a0l) → s.ft.length = s.params.maxSyms →
    exec .count s = .next { s with err := .full, eng := .idle })

/-- 40_frequency.md R124. -/
def Obligations.FsetSetsTheCount : Prop :=
  decode 0x00000003#32 = .ok .fset ∧
  (∀ (s : State) (i : Nat) (c : Word), (s.ft.map FtEntry.sym).Nodup → s.ft[i]? = some ⟨s.a0l, c⟩ →
    exec .fset s = .next { s with
      ft := s.ft.set i ⟨s.a0l, s.a1l⟩
      res0 := BitVec.ofNat 32 i, res1 := s.a1l, err := .ok, eng := .idle }) ∧
  (∀ s : State, (∀ e ∈ s.ft, e.sym ≠ s.a0l) → s.ft.length ≠ s.params.maxSyms →
    exec .fset s = .next { s with
      ft := s.ft ++ [⟨s.a0l, s.a1l⟩]
      res0 := BitVec.ofNat 32 s.ft.length, res1 := s.a1l, err := .ok, eng := .idle }) ∧
  (∀ s : State, (∀ e ∈ s.ft, e.sym ≠ s.a0l) → s.ft.length = s.params.maxSyms →
    exec .fset s = .next { s with err := .full, eng := .idle })

/-- 40_frequency.md R126. -/
def Obligations.FreadReadsAnEntry : Prop :=
  decode 0x00000004#32 = .ok .fread ∧
  (∀ (s : State) (e : FtEntry), s.ft[s.a0l.toNat]? = some e →
    exec .fread s = .next { s with res0 := e.sym, res1 := e.count, err := .ok, eng := .idle }) ∧
  (∀ s : State, s.a0l.toNat ≥ s.nsyms → exec .fread s = .next { s with err := .range, eng := .idle })

/-- 40_frequency.md R122: COUNT over a sequence, from an empty table, gives the source's mapping. -/
def Obligations.CountingASequenceGivesItsTable : Prop :=
  ∀ (xs : List Word) (s : State), s.ft = [] → (firstSeen xs).length ≤ s.params.maxSyms →
    ∃ t, countAll xs s = some t ∧ t.ft = countTable xs

/-! ### Priority queue -/

/-- Derived from 41_pq_engine.md R143: on trees with disjoint leaves the key (LSD, LML) compares as the structural order. -/
def Obligations.KeyOrderIsTheStructuralOrder : Prop :=
  ∀ t u : QTree, (∀ x ∈ t.leaves, x ∉ u.leaves) →
    cmpT t u = (compare t.lsd u.lsd).then (compare t.lml.toNat u.lml.toNat)

/-- Derived from 41_pq_engine.md R146: POPMIN returns the unique smallest element and removes it. The premise, that the elements are
pairwise ordered, is what `Obligations.QueueOrderIsStrict` states of the machine's queues. -/
def Obligations.PopminRemovesTheSmallest : Prop :=
  ∀ (m : Memory) (q : List Index), q ≠ [] → q.Nodup →
    (∀ i ∈ q, ∀ j ∈ q, i ≠ j → keyBefore (nodeRead m i) (nodeRead m j) = true ∨
      keyBefore (nodeRead m j) (nodeRead m i) = true) →
    ∃ i, pqPop m q = some (i, q.erase i) ∧ i ∈ q ∧
      ∀ j ∈ q, j ≠ i → keyBefore (nodeRead m i) (nodeRead m j) = true ∧
        keyBefore (nodeRead m j) (nodeRead m i) = false

/-- Derived from 41_pq_engine.md R144: in every state of the invariant `Safety.Inv`, which holds PQ as an ascending list
(log 4), in which POPMIN pops, no two distinct elements are equal in
the order. -/
def Obligations.QueueOrderIsStrict : Prop :=
  ∀ s : State, Inv s → s.eng = .bPopA ∨ s.eng = .bPopB ∨ s.eng = .bLast →
    s.pq.Nodup ∧ ∀ i ∈ s.pq, ∀ j ∈ s.pq, i ≠ j → keyBefore (nodeRead s.nodes i) (nodeRead s.nodes j) = true ∨
      keyBefore (nodeRead s.nodes j) (nodeRead s.nodes i) = true

/-! ### Tree builder -/

/-- 42_tree_build.md R168, as the command and as the FSM's last step: EMPTY discards the tree and writes no result. -/
def Obligations.BuildOfAnEmptyTableRaisesEmpty : Prop :=
  ∀ s : State, s.ft = [] →
    exec .build s = .next { s with
      tv := false, root := 0, nnodes := 0, cursor := 0, depth := 0, err := .empty, eng := .idle } ∧
    (s.eng = .bDone → engineStep s = .next { s with
      tv := false, root := 0, nnodes := 0, cursor := 0, depth := 0, err := .empty, eng := .idle })

/-- Derived from 42_tree_build.md R167, R169 and R170: BUILD of a table with entries completes; the tree registers, the
results and the cursor as the rules give them, NODE below NNODES written and nothing above it, FT and OUTQ unchanged. -/
def Obligations.BuildCompletesWithATree : Prop :=
  ∀ s : State, s.ft ≠ [] → s.ft.length ≤ 32768 → ∃ (m : Memory) (r k : Index) (sp : Bool),
    exec .build s = .next { s with
      nodes := m, pq := [], tv := true, root := r, nnodes := k, cursor := r, depth := 0, sat := s.sat || sp
      res0 := r.setWidth 32, res1 := k.setWidth 32, res2 := BitVec.ofNat 32 s.ft.length, err := .ok, eng := .idle } ∧
    (s.ft.length = 1 → k.toNat = 3 ∧ r.toNat = 2) ∧
    (2 ≤ s.ft.length → k.toNat = 2 * s.ft.length - 1 ∧ r.toNat = 2 * s.ft.length - 2) ∧
    (∀ j, k.toNat ≤ j → nodeAt? m j = nodeAt? s.nodes j)

/-- Derived from 42_tree_build.md R160 and R161: the tree BUILD leaves at ROOT is the source's `buildTree` of the
table, under the structural order of 41_pq_engine.md R142, and SAT is set exactly when a sum of the abstract merge
exceeded CNT_MAX. -/
def Obligations.BuildComputesBuildTree : Prop :=
  ∀ s t : State, s.ft ≠ [] → s.ft.length ≤ 32768 → (s.ft.map FtEntry.sym).Nodup → exec .build s = .next t →
    treeOf t.nodes t.root = buildTree s.ft ∧ (buildTree s.ft).isSome = true ∧
    t.sat = (s.sat || mergeOverflows s.ft.length (seedElems s.ft))

/-- Derived from 42_tree_build.md R163, R164, R166, R172 and 10_state.md R40: leaf `e` is node `e`, in FT order; the
forks stand from node NSYMS upward in the order they are made, node `NSYMS + j` the fork of the two elements of the
`j`-th pair that the abstract merge pops; a single symbol has the placeholder at node 1 and its fork at node 2; and the
nodes below NNODES are one tree with root ROOT, every field as 10_state.md R37 gives it. -/
def Obligations.BuildLeavesAWellFormedTree : Prop :=
  ∀ s t : State, s.ft ≠ [] → s.ft.length ≤ 32768 → (s.ft.map FtEntry.sym).Nodup → exec .build s = .next t →
    IsTree t.nodes t.nnodes.toNat t.root ∧
    (∀ (e : Nat) (x : FtEntry), s.ft[e]? = some x → nodeAt? t.nodes e = some (leafEntry x)) ∧
    (mergePairs s.ft.length (seedElems s.ft)).length = s.ft.length - 1 ∧
    (∀ (j : Nat) (x y : Elem), (mergePairs s.ft.length (seedElems s.ft))[j]? = some (x, y) → ∃ a b : Index,
      nodeAt? t.nodes (s.ft.length + j) = some (joinEntry t.nodes a b) ∧
      treeOf t.nodes a = some x.2.toTree ∧ (nodeRead t.nodes a).freq = x.1 ∧
      treeOf t.nodes b = some y.2.toTree ∧ (nodeRead t.nodes b).freq = y.1) ∧
    (s.ft.length = 1 → nodeAt? t.nodes 1 = some placeholderEntry ∧
      nodeAt? t.nodes 2 = some (fixupEntry t.nodes 0 1))

/-- Derived from 42_tree_build.md R161, R162 and R170: the FSM, run from the issue of BUILD with no host access between
its steps, is busy for `fsmSteps` steps (the count of R162's own list, log 13) and then leaves the state the atomic BUILD leaves, but for its own hidden
working registers. -/
def Obligations.FsmComputesTheAtomicBuild : Prop :=
  ∀ s : State, s.ft.length ≤ 32768 → s.pq = [] → ∃ t u,
    exec .build s = .next t ∧ engineRun (fsmSteps s.ft.length) (buildIssue s) = .next u ∧
    forgetWorking u = forgetWorking t ∧
    ∀ j < fsmSteps s.ft.length, ∃ v, engineRun j (buildIssue s) = .next v ∧ v.busy = true

/-- Derived from 42_tree_build.md R161, 20_memory.md R71 and 70_reset_and_hazards.md R273: before B_DONE, a step of the
FSM changes only NODE, PQ, ENG and the FSM's working registers; nothing the host can read but BUSY. -/
def Obligations.FsmStepsAreHiddenUntilDone : Prop :=
  ∀ s t : State, s.eng ≠ .idle → s.eng ≠ .exec → s.eng ≠ .bDone → engineStep s = .next t →
    t.busy = true ∧ t = { s with
      nodes := t.nodes, pq := t.pq, eng := t.eng, nextIdx := t.nextIdx, ia := t.ia, ib := t.ib, seedi := t.seedi
      satp := t.satp }

/-- Derived from 42_tree_build.md R171 (1 and 2) and R160: the tree of a table with entries is a fork whose leaves hold
exactly the table's symbols. -/
def Obligations.BuildTreeHoldsExactlyTheSymbols : Prop :=
  ∀ ft : List FtEntry, ft ≠ [] → ∃ l r, buildTree ft = some (.fork l r) ∧
    (Tree.fork l r).leaves.Perm (ft.map FtEntry.sym)

/-- Derived from 42_tree_build.md R171 (4): the tree depends only on the set of (symbol, count) pairs, not on the
order of the table. -/
def Obligations.BuildTreeIgnoresTableOrder : Prop :=
  ∀ ft ft' : List FtEntry, (ft.map FtEntry.sym).Nodup → ft.Perm ft' → buildTree ft = buildTree ft'

/-- Derived from 42_tree_build.md R175. -/
def Obligations.NreadReadsANode : Prop :=
  decode 0x00000011#32 = .ok .nread ∧
  (∀ s : State, s.tv = true → s.a0l.toNat < s.nnodes.toNat → ∃ e, e = nodeRead s.nodes (s.a0l.setWidth 16) ∧
    exec .nread s = .next { s with
      res0 := (match e.kind with | .leaf => 0#32 | .fork => 1#32 | .placeholder => 2#32), res1 := e.sym
      res2 := (e.right.setWidth 32 <<< 16) ||| e.left.setWidth 32, res3 := e.freq, err := .ok, eng := .idle }) ∧
  (∀ s : State, s.tv = false → exec .nread s = .next { s with err := .notree, eng := .idle }) ∧
  (∀ s : State, s.tv = true → s.a0l.toNat ≥ s.nnodes.toNat →
    exec .nread s = .next { s with err := .range, eng := .idle })

/-! ### Code lookup -/

/-- 43_code_lookup.md R190, with the packing of 30_encoding.md R98. -/
def Obligations.CodeReturnsAChunkOfTheCode : Prop :=
  (∀ k : Word, k.toNat < 65536 → decode ((k <<< 16) ||| 0x20#32) = .ok (.code k.toNat)) ∧
  (∀ (s : State) (k : Nat) (t : Tree), s.tv = true → treeOf s.nodes s.root = some t → ∃ chunk : Word,
    exec (.code k) s = .next { s with
      res0 := BitVec.ofNat 32 (codeFor t s.a0l).length, res1 := chunk
      res2 := (if (path t s.a0l).isSome then 1#32 else 0#32), err := .ok, eng := .idle } ∧
    ∀ i < 32, chunk.getLsbD i = ((codeFor t s.a0l)[32 * k + i]?).getD false) ∧
  (∀ (s : State) (k : Nat), s.tv = false → exec (.code k) s = .next { s with err := .notree, eng := .idle })

/-- Derived from 10_state.md R39 and R40: in a state of the invariant that holds a tree and runs no BUILD, the tree at
ROOT is defined, so CODE completes. -/
def Obligations.CodeCompletesWhenATreeIsHeld : Prop :=
  ∀ (s : State) (k : Nat), Inv s → s.eng = .exec → ∃ t, exec (.code k) s = .next t ∧
    (s.tv = true → t.err = .ok)

/-- Derived from 43_code_lookup.md R189 and R191: a path is found exactly for the symbols of the tree's leaves. -/
def Obligations.PathExistsExactlyForLeafSymbols : Prop :=
  ∀ (t : Tree) (x : Word), (path t x).isSome = true ↔ x ∈ t.leaves

/-- Derived from 43_code_lookup.md R193 (2) and 42_tree_build.md R171 (3): no symbol's code is a prefix of another's. -/
def Obligations.CodesArePrefixFree : Prop :=
  ∀ (t : Tree) (x y : Word) (p q : List Bool), x ≠ y → path t x = some p → path t y = some q → ¬ p <+: q

/-- Derived from 43_code_lookup.md R193 (1) and 42_tree_build.md R169: every symbol of a built tree has a code of at
least one bit and at most `n - 1`, or 1 for a single symbol, `n` the number of table entries. -/
def Obligations.CodeLengthsAreBounded : Prop :=
  ∀ (ft : List FtEntry) (t : Tree) (x : Word), buildTree ft = some t → x ∈ ft.map FtEntry.sym →
    ∃ p, path t x = some p ∧ 1 ≤ p.length ∧ p.length ≤ max 1 (ft.length - 1)

/-! ### Decoder -/

/-- Derived from 44_decoder.md R199 to R203 and R208: a DEC that passes its checks completes, and emits what the source's
decode function emits from the pending code and the new bits; PHIT is set exactly when decoding them reaches the
placeholder (R203, 10_state.md R34), and never cleared; the frame. -/
def Obligations.DecEmitsWhatDecodeEmits : Prop :=
  ∀ (s : State) (n : Nat) (t : Tree) (pend : List Bool),
    s.tv = true → IsTree s.nodes s.nnodes.toNat s.root → treeOf s.nodes s.root = some t →
    (nodeRead s.nodes s.cursor).kind = .fork → descend s.nodes s.root pend = some s.cursor →
    s.depth.toNat = pend.length → 1 ≤ n → n ≤ 32 → s.outq.length + n ≤ s.params.outqDepth →
    ∃ (c d : Index) (pend' : List Bool) (out : List Word),
      out = decodeBits t (pend ++ s.bitOperand n) ∧
      exec (.dec n) s = .next { s with
        cursor := c, depth := d, phit := s.phit || decodeHits t (pend ++ s.bitOperand n), outq := s.outq ++ out
        res0 := BitVec.ofNat 32 out.length, res1 := out.getLast?.getD 0, err := .ok, eng := .idle } ∧
      (nodeRead s.nodes c).kind = .fork ∧ descend s.nodes s.root pend' = some c ∧ d.toNat = pend'.length ∧
      ∀ more, decodeBits t (pend ++ s.bitOperand n ++ more) = out ++ decodeBits t (pend' ++ more)

/-- Derived from 44_decoder.md R202 and R203: one decoder step. -/
def Obligations.OneDecoderStep : Prop :=
  ∀ (m : Memory) (root : Index) (bit : Bool) (w : Walk) (c : Index),
    c = (if bit then (nodeRead m w.cursor).right else (nodeRead m w.cursor).left) →
    ((nodeRead m c).kind = .leaf → walkBit m root bit w =
      ({ cursor := root, depth := 0, phit := w.phit }, some (nodeRead m c).sym)) ∧
    ((nodeRead m c).kind = .placeholder → walkBit m root bit w =
      ({ cursor := root, depth := 0, phit := true }, none)) ∧
    ((nodeRead m c).kind = .fork → walkBit m root bit w =
      ({ cursor := c, depth := w.depth + 1, phit := w.phit }, none))

/-- Derived from 44_decoder.md R205 and R206: decoding the concatenated codes gives the symbols back, those without a
leaf left out. -/
def Obligations.DecodeOfEncodeIsTheText : Prop :=
  ∀ (l r : Tree) (xs : List Word),
    decodeBits (.fork l r) (xs.flatMap (codeFor (.fork l r))) =
      xs.filter fun x => (path (.fork l r) x).isSome

/-- 44_decoder.md R210. -/
def Obligations.DrstDropsThePendingBits : Prop :=
  decode 0x00000031#32 = .ok .drst ∧
  (∀ s : State, exec .drst s = .next { s with
    res0 := s.depth.setWidth 32, cursor := s.root, depth := 0, err := .ok, eng := .idle }) ∧
  (∀ s : State, Inv s → s.tv = false → exec .drst s = .next { s with
    res0 := 0, cursor := 0, depth := 0, err := .ok, eng := .idle })

/-- 44_decoder.md R213. -/
def Obligations.PopTakesTheOldestSymbol : Prop :=
  decode 0x00000032#32 = .ok .pop ∧
  (∀ (s : State) (x : Word) (q : List Word), s.outq = x :: q →
    exec .pop s = .next { s with res0 := x, outq := q, err := .ok, eng := .idle }) ∧
  (∀ s : State, s.outq = [] → exec .pop s = .next { s with err := .qempty, eng := .idle })

/-! ### The whole block -/

/-- Derived from 40_frequency.md R123, 43_code_lookup.md R192, 44_decoder.md R205 and R211: on the machine, from any
idle state of the invariant, host_build of a non-empty text whose distinct symbols fit, then host_encode of it, then
host_decode of the bits cut into any chunks of 1 to 32 bits, gives the text back, and the last DRST drops no bit
(RES0 = 0). Each command is its completion step, BUILD in its atomic form (log 8). -/
def Obligations.RoundTripOnTheMachine : Prop :=
  ∀ (s : State) (xs : List Word), Inv s → s.eng = .idle → xs ≠ [] →
    (firstSeen xs).length ≤ s.params.maxSyms → ∃ s1 bits s2,
      buildText xs s = some s1 ∧ s1.err = .ok ∧ hostEncode xs s1 = some (bits, s2) ∧
      ∀ chunks : List (List Bool), chunks.flatten = bits → (∀ w ∈ chunks, 1 ≤ w.length ∧ w.length ≤ 32) →
        ∃ s3, hostDecode chunks s2 = some (xs, s3) ∧ s3.res0 = 0

/-- Derived from 60_exceptions.md R240 and 70_reset_and_hazards.md R273: every command but CODE completes in every
state, and every command that completes leaves the engine idle. -/
def Obligations.CommandsComplete : Prop :=
  (∀ (i : Instr) (s : State), (∀ k, i ≠ .code k) → ∃ t, exec i s = .next t) ∧
  (∀ (i : Instr) (s t : State), exec i s = .next t → t.eng = .idle)

/-- Derived from 10_state.md R27, R34 and 45_control.md R231: no command writes ARG0, ARG1 or DROP, none clears PHIT or
SAT, none touches the latches, the parameters or the environment. That BUILD leaves NEXT, IA, IB, SEEDI and SATP alone is
said of `exec .build`, the atomic form of 42_tree_build.md R170, which R161 lets a model use (log 8): the FSM that an
issue starts writes them (R162 to R166). -/
def Obligations.CommandsKeepArgumentsAndStickyFlags : Prop :=
  ∀ (i : Instr) (s t : State), exec i s = .next t →
    t.arg0 = s.arg0 ∧ t.arg1 = s.arg1 ∧ t.drop = s.drop ∧ (s.phit = true → t.phit = true) ∧
    (s.sat = true → t.sat = true) ∧ (t.phit ≠ s.phit → ∃ n, i = .dec n) ∧
    (t.sat ≠ s.sat → i = .count ∨ i = .build) ∧ t.cmdl = s.cmdl ∧ t.a0l = s.a0l ∧ t.a1l = s.a1l ∧
    t.nextIdx = s.nextIdx ∧ t.ia = s.ia ∧ t.ib = s.ib ∧ t.seedi = s.seedi ∧ t.satp = s.satp ∧
    t.params = s.params ∧ t.host = s.host ∧ t.reads = s.reads ∧ t.turns = s.turns ∧ t.draws = s.draws

/-- Derived from 10_state.md R40, R42, R43, 40_frequency.md R127, for `exec`, BUILD in its atomic form (log 8): which commands may change the tree, the table, OUTQ and
the decoder's cursor. -/
def Obligations.CommandsChangeOnlyTheirStores : Prop :=
  ∀ (i : Instr) (s t : State), exec i s = .next t →
    (i ≠ .build → i ≠ .clear → t.tv = s.tv ∧ t.root = s.root ∧ t.nnodes = s.nnodes ∧ t.nodes = s.nodes) ∧
    (i ≠ .build → t.pq = s.pq) ∧
    (i ≠ .count → i ≠ .fset → i ≠ .clear → t.ft = s.ft) ∧
    ((∀ n, i ≠ .dec n) → i ≠ .pop → i ≠ .clear → t.outq = s.outq) ∧
    ((∀ n, i ≠ .dec n) → i ≠ .drst → i ≠ .clear → i ≠ .build → t.cursor = s.cursor ∧ t.depth = s.depth)

/-! ### Issue, completion and the host's accesses -/

/-- Derived from 70_reset_and_hazards.md R273 and 60_exceptions.md R242: when the engine acts and the latched word
decodes to `i`, the step is the completion step of `i`; when it does not decode, the step completes with ERR = ILLEGAL
and no other change. What `step` adds is only the turn it uses up; who acts is the model's choice (log 6). -/
def Obligations.StepRunsTheLatchedCommand : Prop :=
  (∀ (s : State) (i : Instr), s.eng = .exec → decode s.cmdl = .ok i →
    (s.turns = [] → step s = exec i s) ∧
    (∀ ts, s.turns = .engine :: ts → step s = exec i { s with turns := ts })) ∧
  (∀ (s : State) (e : Illegal), s.eng = .exec → decode s.cmdl = .error e →
    (s.turns = [] → step s = .next { s with err := .illegal, eng := .idle }) ∧
    (∀ ts, s.turns = .engine :: ts → step s = .next { s with err := .illegal, eng := .idle, turns := ts }))

/-- Derived from 70_reset_and_hazards.md R271 and R273: the state `withFetchWord` makes is the one an issue to EXEC
leaves, and its next step is the completion step of the word's command. That a word is placed so is the model's choice
(log 7). -/
def Obligations.PlacedWordIsTheNextCommand : Prop :=
  ∀ (s : State) (w : Nat) (i : Instr), decodeTableWord 32 w = some i →
    step (s.withFetchWord 32 w) =
      exec i { s with cmdl := BitVec.ofNat 32 w, a0l := s.arg0, a1l := s.arg1, eng := .exec }

/-- 70_reset_and_hazards.md R271. -/
def Obligations.CmdWriteWhileIdleIssues : Prop :=
  ∀ (s : State) (v : Word), s.eng = .idle →
    (decode v = .ok .build → hostWrite .cmd v s = { s with
      cmdl := v, a0l := s.arg0, a1l := s.arg1, pq := [], seedi := 0, nextIdx := BitVec.ofNat 16 s.nsyms
      satp := false, eng := if s.nsyms = 0 then .bDone else .bSeed }) ∧
    (decode v ≠ .ok .build → hostWrite .cmd v s = { s with
      cmdl := v, a0l := s.arg0, a1l := s.arg1, eng := .exec })

/-- 70_reset_and_hazards.md R274. -/
def Obligations.CmdWriteWhileBusyIsDropped : Prop :=
  ∀ (s : State) (v : Word), s.eng ≠ .idle → hostWrite .cmd v s = { s with drop := true }

/-- 70_reset_and_hazards.md R272, whatever value the read of a busy STATUS draws. -/
def Obligations.BusyReadsOneExactlyWhileExecuting : Prop :=
  ∀ s : State, (s.readReg .status).getLsbD 0 = true ↔ s.eng ≠ .idle

/-- Derived from 10_state.md R26: the write-one-to-clear bits, idle or busy. -/
def Obligations.StatusWriteClearsSelectedFlags : Prop :=
  ∀ (s : State) (v : Word), hostWrite .status v s = { s with
    drop := if v.getLsbD 16 then false else s.drop
    phit := if v.getLsbD 17 then false else s.phit
    sat := if v.getLsbD 18 then false else s.sat }

/-- 20_memory.md R63: the effect of a write, by register. -/
def Obligations.WritesHaveTheListedEffect : Prop :=
  ∀ (s : State) (v : Word),
    (s.eng = .idle → hostWrite .cmd v s = issue v s) ∧
    (s.eng ≠ .idle → hostWrite .cmd v s = { s with drop := true }) ∧
    hostWrite .status v s = s.clearFlags v ∧
    hostWrite .arg0 v s = { s with arg0 := v } ∧ hostWrite .arg1 v s = { s with arg1 := v } ∧
    ∀ r : Reg, r ≠ .cmd → r ≠ .status → r ≠ .arg0 → r ≠ .arg1 → hostWrite r v s = s

/-- Derived from 20_memory.md R62, R67 and 60_exceptions.md R255: a host read changes nothing in the block, and neither
does a step in which nobody has anything to do (the model's choice, log 6 and 21). -/
def Obligations.ReadsAndIdleStepsChangeNothing : Prop :=
  (∀ (s t : State) (a : Access) (ops : List HostOp), s.host = .rd a :: ops → hostStep s = .next t →
    blockOf t = blockOf s ∧ t.host = ops ∧ ∃ r, resolve s.params a = .ok r ∧ t.reads = s.readReg r :: s.reads) ∧
  (∀ s : State, s.turns = [] → s.host = [] → s.eng = .idle → step s = .next s)

/-- Derived from 10_state.md R21 to R33 and R25: what the registers read while idle, field by field. -/
def Obligations.IdleReadsAreTheRegisters : Prop :=
  ∀ s : State, s.params.wf → s.eng = .idle →
    s.readReg .id = 0x48554601#32 ∧ s.readReg .cmd = 0 ∧
    (s.readReg .cfg).extractLsb' 24 8 = 0x01#8 ∧ ((s.readReg .cfg).extractLsb' 16 8).toNat = s.params.outqDepth ∧
    ((s.readReg .cfg).extractLsb' 0 16).toNat = s.params.maxSyms ∧
    (s.readReg .status).getLsbD 0 = false ∧ (s.readReg .status).getLsbD 1 = s.tv ∧
    ((s.readReg .status).getLsbD 2 = true ↔ s.depth ≠ 0) ∧ (s.readReg .status).getLsbD 3 = false ∧
    (s.readReg .status).extractLsb' 4 4 = s.err.bits ∧
    (s.readReg .status).extractLsb' 8 8 = BitVec.ofNat 8 s.outq.length ∧
    (s.readReg .status).getLsbD 16 = s.drop ∧ (s.readReg .status).getLsbD 17 = s.phit ∧
    (s.readReg .status).getLsbD 18 = s.sat ∧ (s.readReg .status).extractLsb' 19 13 = 0 ∧
    s.readReg .arg0 = s.arg0 ∧ s.readReg .arg1 = s.arg1 ∧ s.readReg .res0 = s.res0 ∧ s.readReg .res1 = s.res1 ∧
    s.readReg .res2 = s.res2 ∧ s.readReg .res3 = s.res3 ∧
    (s.readReg .nsyms).extractLsb' 0 16 = BitVec.ofNat 16 s.ft.length ∧ (s.readReg .nsyms).extractLsb' 16 16 = 0 ∧
    (s.readReg .tree).extractLsb' 0 16 = s.root ∧ (s.readReg .tree).extractLsb' 16 16 = s.nnodes ∧
    (s.readReg .decst).extractLsb' 0 16 = s.cursor ∧ (s.readReg .decst).extractLsb' 16 16 = s.depth ∧
    s.readReg .rsv34 = 0 ∧ s.readReg .rsv38 = 0 ∧ s.readReg .rsv3c = 0

/-- Derived from 70_reset_and_hazards.md R276: what reads as stated while a command executes. The fields R276 calls
unspecified come from a free value and are not named. -/
def Obligations.BusyReadsKeepTheStatedFields : Prop :=
  ∀ s : State, s.eng ≠ .idle →
    (s.readReg .status).getLsbD 0 = true ∧ (s.readReg .status).getLsbD 16 = s.drop ∧
    (s.readReg .status).getLsbD 3 = false ∧ (s.readReg .status).extractLsb' 19 13 = 0 ∧
    s.readReg .id = 0x48554601#32 ∧ s.readReg .cfg = cfgWord s.params ∧
    s.readReg .arg0 = s.arg0 ∧ s.readReg .arg1 = s.arg1 ∧ s.readReg .cmd = 0 ∧
    s.readReg .rsv34 = 0 ∧ s.readReg .rsv38 = 0 ∧ s.readReg .rsv3c = 0

/-- Derived from 20_memory.md R60, R62, R63 and R65, and 93 I7 and I8: a host access has a step exactly when it is 32
bits wide at a multiple of 4 in the block; then a read hands the host the register's value and a write has the
register's effect. That a refused access outside the block is named `outsideBlock`, narrow and misaligned ones included,
and every other `undefinedAccess`, is the model's DESIGN CHOICE (log 11). -/
def Obligations.OnlyAlignedWordAccessesHaveAStep : Prop :=
  ∀ (p : Params) (a : Access),
    (∀ r, resolve p a = .ok r ↔ a.width = .word ∧ a.addr = p.base + r.offset) ∧
    (a.addr < p.base ∨ p.base + 0x40 ≤ a.addr → resolve p a = .error .outsideBlock) ∧
    (p.base ≤ a.addr → a.addr < p.base + 0x40 → a.width ≠ .word ∨ (a.addr - p.base) % 4 ≠ 0 →
      resolve p a = .error .undefinedAccess) ∧
    (∀ (s : State) (ops : List HostOp) (v : Word) (r : Reg), resolve s.params a = .ok r →
      (s.host = .rd a :: ops → hostStep s = .next { s with
        host := ops, reads := s.readReg r :: s.reads, draws := if s.eng = .idle then s.draws else s.draws + 1 }) ∧
      (s.host = .wr a v :: ops → hostStep s = .next { hostWrite r v s with host := ops })) ∧
    (∀ (s : State) (ops : List HostOp) (v : Word) (e : Refusal), resolve s.params a = .error e →
      (s.host = .rd a :: ops → hostStep s = .refused e) ∧ (s.host = .wr a v :: ops → hostStep s = .refused e))

/-- Derived from 10_state.md R27 and 20_memory.md R74: a write to ARG0 or ARG1 while a command executes does not change
the executing command. -/
def Obligations.ArgumentWritesDoNotReachARunningCommand : Prop :=
  ∀ (s t : State) (x y : Word), engineStep s = .next t →
    engineStep { s with arg0 := x, arg1 := y } = .next { t with arg0 := x, arg1 := y }

/-- Derived from 30_encoding.md R101, R102, 42_tree_build.md R162 and 70_reset_and_hazards.md R278: from an idle block, a
script's CMD write and POLL run the command and nothing else, and the host then has STATUS as the command left it: in
three steps for a command other than BUILD, and for BUILD in two more than the FSM's own, to the state of the atomic
form but for the hidden working registers. A POLL's read while BUSY = 1 leaves the POLL in place; while BUSY = 0 it ends
it. That with no turn listed the busy engine goes before the host, so that POLL reads once, is the model's choice
(log 6), as is POLL as one entry whose reads are kept (log 22) and the number of the FSM's steps (log 13). -/
def Obligations.WriteAndPollRunTheCommand : Prop :=
  (∀ (s t : State) (i : Instr) (ops : List HostOp), i.wellFormed = true → i ≠ .build → s.eng = .idle → s.turns = [] →
    s.host = wrOp s.params .cmd (encode i) :: .poll :: ops → command i s = .next t →
    Host.Core.run Sys2Proof.core 3 s = .next { t with host := ops, reads := t.status :: t.reads }) ∧
  (∀ (s : State) (ops : List HostOp), s.eng = .idle → s.turns = [] → s.pq = [] → s.ft.length ≤ 32768 →
    s.host = wrOp s.params .cmd (encode .build) :: .poll :: ops → ∃ t u : State, command .build s = .next t ∧
      Host.Core.run Sys2Proof.core (fsmSteps s.ft.length + 2) s = .next u ∧
      forgetWorking u = forgetWorking { t with host := ops, reads := t.status :: t.reads }) ∧
  (∀ (s : State) (ops : List HostOp), s.host = .poll :: ops →
    (s.eng ≠ .idle → hostStep s = .next { s with reads := s.readReg .status :: s.reads, draws := s.draws + 1 }) ∧
    (s.eng = .idle → hostStep s = .next { s with host := ops, reads := s.status :: s.reads }) ∧
    (∀ ts, s.turns = .host :: ts → step s = hostStep { s with turns := ts }))

/-! ### Reset and the invariant -/

/-- Derived from 70_reset_and_hazards.md R270 and 10_state.md R46: the reset input, at any time and whatever runs, gives
the block the reset state; STATUS, NSYMS, TREE and DECST read 0. That CMDL, A0L, A1L, NEXT, IA, IB, SEEDI and SATP are
then 0 is the model's DESIGN CHOICE for values R46 leaves unspecified (log 2, unsafe); that the parameters and the
host's accesses stay is its choice too (log 14). -/
def Obligations.ResetInputGivesTheResetState : Prop :=
  ∀ (s : State) (ts : List Turn), s.turns = .reset :: ts → ∃ t, step s = .next t ∧
    blockOf t = State.resetWith s.params ∧ t.eng = .idle ∧ t.host = s.host ∧
    t.readReg .status = 0 ∧ t.readReg .nsyms = 0 ∧ t.readReg .tree = 0 ∧ t.readReg .decst = 0 ∧
    t.readReg .arg0 = 0 ∧ t.readReg .arg1 = 0 ∧ t.readReg .res0 = 0 ∧ t.readReg .res1 = 0 ∧ t.readReg .res2 = 0 ∧
    t.readReg .res3 = 0

/-- Derived from 10_state.md R46: the reset state satisfies the invariant, with any legal parameters and with the
defaults. -/
def Obligations.ResetSatisfiesTheInvariant : Prop :=
  (∀ p : Params, p.wf → Inv (State.resetWith p)) ∧ Inv State.reset

/-- Derived from 10_state.md R35, R36, R40 to R43, 41_pq_engine.md R141 and R147, 42_tree_build.md R162 to R169: every
step keeps the invariant, whoever acts and whatever the host does. Of its clauses, that PQ is an ascending list and NODE
a canonical one are the model's own form (log 4, 18). -/
def Obligations.EveryStepKeepsTheInvariant : Prop :=
  ∀ s t : State, Inv s → step s = .next t → Inv t

/-- Derived from 42_tree_build.md R162 ("POPMIN is never applied to an empty PQ") and 10_state.md R40: in a state of the
invariant no step stops with one of the model's own faults (log 10). -/
def Obligations.NoStepFaultsUnderTheInvariant : Prop :=
  ∀ s : State, Inv s → NoFault s

/-- Derived from 70_reset_and_hazards.md R277 and 42_tree_build.md R162: from a busy state of the invariant the engine
completes the command within `4 n + 1` of its own steps, `n` the number of table entries. -/
def Obligations.EveryCommandCompletes : Prop :=
  ∀ s : State, Inv s → s.eng ≠ .idle → ∃ k ≤ 4 * s.nsyms + 1, ∃ t, engineRun k s = .next t ∧ t.eng = .idle

/-- Derived from 10_state.md R46 and 93 I10: the registers whose reset value is unspecified are never observed: two
states that differ only in such registers take the same step, to states that again differ only in them. So no claim
about the block can rest on the reset values the model chose for them (log 2). -/
def Obligations.UnspecifiedRegistersAreNeverObserved : Prop :=
  ∀ s t : State, SameButDead s t → SameOutcome SameButDead (step s) (step t)
end

