-- ==== Sys2Proof/Laws/Memory.lean ====
section
/-! SUPPORT. The laws of the node memory: read after write, and the canonical form. -/

namespace Sys2Proof.Machine

/-- A write leaves at its index what it wrote. -/
@[simp] theorem nodeAt_insert_self (m : Memory) (i : Nat) (e : NodeEntry) : nodeAt? (nodeInsert m i e) i = some e := by
  induction m with
  | nil => simp [nodeInsert, nodeAt?]
  | cons p m ih =>
    obtain ⟨k, x⟩ := p
    simp only [nodeInsert]
    split
    · simp [nodeAt?]
    · split
      · simp [nodeAt?]
      · simp only [nodeAt?]
        rw [if_neg (by omega)]
        exact ih

/-- A write leaves every other index alone. -/
theorem nodeAt_insert_ne (m : Memory) {i j : Nat} (e : NodeEntry) (h : j ≠ i) :
    nodeAt? (nodeInsert m i e) j = nodeAt? m j := by
  induction m with
  | nil => simp [nodeInsert, nodeAt?, Ne.symm h]
  | cons p m ih =>
    obtain ⟨k, x⟩ := p
    simp only [nodeInsert]
    split
    · simp [nodeAt?, Ne.symm h]
    · split
      · rename_i h1 h2
        subst h2
        simp [nodeAt?, Ne.symm h]
      · simp only [nodeAt?, ih]

@[simp] theorem nodeAt_write_self (m : Memory) (i : Index) (e : NodeEntry) :
    nodeAt? (nodeWrite m i e) i.toNat = some e := nodeAt_insert_self ..

theorem nodeAt_write_ne (m : Memory) {i : Index} {j : Nat} (e : NodeEntry) (h : j ≠ i.toNat) :
    nodeAt? (nodeWrite m i e) j = nodeAt? m j := nodeAt_insert_ne m e h

/-- A node that is held is what a read returns. -/
theorem nodeRead_of_nodeAt {m : Memory} {i : Index} {e : NodeEntry} (h : nodeAt? m i.toNat = some e) :
    nodeRead m i = e := by simp [nodeRead, h]

@[simp] theorem nodeRead_write_self (m : Memory) (i : Index) (e : NodeEntry) : nodeRead (nodeWrite m i e) i = e := by
  simp [nodeRead]

theorem nodeRead_write_ne (m : Memory) {i j : Index} (e : NodeEntry) (h : j ≠ i) :
    nodeRead (nodeWrite m i e) j = nodeRead m j := by
  simp [nodeRead, nodeAt_write_ne m e (fun hh => h (BitVec.eq_of_toNat_eq hh))]

/-- The keys after a write. -/
theorem mem_nodeInsert {m : Memory} {i : Nat} {e : NodeEntry} {p : Nat × NodeEntry} (h : p ∈ nodeInsert m i e) :
    p = (i, e) ∨ p ∈ m := by
  induction m with
  | nil => simpa [nodeInsert] using h
  | cons q m ih =>
    obtain ⟨k, x⟩ := q
    simp only [nodeInsert] at h
    split at h
    · simpa using h
    · split at h
      · simp only [List.mem_cons] at h ⊢
        tauto
      · simp only [List.mem_cons] at h ⊢
        rcases h with h | h
        · exact .inr (.inl h)
        · rcases ih h with h | h
          · exact .inl h
          · exact .inr (.inr h)

/-- A write keeps the canonical form. -/
theorem nodeInsert_wf {m : Memory} (i : Nat) (e : NodeEntry) (h : Memory.wf m) : Memory.wf (nodeInsert m i e) := by
  induction m with
  | nil => simp [nodeInsert, Memory.wf]
  | cons p m ih =>
    obtain ⟨k, x⟩ := p
    simp only [Memory.wf, List.map_cons, List.pairwise_cons, List.mem_map, forall_exists_index, and_imp] at h
    simp only [nodeInsert]
    split
    · rename_i hik
      simp only [Memory.wf, List.map_cons, List.pairwise_cons, List.mem_cons, List.mem_map, forall_eq_or_imp,
        forall_exists_index, and_imp]
      refine ⟨⟨hik, fun a q hq hqa => ?_⟩, fun a q hq hqa => h.1 a q hq hqa, h.2⟩
      exact lt_trans hik (h.1 a q hq hqa)
    · split
      · rename_i hik
        subst hik
        simp only [Memory.wf, List.map_cons, List.pairwise_cons, List.mem_map, forall_exists_index, and_imp]
        exact ⟨h.1, h.2⟩
      · simp only [Memory.wf, List.map_cons, List.pairwise_cons, List.mem_map, forall_exists_index, and_imp]
        refine ⟨fun a q hq hqa => ?_, ih h.2⟩
        rcases mem_nodeInsert hq with rfl | hq
        · simp only at hqa
          omega
        · exact h.1 a q hq hqa

/-- Every write of the machine keeps the canonical form. -/
theorem nodeWrite_wf {m : Memory} (i : Index) (e : NodeEntry) (h : Memory.wf m) : Memory.wf (nodeWrite m i e) :=
  nodeInsert_wf _ _ h

/-- The node memory after reset, and after CLEAR, has the canonical form. -/
theorem memory_empty_wf : Memory.wf [] := by simp [Memory.wf]

theorem reset_nodes_wf (p : Params) : Memory.wf (State.resetWith p).nodes := memory_empty_wf

end Sys2Proof.Machine
end

