-- ==== Sys2Proof/Laws/Queue.lean ====
section
/-! SUPPORT. The laws of the priority queue: what PUSH and POPMIN do to the multiset, and that the queue stays
ascending. -/

namespace Sys2Proof.Machine

/-- PUSH adds its element to the multiset (spec/41_pq_engine.md R145). -/
theorem pqPush_perm (q : List Index) (i : Index) : (pqPush q i).Perm (i :: q) := by
  induction q with
  | nil => exact List.Perm.refl _
  | cons j q ih =>
    simp only [pqPush]
    split
    · exact List.Perm.refl _
    · exact (ih.cons j).trans (List.Perm.swap i j q)

@[simp] theorem pqPush_length (q : List Index) (i : Index) : (pqPush q i).length = q.length + 1 := by
  simpa using (pqPush_perm q i).length_eq

/-- PUSH keeps the queue ascending. -/
theorem pqPush_sorted {q : List Index} (i : Index) (h : (q.map BitVec.toNat).Pairwise (· ≤ ·)) :
    ((pqPush q i).map BitVec.toNat).Pairwise (· ≤ ·) := by
  induction q with
  | nil => simp [pqPush]
  | cons j q ih =>
    simp only [List.map_cons, List.pairwise_cons, List.mem_map, forall_exists_index, and_imp] at h
    simp only [pqPush]
    split
    · rename_i hij
      simp only [List.map_cons, List.pairwise_cons, List.mem_cons, List.mem_map, forall_eq_or_imp, forall_exists_index,
        and_imp]
      exact ⟨⟨hij, fun a x hx hxa => le_trans hij (h.1 a x hx hxa)⟩, h.1, h.2⟩
    · rename_i hij
      simp only [List.map_cons, List.pairwise_cons, List.mem_map, forall_exists_index, and_imp]
      refine ⟨fun a x hx hxa => ?_, ih h.2⟩
      rcases List.mem_cons.1 ((pqPush_perm q i).mem_iff.1 hx) with rfl | hx
      · omega
      · exact h.1 a x hx hxa

/-- The scan for the smallest element returns one of the elements. -/
theorem pqMin_mem (m : Memory) (best : Index) (q : List Index) : pqMin m best q ∈ best :: q := by
  induction q generalizing best with
  | nil => simp [pqMin]
  | cons i q ih =>
    simp only [pqMin]
    split
    · exact List.mem_cons_of_mem _ (ih i)
    · rcases List.mem_cons.1 (ih best) with h | h
      · rw [h]
        exact List.mem_cons_self
      · exact List.mem_cons_of_mem _ (List.mem_cons_of_mem _ h)

/-- Everything POPMIN can do: an element of the queue, and the queue without it (R146). -/
theorem pqPop_some {m : Memory} {q q' : List Index} {i : Index} (h : pqPop m q = some (i, q')) :
    i ∈ q ∧ q' = q.erase i := by
  cases q with
  | nil => simp [pqPop] at h
  | cons j q =>
    simp only [pqPop, Option.some.injEq, Prod.mk.injEq] at h
    obtain ⟨rfl, rfl⟩ := h
    exact ⟨pqMin_mem m j q, rfl⟩

/-- POPMIN takes one element off the multiset. -/
theorem pqPop_perm {m : Memory} {q q' : List Index} {i : Index} (h : pqPop m q = some (i, q')) :
    q.Perm (i :: q') := by
  obtain ⟨hi, rfl⟩ := pqPop_some h
  exact List.perm_cons_erase hi

theorem pqPop_length {m : Memory} {q q' : List Index} {i : Index} (h : pqPop m q = some (i, q')) :
    q.length = q'.length + 1 := by
  simpa using (pqPop_perm h).length_eq

/-- POPMIN answers on every queue that is not empty. -/
theorem pqPop_of_ne_nil (m : Memory) {q : List Index} (h : q ≠ []) : ∃ i q', pqPop m q = some (i, q') := by
  cases q with
  | nil => exact absurd rfl h
  | cons j q => exact ⟨_, _, rfl⟩

/-- POPMIN keeps the queue ascending. -/
theorem pqPop_sorted {m : Memory} {q q' : List Index} {i : Index} (h : pqPop m q = some (i, q'))
    (hs : (q.map BitVec.toNat).Pairwise (· ≤ ·)) : (q'.map BitVec.toNat).Pairwise (· ≤ ·) := by
  obtain ⟨-, rfl⟩ := pqPop_some h
  exact hs.sublist (List.erase_sublist.map _)

/-- The key comparison as arithmetic: lexicographic on (FREQ, LSD, LML), all unsigned (R143). -/
theorem keyBefore_iff (a b : NodeEntry) : keyBefore a b = true ↔
    a.freq.toNat < b.freq.toNat ∨ a.freq.toNat = b.freq.toNat ∧ (a.lsd.toNat < b.lsd.toNat ∨
      a.lsd.toNat = b.lsd.toNat ∧ a.lml.toNat < b.lml.toNat) := by
  simp [keyBefore, BitVec.toNat_inj]

/-- The key comparison is transitive. -/
theorem keyBefore_trans {a b c : NodeEntry} (h1 : keyBefore a b = true) (h2 : keyBefore b c = true) :
    keyBefore a c = true := by
  simp only [keyBefore_iff] at *
  omega

theorem keyBefore_irrefl (a : NodeEntry) : keyBefore a a = false := by
  simp [keyBefore]

/-- No element is before an element that is before it. -/
theorem keyBefore_asymm {a b : NodeEntry} (h : keyBefore a b = true) : keyBefore b a = false := by
  cases h2 : keyBefore b a with
  | false => rfl
  | true => exact absurd (keyBefore_trans h h2) (by simp [keyBefore_irrefl])

end Sys2Proof.Machine
end

