-- ==== Sys2Proof/Laws/Forest.lean ====
section
/-! SUPPORT. The forest a BUILD works on (spec/42_tree_build.md R163 to R166, spec/41_pq_engine.md R141): what seeding,
popping, joining and the fix-up do to it, and that one remaining root makes it the tree of spec/10_state.md R40. -/

namespace Sys2Proof.Safety

open Sys2Proof.Machine

/-! ### Children -/

@[simp] theorem childList_zero (m : Memory) : childList m 0 = [] := rfl

theorem childList_succ (m : Memory) (n : Nat) : childList m (n + 1) = childList m n ++ childrenOf m n := by
  simp [childList, List.range_succ]

theorem childrenOf_leaf {m : Memory} {i : Nat} {x : FtEntry} (h : nodeAt? m i = some (leafEntry x)) :
    childrenOf m i = [] := by
  simp [childrenOf, h, leafEntry]

theorem childrenOf_placeholder {m : Memory} {i : Nat} (h : nodeAt? m i = some placeholderEntry) :
    childrenOf m i = [] := by
  simp [childrenOf, h, placeholderEntry]

theorem childrenOf_join {m m' : Memory} {i : Nat} {a b : Index} (h : nodeAt? m i = some (joinEntry m' a b)) :
    childrenOf m i = [a.toNat, b.toNat] := by
  simp [childrenOf, h, joinEntry]

/-- The children of the nodes below `n` depend on those nodes only. -/
theorem childList_congr {m m' : Memory} {n : Nat} (h : ∀ i < n, nodeAt? m' i = nodeAt? m i) :
    childList m' n = childList m n := by
  induction n with
  | zero => rfl
  | succ n ih =>
    rw [childList_succ, childList_succ, ih fun i hi => h i (by omega)]
    simp [childrenOf, h n (by omega)]

/-- A FORK's entry depends on its two children only. -/
theorem joinEntry_congr {m m' : Memory} {a b : Index} (ha : nodeAt? m' a.toNat = nodeAt? m a.toNat)
    (hb : nodeAt? m' b.toNat = nodeAt? m b.toNat) : joinEntry m' a b = joinEntry m a b := by
  simp [joinEntry, nodeRead, ha, hb]

/-! ### Seeding -/

/-- The leaves written so far and the queue of their indices. -/
structure IsSeeded (ft : List FtEntry) (m : Memory) (e : Nat) (q : List Index) : Prop where
  queue : q.map BitVec.toNat = List.range e
  leaves : ∀ i < e, ∀ x, ft[i]? = some x → nodeAt? m i = some (leafEntry x)

/-- PUSH of the next index, the largest, puts it last. -/
theorem pqPush_range {q : List Index} {i : Index} (h : q.map BitVec.toNat = List.range i.toNat) :
    (pqPush q i).map BitVec.toNat = List.range (i.toNat + 1) := by
  have key : ∀ q : List Index, (∀ j ∈ q, j.toNat < i.toNat) → pqPush q i = q ++ [i] := by
    intro q
    induction q with
    | nil => intro _; rfl
    | cons j q ih =>
      intro hq
      have hj := hq j List.mem_cons_self
      simp only [pqPush]
      rw [if_neg (by omega), ih fun k hk => hq k (List.mem_cons_of_mem _ hk)]
      rfl
  rw [key q, List.map_append, h, List.range_succ]
  · rfl
  · intro j hj
    have : j.toNat ∈ q.map BitVec.toNat := List.mem_map_of_mem hj
    rw [h] at this
    exact List.mem_range.1 this

/-- One seed (R163). -/
theorem IsSeeded.step {ft : List FtEntry} {m : Memory} {i : Index} {q : List Index} {x : FtEntry}
    (h : IsSeeded ft m i.toNat q) (hx : ft[i.toNat]? = some x) :
    IsSeeded ft (nodeWrite m i (leafEntry x)) (i.toNat + 1) (pqPush q i) where
  queue := pqPush_range h.queue
  leaves := by
    intro j hj y hy
    by_cases hji : j = i.toNat
    · subst hji
      rw [hx] at hy
      simp_all
    · rw [nodeAt_write_ne m _ hji]
      exact h.leaves j (by omega) y hy

/-- After the last seed the leaves are a forest of single nodes. -/
theorem IsSeeded.forest {ft : List FtEntry} {m : Memory} {q : List Index} (h : IsSeeded ft m ft.length q) :
    IsForest ft m ft.length q where
  enough := le_refl _
  leaves := fun i x hx => h.leaves i (List.getElem?_eq_some_iff.1 hx).1 x hx
  forks := fun i h1 h2 => absurd h2 (by omega)
  parents := by
    have : ∀ n ≤ ft.length, childList m n = [] := by
      intro n
      induction n with
      | zero => intro _; rfl
      | succ n ih =>
        intro hn
        rw [childList_succ, ih (by omega), childrenOf_leaf (h.leaves n (by omega) _ (List.getElem?_eq_getElem (by omega)))]
        rfl
    rw [this _ (le_refl _), List.append_nil, h.queue]

/-! ### The forest -/

/-- A forest does not depend on the order its roots are listed in. -/
theorem IsForest.perm {ft : List FtEntry} {m : Memory} {k : Nat} {q q' : List Index} (h : IsForest ft m k q)
    (hq : q.Perm q') : IsForest ft m k q' where
  enough := h.enough
  leaves := h.leaves
  forks := h.forks
  parents := ((hq.map _).append_right _).symm.trans h.parents

theorem IsForest.root_lt {ft : List FtEntry} {m : Memory} {k : Nat} {q : List Index} (h : IsForest ft m k q)
    {i : Index} (hi : i ∈ q) : i.toNat < k := by
  have : i.toNat ∈ q.map BitVec.toNat ++ childList m k := List.mem_append_left _ (List.mem_map_of_mem hi)
  exact List.mem_range.1 (h.parents.mem_iff.1 this)

theorem IsForest.roots_nodup {ft : List FtEntry} {m : Memory} {k : Nat} {q : List Index} (h : IsForest ft m k q) :
    q.Nodup := by
  have := (h.parents.nodup_iff.2 List.nodup_range).of_append_left
  exact List.Nodup.of_map _ this

/-- Each merge has made one node and taken one root away (spec/41_pq_engine.md R147). -/
theorem IsForest.size {ft : List FtEntry} {m : Memory} {k : Nat} {q : List Index} (h : IsForest ft m k q) :
    k + q.length = 2 * ft.length := by
  have key : ∀ j, ft.length ≤ j → j ≤ k → (childList m j).length = 2 * (j - ft.length) := by
    intro j hj
    induction j, hj using Nat.le_induction with
    | base =>
      intro _
      have : ∀ n ≤ ft.length, childList m n = [] := by
        intro n
        induction n with
        | zero => intro _; rfl
        | succ n ih =>
          intro hn
          rw [childList_succ, ih (by omega), childrenOf_leaf (h.leaves n _ (List.getElem?_eq_getElem (by omega)))]
          rfl
      simp [this _ (le_refl _)]
    | succ j hj ih =>
      intro hjk
      obtain ⟨a, b, -, -, hab⟩ := h.forks j hj (by omega)
      rw [childList_succ, List.length_append, ih (by omega), childrenOf_join hab]
      simp only [List.length_cons, List.length_nil]
      omega
  have := h.parents.length_eq
  rw [List.length_append, List.length_map, List.length_range, key k h.enough (le_refl _)] at this
  have := h.enough
  omega

/-- B_JOIN: two roots become the children of the new node, which is a root (R164). -/
theorem IsForest.join {ft : List FtEntry} {m : Memory} {i a b : Index} {q : List Index}
    (h : IsForest ft m i.toNat (a :: b :: q)) :
    IsForest ft (nodeWrite m i (joinEntry m a b)) (i.toNat + 1) (pqPush q i) := by
  have ha := h.root_lt (i := a) (by simp)
  have hb := h.root_lt (i := b) (by simp)
  have below : ∀ j < i.toNat, nodeAt? (nodeWrite m i (joinEntry m a b)) j = nodeAt? m j :=
    fun j hj => nodeAt_write_ne m _ (by omega)
  refine ⟨by have := h.enough; omega, fun j x hx => ?_, fun j h1 h2 => ?_, ?_⟩
  · have := (List.getElem?_eq_some_iff.1 hx).1
    rw [below j (by have := h.enough; omega)]
    exact h.leaves j x hx
  · by_cases hj : j = i.toNat
    · subst hj
      refine ⟨a, b, ha, hb, ?_⟩
      rw [nodeAt_write_self, joinEntry_congr (below _ ha) (below _ hb)]
    · obtain ⟨c, d, hc, hd, hcd⟩ := h.forks j h1 (by omega)
      refine ⟨c, d, hc, hd, ?_⟩
      rw [below j (by omega), hcd, joinEntry_congr (below _ (by omega)) (below _ (by omega))]
  · rw [childList_succ, childList_congr below, childrenOf_join (nodeAt_write_self m i _), List.range_succ]
    refine (((pqPush_perm q i).map BitVec.toNat).append_right _).trans ?_
    have hp := h.parents
    simp only [List.map_cons, List.cons_append] at hp ⊢
    refine List.Perm.trans ?_ ((List.perm_append_singleton i.toNat _).symm.trans (hp.append_right _))
    refine List.Perm.cons _ ?_
    rw [← List.append_assoc]
    exact List.perm_append_comm (l₂ := [a.toNat, b.toNat])

/-- With one root left, every node was used: the root is the last node made, a FORK when there are two leaves or more
(R165, R169). -/
theorem IsForest.last {ft : List FtEntry} {m : Memory} {k : Nat} {a : Index} (h : IsForest ft m k [a]) :
    k = 2 * ft.length - 1 ∧ a.toNat = k - 1 ∧ 1 ≤ ft.length ∧
      (2 ≤ ft.length → (nodeRead m a).kind = .fork) ∧ (ft.length = 1 → (nodeRead m a).kind = .leaf) := by
  have hs := h.size
  have he := h.enough
  simp only [List.length_cons, List.length_nil] at hs
  have hroot : a.toNat = k - 1 := by
    have hmem : k - 1 ∈ [a].map BitVec.toNat ++ childList m k :=
      h.parents.mem_iff.2 (List.mem_range.2 (by omega))
    simp only [List.map_cons, List.map_nil, List.cons_append, List.nil_append, List.mem_cons] at hmem
    rcases hmem with hmem | hmem
    · exact hmem.symm
    · simp only [childList, List.mem_flatMap, List.mem_range] at hmem
      obtain ⟨j, hj, hmem⟩ := hmem
      by_cases hjn : j < ft.length
      · rw [childrenOf_leaf (h.leaves j _ (List.getElem?_eq_getElem hjn))] at hmem
        simp at hmem
      · obtain ⟨c, d, hc, hd, hcd⟩ := h.forks j (by omega) hj
        rw [childrenOf_join hcd] at hmem
        simp only [List.mem_cons, List.not_mem_nil, or_false] at hmem
        omega
  refine ⟨by omega, hroot, by omega, fun h2 => ?_, fun h1 => ?_⟩
  · obtain ⟨c, d, -, -, hcd⟩ := h.forks a.toNat (by omega) (by omega)
    simp [nodeRead_of_nodeAt hcd, joinEntry]
  · have := h.leaves a.toNat _ (List.getElem?_eq_getElem (by omega))
    simp [nodeRead_of_nodeAt this, leafEntry]

/-! ### The tree -/

theorem leafSyms_succ (m : Memory) (n : Nat) : leafSyms m (n + 1) = leafSyms m n ++ (leafSym m n).toList := by
  simp only [leafSyms, List.range_succ, List.filterMap_append, List.filterMap_cons, List.filterMap_nil]
  cases leafSym m n <;> rfl

/-- The leaves of a forest hold the table's symbols, in order. -/
theorem IsForest.leafSyms {ft : List FtEntry} {m : Memory} {k : Nat} {q : List Index} (h : IsForest ft m k q) :
    leafSyms m k = ft.map FtEntry.sym := by
  have low : ∀ n ≤ ft.length, Safety.leafSyms m n = (ft.take n).map FtEntry.sym := by
    intro n
    induction n with
    | zero => intro _; rfl
    | succ n ih =>
      intro hn
      have hg := List.getElem?_eq_getElem (l := ft) (i := n) (by omega)
      rw [leafSyms_succ, ih (by omega), List.take_add_one, hg]
      rw [List.map_append]
      congr 1
      simp [leafSym, h.leaves n _ hg, leafEntry]
  have high : ∀ j, ft.length ≤ j → j ≤ k → Safety.leafSyms m j = ft.map FtEntry.sym := by
    intro j hj
    induction j, hj using Nat.le_induction with
    | base => intro _; rw [low _ (le_refl _), List.take_length]
    | succ j hj ih =>
      intro hjk
      obtain ⟨a, b, -, -, hab⟩ := h.forks j hj (by omega)
      rw [leafSyms_succ, ih (by omega)]
      simp [leafSym, hab, joinEntry]
  exact high k h.enough (le_refl _)

/-- A forest of one root over two leaves or more is a tree (spec/10_state.md R40). -/
theorem IsForest.tree {ft : List FtEntry} {m : Memory} {k : Nat} {a : Index} (h : IsForest ft m k [a])
    (h2 : 2 ≤ ft.length) (hn : (ft.map FtEntry.sym).Nodup) : IsTree m k a where
  nodes := by
    intro i hi
    by_cases hl : i < ft.length
    · exact .inr (.inl ⟨_, h.leaves i _ (List.getElem?_eq_getElem hl)⟩)
    · obtain ⟨c, d, hc, hd, hcd⟩ := h.forks i (by omega) hi
      exact .inr (.inr ⟨c, d, hc, hd, hcd⟩)
  parents := h.parents
  rootFork := h.last.2.2.2.1 h2
  leaves := by rw [h.leafSyms]; exact hn

end Sys2Proof.Safety
end

