-- ==== Sys2Proof/Laws/Build.lean ====
section
/-! SUPPORT. What the loops of the atomic BUILD and the steps of the tree-merge FSM do (spec/42_tree_build.md R162 to
R170), in terms of the forest of Laws/Forest.lean. -/

namespace Sys2Proof.Safety

open Sys2Proof.Machine

/-! ### The loops of the atomic BUILD -/

/-- What no write of a BUILD over `n` entries disturbs: the canonical form, the nodes from `2n - 1` on, and the bound on
the indices held. -/
structure Undisturbed (n : Nat) (m m' : Memory) : Prop where
  above : ∀ j, 2 * n - 1 ≤ j → nodeAt? m' j = nodeAt? m j
  wf : Memory.wf m → Memory.wf m'
  cap : ∀ c, 2 * n - 1 ≤ c → (∀ e ∈ m, e.1 < c) → ∀ e ∈ m', e.1 < c

theorem Undisturbed.refl (n : Nat) (m : Memory) : Undisturbed n m m := ⟨fun _ _ => rfl, id, fun _ _ h => h⟩

theorem Undisturbed.trans {n : Nat} {m m' m'' : Memory} (h : Undisturbed n m m') (h' : Undisturbed n m' m'') :
    Undisturbed n m m'' :=
  ⟨fun j hj => (h'.above j hj).trans (h.above j hj), fun hw => h'.wf (h.wf hw),
    fun c hc hm => h'.cap c hc (h.cap c hc hm)⟩

theorem Undisturbed.write {n : Nat} {m : Memory} {i : Index} (e : NodeEntry) (hi : i.toNat < 2 * n - 1) :
    Undisturbed n m (nodeWrite m i e) where
  above := fun j hj => nodeAt_write_ne m e (by omega)
  wf := nodeWrite_wf i e
  cap := fun c hc hm p hp => by
    rcases mem_nodeInsert hp with rfl | hp
    · exact lt_of_lt_of_le hi hc
    · exact hm p hp

/-- The seeding loop writes the remaining leaves, in FT order, and pushes them. -/
theorem seedAll_spec {ft : List FtEntry} (xs : List FtEntry) (e : Nat) (b : BuildRun) (hft : ft.length ≤ 32768)
    (he : e + xs.length = ft.length) (hx : ft.drop e = xs) (h : IsSeeded ft b.nodes e b.pq) :
    IsSeeded ft (seedAll xs e b).nodes ft.length (seedAll xs e b).pq ∧ (seedAll xs e b).next = b.next ∧
      (seedAll xs e b).satp = b.satp ∧ Undisturbed ft.length b.nodes (seedAll xs e b).nodes := by
  induction xs generalizing e b with
  | nil =>
    simp only [List.length_nil, Nat.add_zero] at he
    subst he
    exact ⟨h, rfl, rfl, Undisturbed.refl _ _⟩
  | cons x xs ih =>
    simp only [List.length_cons] at he
    have hi : (BitVec.ofNat 16 e).toNat = e := by simp; omega
    have hget : ft[e]? = some x := by
      rw [← List.head?_drop, hx]
      rfl
    have hrest : ft.drop (e + 1) = xs := by
      rw [← List.drop_drop, hx]
      rfl
    have hstep : IsSeeded ft (seedOne x e b).nodes (e + 1) (seedOne x e b).pq := by
      have := IsSeeded.step (i := BitVec.ofNat 16 e) (x := x) (by rw [hi]; exact h) (by rw [hi]; exact hget)
      rw [hi] at this
      exact this
    obtain ⟨h1, h2, h3, h4⟩ := ih (e + 1) (seedOne x e b) (by omega) hrest hstep
    exact ⟨h1, h2, h3, (Undisturbed.write _ (by rw [hi]; omega)).trans h4⟩

/-- A turn of the merge loop answers exactly when PQ holds two elements or more, and then pops two and joins them. -/
theorem mergeOne_cases (r : BuildRun) :
    (r.pq.length < 2 ∧ mergeOne r = none) ∨
      ∃ a q b q', pqPop r.nodes r.pq = some (a, q) ∧ pqPop r.nodes q = some (b, q') ∧
        mergeOne r = some (joinTwo a b { r with pq := q' }) := by
  by_cases h : r.pq = []
  · left
    simp [mergeOne, h, pqPop]
  · obtain ⟨a, q, h1⟩ := pqPop_of_ne_nil r.nodes h
    have hl := pqPop_length h1
    by_cases hq : q = []
    · subst hq
      exact .inl ⟨by simp [hl], by simp only [mergeOne, h1]; rfl⟩
    · obtain ⟨b, q', h2⟩ := pqPop_of_ne_nil r.nodes hq
      exact .inr ⟨a, q, b, q', h1, h2, by simp only [mergeOne, h1, h2]⟩

/-- One merge of a forest (R164). -/
theorem mergeOne_forest {ft : List FtEntry} {r r' : BuildRun} (hft : ft.length ≤ 32768)
    (h : IsForest ft r.nodes r.next.toNat r.pq) (hr : mergeOne r = some r') :
    IsForest ft r'.nodes r'.next.toNat r'.pq ∧ r'.pq.length + 1 = r.pq.length ∧
      Undisturbed ft.length r.nodes r'.nodes := by
  rcases mergeOne_cases r with ⟨-, hn⟩ | ⟨a, q, b, q', h1, h2, hs⟩
  · rw [hn] at hr
    cases hr
  · rw [hs] at hr
    cases hr
    have hl1 := pqPop_length h1
    have hl2 := pqPop_length h2
    have hf : IsForest ft r.nodes r.next.toNat (a :: b :: q') :=
      h.perm ((pqPop_perm h1).trans ((pqPop_perm h2).cons a))
    have hsz := hf.size
    simp only [List.length_cons] at hsz
    have hnext : (r.next + 1).toNat = r.next.toNat + 1 := by
      simp only [BitVec.toNat_add]
      simp
      omega
    refine ⟨?_, ?_, ?_⟩
    · simp only [joinTwo, hnext]
      exact hf.join
    · simp only [joinTwo, pqPush_length]
      omega
    · exact Undisturbed.write _ (show r.next.toNat < 2 * ft.length - 1 by omega)

/-- The merge loop ends with one root (R165). -/
theorem mergeAll_forest {ft : List FtEntry} (fuel : Nat) (r : BuildRun) (hft : ft.length ≤ 32768)
    (h : IsForest ft r.nodes r.next.toNat r.pq) (h1 : 1 ≤ r.pq.length) (hfuel : r.pq.length ≤ fuel + 1) :
    ∃ a, (mergeAll fuel r).pq = [a] ∧ IsForest ft (mergeAll fuel r).nodes (mergeAll fuel r).next.toNat [a] ∧
      Undisturbed ft.length r.nodes (mergeAll fuel r).nodes := by
  induction fuel generalizing r with
  | zero =>
    obtain ⟨a, ha⟩ := List.length_eq_one_iff.1 (show r.pq.length = 1 by omega)
    refine ⟨a, ha, ?_, Undisturbed.refl _ _⟩
    rw [ha] at h
    exact h
  | succ fuel ih =>
    rcases mergeOne_cases r with ⟨hlt, hn⟩ | ⟨a, q, b, q', h1', h2', hs⟩
    · obtain ⟨a, ha⟩ := List.length_eq_one_iff.1 (show r.pq.length = 1 by omega)
      simp only [mergeAll, hn]
      refine ⟨a, ha, ?_, Undisturbed.refl _ _⟩
      rw [ha] at h
      exact h
    · obtain ⟨hf, hlen, hu⟩ := mergeOne_forest hft h hs
      simp only [mergeAll, hs]
      have hl1 := pqPop_length h1'
      have hl2 := pqPop_length h2'
      obtain ⟨c, hc, hcf, hcu⟩ := ih _ hf (by omega) (by omega)
      exact ⟨c, hc, hcf, hu.trans hcu⟩

/-- What BUILD has when its merge loop ends, for a table that is not empty (R170). -/
theorem buildMerged_forest {s : State} (h0 : s.ft ≠ []) (hft : s.ft.length ≤ 32768) :
    ∃ a, (buildMerged s).pq = [a] ∧ IsForest s.ft (buildMerged s).nodes (buildMerged s).next.toNat [a] ∧
      Undisturbed s.ft.length s.nodes (buildMerged s).nodes := by
  have hpos := List.length_pos_iff.2 h0
  obtain ⟨h1, h2, -, h4⟩ := seedAll_spec (ft := s.ft) s.ft 0 (buildStart s) hft (by simp) rfl
    ⟨rfl, fun i hi => absurd hi (by omega)⟩
  have hnext : (seedAll s.ft 0 (buildStart s)).next.toNat = s.ft.length := by
    rw [h2]
    simp only [buildStart, State.nsyms, BitVec.toNat_ofNat]
    omega
  have hf := h1.forest
  rw [← hnext] at hf
  have hlen : (seedAll s.ft 0 (buildStart s)).pq.length = s.ft.length := by
    have := congrArg List.length h1.queue
    simpa using this
  obtain ⟨a, ha, haf, hau⟩ := mergeAll_forest s.nsyms _ hft hf (by omega) (by simp only [State.nsyms]; omega)
  exact ⟨a, ha, haf, h4.trans hau⟩

/-! ### The single-symbol fix-up -/

/-- A fork of the fix-up is an ordinary fork: `sat_add(c, 0) = c` (R166). -/
theorem fixupEntry_eq_joinEntry {m : Memory} {a p : Index} {x : FtEntry} (ha : nodeAt? m a.toNat = some (leafEntry x))
    (hp : nodeAt? m p.toNat = some placeholderEntry) : fixupEntry m a p = joinEntry m a p := by
  have hx := x.count.isLt
  have : satAdd x.count 0 = x.count := by
    apply BitVec.eq_of_toNat_eq
    simp [satAdd]
    omega
  simp only [fixupEntry, joinEntry, nodeRead_of_nodeAt ha, nodeRead_of_nodeAt hp, leafEntry, placeholderEntry, this]
  rfl

/-- The fix-up of a single leaf makes the three-node tree (R166, R169). -/
theorem fixup_tree {ft : List FtEntry} {m : Memory} {a : Index} (h : IsForest ft m 1 [a]) (h1 : ft.length = 1) :
    IsTree (fixup m a 1).1 3 2 ∧ (fixup m a 1).2 = (2, 3) ∧
      (∀ (e : Nat) (x : FtEntry), ft[e]? = some x → nodeAt? (fixup m a 1).1 e = some (leafEntry x)) ∧
      (∀ j, 3 ≤ j → nodeAt? (fixup m a 1).1 j = nodeAt? m j) ∧ (Memory.wf m → Memory.wf (fixup m a 1).1) ∧
      (∀ c, 3 ≤ c → (∀ e ∈ m, e.1 < c) → ∀ e ∈ (fixup m a 1).1, e.1 < c) := by
  obtain ⟨-, ha, -, -, hk⟩ := h.last
  have ha0 : a = 0 := BitVec.eq_of_toNat_eq (by simpa using ha)
  subst ha0
  have hleaf := h.leaves 0 _ (List.getElem?_eq_getElem (by omega))
  have hfix : fixup m 0 1 = (nodeWrite (nodeWrite m 1 placeholderEntry) 2 (fixupEntry m 0 1), 2, 3) := by
    rw [fixup, hk h1]
    rfl
  have ne1 : ∀ {j : Nat}, j ≠ 1 → j ≠ (1 : Index).toNat := fun h => h
  have ne2 : ∀ {j : Nat}, j ≠ 2 → j ≠ (2 : Index).toNat := fun h => h
  have n0 : nodeAt? (fixup m 0 1).1 0 = some (leafEntry ft[0]) := by
    rw [hfix, nodeAt_write_ne _ _ (ne2 (by omega)), nodeAt_write_ne _ _ (ne1 (by omega))]
    exact hleaf
  have n1 : nodeAt? (fixup m 0 1).1 1 = some placeholderEntry := by
    rw [hfix, nodeAt_write_ne _ _ (ne2 (by omega))]
    exact nodeAt_write_self m 1 _
  have n2 : nodeAt? (fixup m 0 1).1 2 = some (joinEntry (fixup m 0 1).1 0 1) := by
    have hf : fixupEntry m 0 1 = fixupEntry (fixup m 0 1).1 0 1 := by
      have e0 : nodeRead (fixup m 0 1).1 0 = nodeRead m 0 := by
        rw [nodeRead_of_nodeAt (i := 0) n0, nodeRead_of_nodeAt (i := 0) hleaf]
      simp only [fixupEntry, e0]
    rw [← fixupEntry_eq_joinEntry (a := 0) (p := 1) n0 n1, ← hf]
    nth_rewrite 1 [hfix]
    exact nodeAt_write_self _ 2 _
  refine ⟨⟨?_, ?_, ?_, ?_⟩, by rw [hfix], ?_, ?_, ?_, ?_⟩
  · intro i hi
    interval_cases i
    · exact .inr (.inl ⟨_, n0⟩)
    · exact .inl n1
    · exact .inr (.inr ⟨0, 1, by decide, by decide, n2⟩)
  · simp only [childList_succ, childList_zero, childrenOf_leaf n0, childrenOf_placeholder n1, childrenOf_join n2,
      List.nil_append, List.range_succ, List.range_zero]
    decide
  · rw [nodeRead_of_nodeAt (i := 2) n2]
    rfl
  · simp only [leafSyms, List.range_succ, List.range_zero, List.nil_append, List.cons_append, List.filterMap_cons,
      List.filterMap_nil, leafSym, n0, n1, n2, leafEntry, placeholderEntry, joinEntry]
    simp
  · intro e x hx
    have := (List.getElem?_eq_some_iff.1 hx).1
    obtain rfl : e = 0 := by omega
    rw [n0]
    rw [List.getElem?_eq_getElem (by omega)] at hx
    simp at hx
    rw [hx]
  · intro j hj
    rw [hfix, nodeAt_write_ne _ _ (ne2 (by omega)), nodeAt_write_ne _ _ (ne1 (by omega))]
  · intro hw
    rw [hfix]
    exact nodeWrite_wf _ _ (nodeWrite_wf _ _ hw)
  · intro c hc hm p hp
    rw [hfix] at hp
    rcases mem_nodeInsert hp with rfl | hp
    · show (2 : Nat) < c
      omega
    · rcases mem_nodeInsert hp with rfl | hp
      · show (1 : Nat) < c
        omega
      · exact hm p hp

/-- The fix-up leaves a tree that is already a fork alone (R166). -/
theorem fixup_fork {m : Memory} {a next : Index} (h : (nodeRead m a).kind = .fork) : fixup m a next = (m, a, next) := by
  rw [fixup, h]

end Sys2Proof.Safety
end

