-- ==== Sys2Proof/Laws/State.lean ====
section
/-! SUPPORT. What each named update of the state does to each field: true by rfl, for simp. A record update written out
({ s with … }) reduces by itself; these are the updates with a name. -/

namespace Sys2Proof.Machine

variable (s : State)

/-! ### STATUS -/

/-- Bit 0 of a STATUS word is BUSY. -/
theorem statusWord_getLsbD_zero (b t p : Bool) (e : BitVec 4) (c : BitVec 8) (d h a : Bool) :
    (statusWord b t p e c d h a).getLsbD 0 = b := by
  simp only [statusWord, BitVec.getLsbD_append]
  cases b <;> rfl

@[simp] theorem statusWord_getElem_zero (b t p : Bool) (e : BitVec 4) (c : BitVec 8) (d h a : Bool) :
    (statusWord b t p e c d h a)[0] = b := statusWord_getLsbD_zero b t p e c d h a

/-! ### complete -/

@[simp] theorem complete_params : (complete s).params = s.params := rfl
@[simp] theorem complete_arg0 : (complete s).arg0 = s.arg0 := rfl
@[simp] theorem complete_arg1 : (complete s).arg1 = s.arg1 := rfl
@[simp] theorem complete_res0 : (complete s).res0 = s.res0 := rfl
@[simp] theorem complete_res1 : (complete s).res1 = s.res1 := rfl
@[simp] theorem complete_res2 : (complete s).res2 = s.res2 := rfl
@[simp] theorem complete_res3 : (complete s).res3 = s.res3 := rfl
@[simp] theorem complete_err : (complete s).err = .ok := rfl
@[simp] theorem complete_drop : (complete s).drop = s.drop := rfl
@[simp] theorem complete_phit : (complete s).phit = s.phit := rfl
@[simp] theorem complete_sat : (complete s).sat = s.sat := rfl
@[simp] theorem complete_ft : (complete s).ft = s.ft := rfl
@[simp] theorem complete_tv : (complete s).tv = s.tv := rfl
@[simp] theorem complete_root : (complete s).root = s.root := rfl
@[simp] theorem complete_nnodes : (complete s).nnodes = s.nnodes := rfl
@[simp] theorem complete_nodes : (complete s).nodes = s.nodes := rfl
@[simp] theorem complete_pq : (complete s).pq = s.pq := rfl
@[simp] theorem complete_cursor : (complete s).cursor = s.cursor := rfl
@[simp] theorem complete_depth : (complete s).depth = s.depth := rfl
@[simp] theorem complete_outq : (complete s).outq = s.outq := rfl
@[simp] theorem complete_eng : (complete s).eng = .idle := rfl
@[simp] theorem complete_cmdl : (complete s).cmdl = s.cmdl := rfl
@[simp] theorem complete_a0l : (complete s).a0l = s.a0l := rfl
@[simp] theorem complete_a1l : (complete s).a1l = s.a1l := rfl
@[simp] theorem complete_nextIdx : (complete s).nextIdx = s.nextIdx := rfl
@[simp] theorem complete_ia : (complete s).ia = s.ia := rfl
@[simp] theorem complete_ib : (complete s).ib = s.ib := rfl
@[simp] theorem complete_seedi : (complete s).seedi = s.seedi := rfl
@[simp] theorem complete_satp : (complete s).satp = s.satp := rfl
@[simp] theorem complete_host : (complete s).host = s.host := rfl
@[simp] theorem complete_reads : (complete s).reads = s.reads := rfl
@[simp] theorem complete_turns : (complete s).turns = s.turns := rfl
@[simp] theorem complete_draws : (complete s).draws = s.draws := rfl

/-! ### raiseError -/

@[simp] theorem raiseError_params (c : ErrCode) : (raiseError c s).params = s.params := rfl
@[simp] theorem raiseError_arg0 (c : ErrCode) : (raiseError c s).arg0 = s.arg0 := rfl
@[simp] theorem raiseError_arg1 (c : ErrCode) : (raiseError c s).arg1 = s.arg1 := rfl
@[simp] theorem raiseError_res0 (c : ErrCode) : (raiseError c s).res0 = s.res0 := rfl
@[simp] theorem raiseError_res1 (c : ErrCode) : (raiseError c s).res1 = s.res1 := rfl
@[simp] theorem raiseError_res2 (c : ErrCode) : (raiseError c s).res2 = s.res2 := rfl
@[simp] theorem raiseError_res3 (c : ErrCode) : (raiseError c s).res3 = s.res3 := rfl
@[simp] theorem raiseError_err (c : ErrCode) : (raiseError c s).err = c := rfl
@[simp] theorem raiseError_drop (c : ErrCode) : (raiseError c s).drop = s.drop := rfl
@[simp] theorem raiseError_phit (c : ErrCode) : (raiseError c s).phit = s.phit := rfl
@[simp] theorem raiseError_sat (c : ErrCode) : (raiseError c s).sat = s.sat := rfl
@[simp] theorem raiseError_ft (c : ErrCode) : (raiseError c s).ft = s.ft := rfl
@[simp] theorem raiseError_tv (c : ErrCode) : (raiseError c s).tv = s.tv := rfl
@[simp] theorem raiseError_root (c : ErrCode) : (raiseError c s).root = s.root := rfl
@[simp] theorem raiseError_nnodes (c : ErrCode) : (raiseError c s).nnodes = s.nnodes := rfl
@[simp] theorem raiseError_nodes (c : ErrCode) : (raiseError c s).nodes = s.nodes := rfl
@[simp] theorem raiseError_pq (c : ErrCode) : (raiseError c s).pq = s.pq := rfl
@[simp] theorem raiseError_cursor (c : ErrCode) : (raiseError c s).cursor = s.cursor := rfl
@[simp] theorem raiseError_depth (c : ErrCode) : (raiseError c s).depth = s.depth := rfl
@[simp] theorem raiseError_outq (c : ErrCode) : (raiseError c s).outq = s.outq := rfl
@[simp] theorem raiseError_eng (c : ErrCode) : (raiseError c s).eng = .idle := rfl
@[simp] theorem raiseError_cmdl (c : ErrCode) : (raiseError c s).cmdl = s.cmdl := rfl
@[simp] theorem raiseError_a0l (c : ErrCode) : (raiseError c s).a0l = s.a0l := rfl
@[simp] theorem raiseError_a1l (c : ErrCode) : (raiseError c s).a1l = s.a1l := rfl
@[simp] theorem raiseError_nextIdx (c : ErrCode) : (raiseError c s).nextIdx = s.nextIdx := rfl
@[simp] theorem raiseError_ia (c : ErrCode) : (raiseError c s).ia = s.ia := rfl
@[simp] theorem raiseError_ib (c : ErrCode) : (raiseError c s).ib = s.ib := rfl
@[simp] theorem raiseError_seedi (c : ErrCode) : (raiseError c s).seedi = s.seedi := rfl
@[simp] theorem raiseError_satp (c : ErrCode) : (raiseError c s).satp = s.satp := rfl
@[simp] theorem raiseError_host (c : ErrCode) : (raiseError c s).host = s.host := rfl
@[simp] theorem raiseError_reads (c : ErrCode) : (raiseError c s).reads = s.reads := rfl
@[simp] theorem raiseError_turns (c : ErrCode) : (raiseError c s).turns = s.turns := rfl
@[simp] theorem raiseError_draws (c : ErrCode) : (raiseError c s).draws = s.draws := rfl

/-! ### latchExec -/

@[simp] theorem latchExec_params (v : Word) : (latchExec v s).params = s.params := rfl
@[simp] theorem latchExec_arg0 (v : Word) : (latchExec v s).arg0 = s.arg0 := rfl
@[simp] theorem latchExec_arg1 (v : Word) : (latchExec v s).arg1 = s.arg1 := rfl
@[simp] theorem latchExec_res0 (v : Word) : (latchExec v s).res0 = s.res0 := rfl
@[simp] theorem latchExec_res1 (v : Word) : (latchExec v s).res1 = s.res1 := rfl
@[simp] theorem latchExec_res2 (v : Word) : (latchExec v s).res2 = s.res2 := rfl
@[simp] theorem latchExec_res3 (v : Word) : (latchExec v s).res3 = s.res3 := rfl
@[simp] theorem latchExec_err (v : Word) : (latchExec v s).err = s.err := rfl
@[simp] theorem latchExec_drop (v : Word) : (latchExec v s).drop = s.drop := rfl
@[simp] theorem latchExec_phit (v : Word) : (latchExec v s).phit = s.phit := rfl
@[simp] theorem latchExec_sat (v : Word) : (latchExec v s).sat = s.sat := rfl
@[simp] theorem latchExec_ft (v : Word) : (latchExec v s).ft = s.ft := rfl
@[simp] theorem latchExec_tv (v : Word) : (latchExec v s).tv = s.tv := rfl
@[simp] theorem latchExec_root (v : Word) : (latchExec v s).root = s.root := rfl
@[simp] theorem latchExec_nnodes (v : Word) : (latchExec v s).nnodes = s.nnodes := rfl
@[simp] theorem latchExec_nodes (v : Word) : (latchExec v s).nodes = s.nodes := rfl
@[simp] theorem latchExec_pq (v : Word) : (latchExec v s).pq = s.pq := rfl
@[simp] theorem latchExec_cursor (v : Word) : (latchExec v s).cursor = s.cursor := rfl
@[simp] theorem latchExec_depth (v : Word) : (latchExec v s).depth = s.depth := rfl
@[simp] theorem latchExec_outq (v : Word) : (latchExec v s).outq = s.outq := rfl
@[simp] theorem latchExec_eng (v : Word) : (latchExec v s).eng = .exec := rfl
@[simp] theorem latchExec_cmdl (v : Word) : (latchExec v s).cmdl = v := rfl
@[simp] theorem latchExec_a0l (v : Word) : (latchExec v s).a0l = s.arg0 := rfl
@[simp] theorem latchExec_a1l (v : Word) : (latchExec v s).a1l = s.arg1 := rfl
@[simp] theorem latchExec_nextIdx (v : Word) : (latchExec v s).nextIdx = s.nextIdx := rfl
@[simp] theorem latchExec_ia (v : Word) : (latchExec v s).ia = s.ia := rfl
@[simp] theorem latchExec_ib (v : Word) : (latchExec v s).ib = s.ib := rfl
@[simp] theorem latchExec_seedi (v : Word) : (latchExec v s).seedi = s.seedi := rfl
@[simp] theorem latchExec_satp (v : Word) : (latchExec v s).satp = s.satp := rfl
@[simp] theorem latchExec_host (v : Word) : (latchExec v s).host = s.host := rfl
@[simp] theorem latchExec_reads (v : Word) : (latchExec v s).reads = s.reads := rfl
@[simp] theorem latchExec_turns (v : Word) : (latchExec v s).turns = s.turns := rfl
@[simp] theorem latchExec_draws (v : Word) : (latchExec v s).draws = s.draws := rfl

/-! ### buildIssue -/

@[simp] theorem buildIssue_params : (buildIssue s).params = s.params := rfl
@[simp] theorem buildIssue_arg0 : (buildIssue s).arg0 = s.arg0 := rfl
@[simp] theorem buildIssue_arg1 : (buildIssue s).arg1 = s.arg1 := rfl
@[simp] theorem buildIssue_res0 : (buildIssue s).res0 = s.res0 := rfl
@[simp] theorem buildIssue_res1 : (buildIssue s).res1 = s.res1 := rfl
@[simp] theorem buildIssue_res2 : (buildIssue s).res2 = s.res2 := rfl
@[simp] theorem buildIssue_res3 : (buildIssue s).res3 = s.res3 := rfl
@[simp] theorem buildIssue_err : (buildIssue s).err = s.err := rfl
@[simp] theorem buildIssue_drop : (buildIssue s).drop = s.drop := rfl
@[simp] theorem buildIssue_phit : (buildIssue s).phit = s.phit := rfl
@[simp] theorem buildIssue_sat : (buildIssue s).sat = s.sat := rfl
@[simp] theorem buildIssue_ft : (buildIssue s).ft = s.ft := rfl
@[simp] theorem buildIssue_tv : (buildIssue s).tv = s.tv := rfl
@[simp] theorem buildIssue_root : (buildIssue s).root = s.root := rfl
@[simp] theorem buildIssue_nnodes : (buildIssue s).nnodes = s.nnodes := rfl
@[simp] theorem buildIssue_nodes : (buildIssue s).nodes = s.nodes := rfl
@[simp] theorem buildIssue_pq : (buildIssue s).pq = [] := rfl
@[simp] theorem buildIssue_cursor : (buildIssue s).cursor = s.cursor := rfl
@[simp] theorem buildIssue_depth : (buildIssue s).depth = s.depth := rfl
@[simp] theorem buildIssue_outq : (buildIssue s).outq = s.outq := rfl
@[simp] theorem buildIssue_eng : (buildIssue s).eng = if s.nsyms = 0 then .bDone else .bSeed := rfl
@[simp] theorem buildIssue_cmdl : (buildIssue s).cmdl = s.cmdl := rfl
@[simp] theorem buildIssue_a0l : (buildIssue s).a0l = s.a0l := rfl
@[simp] theorem buildIssue_a1l : (buildIssue s).a1l = s.a1l := rfl
@[simp] theorem buildIssue_nextIdx : (buildIssue s).nextIdx = BitVec.ofNat 16 s.nsyms := rfl
@[simp] theorem buildIssue_ia : (buildIssue s).ia = s.ia := rfl
@[simp] theorem buildIssue_ib : (buildIssue s).ib = s.ib := rfl
@[simp] theorem buildIssue_seedi : (buildIssue s).seedi = 0 := rfl
@[simp] theorem buildIssue_satp : (buildIssue s).satp = false := rfl
@[simp] theorem buildIssue_host : (buildIssue s).host = s.host := rfl
@[simp] theorem buildIssue_reads : (buildIssue s).reads = s.reads := rfl
@[simp] theorem buildIssue_turns : (buildIssue s).turns = s.turns := rfl
@[simp] theorem buildIssue_draws : (buildIssue s).draws = s.draws := rfl

/-! ### storeEntry -/

@[simp] theorem storeEntry_params (i : Nat) (e : FtEntry) : (storeEntry s i e).params = s.params := rfl
@[simp] theorem storeEntry_arg0 (i : Nat) (e : FtEntry) : (storeEntry s i e).arg0 = s.arg0 := rfl
@[simp] theorem storeEntry_arg1 (i : Nat) (e : FtEntry) : (storeEntry s i e).arg1 = s.arg1 := rfl
@[simp] theorem storeEntry_res0 (i : Nat) (e : FtEntry) : (storeEntry s i e).res0 = BitVec.ofNat 32 i := rfl
@[simp] theorem storeEntry_res1 (i : Nat) (e : FtEntry) : (storeEntry s i e).res1 = e.count := rfl
@[simp] theorem storeEntry_res2 (i : Nat) (e : FtEntry) : (storeEntry s i e).res2 = s.res2 := rfl
@[simp] theorem storeEntry_res3 (i : Nat) (e : FtEntry) : (storeEntry s i e).res3 = s.res3 := rfl
@[simp] theorem storeEntry_err (i : Nat) (e : FtEntry) : (storeEntry s i e).err = .ok := rfl
@[simp] theorem storeEntry_drop (i : Nat) (e : FtEntry) : (storeEntry s i e).drop = s.drop := rfl
@[simp] theorem storeEntry_phit (i : Nat) (e : FtEntry) : (storeEntry s i e).phit = s.phit := rfl
@[simp] theorem storeEntry_sat (i : Nat) (e : FtEntry) : (storeEntry s i e).sat = s.sat := rfl
@[simp] theorem storeEntry_ft (i : Nat) (e : FtEntry) : (storeEntry s i e).ft = ftWrite s.ft i e := rfl
@[simp] theorem storeEntry_tv (i : Nat) (e : FtEntry) : (storeEntry s i e).tv = s.tv := rfl
@[simp] theorem storeEntry_root (i : Nat) (e : FtEntry) : (storeEntry s i e).root = s.root := rfl
@[simp] theorem storeEntry_nnodes (i : Nat) (e : FtEntry) : (storeEntry s i e).nnodes = s.nnodes := rfl
@[simp] theorem storeEntry_nodes (i : Nat) (e : FtEntry) : (storeEntry s i e).nodes = s.nodes := rfl
@[simp] theorem storeEntry_pq (i : Nat) (e : FtEntry) : (storeEntry s i e).pq = s.pq := rfl
@[simp] theorem storeEntry_cursor (i : Nat) (e : FtEntry) : (storeEntry s i e).cursor = s.cursor := rfl
@[simp] theorem storeEntry_depth (i : Nat) (e : FtEntry) : (storeEntry s i e).depth = s.depth := rfl
@[simp] theorem storeEntry_outq (i : Nat) (e : FtEntry) : (storeEntry s i e).outq = s.outq := rfl
@[simp] theorem storeEntry_eng (i : Nat) (e : FtEntry) : (storeEntry s i e).eng = .idle := rfl
@[simp] theorem storeEntry_cmdl (i : Nat) (e : FtEntry) : (storeEntry s i e).cmdl = s.cmdl := rfl
@[simp] theorem storeEntry_a0l (i : Nat) (e : FtEntry) : (storeEntry s i e).a0l = s.a0l := rfl
@[simp] theorem storeEntry_a1l (i : Nat) (e : FtEntry) : (storeEntry s i e).a1l = s.a1l := rfl
@[simp] theorem storeEntry_nextIdx (i : Nat) (e : FtEntry) : (storeEntry s i e).nextIdx = s.nextIdx := rfl
@[simp] theorem storeEntry_ia (i : Nat) (e : FtEntry) : (storeEntry s i e).ia = s.ia := rfl
@[simp] theorem storeEntry_ib (i : Nat) (e : FtEntry) : (storeEntry s i e).ib = s.ib := rfl
@[simp] theorem storeEntry_seedi (i : Nat) (e : FtEntry) : (storeEntry s i e).seedi = s.seedi := rfl
@[simp] theorem storeEntry_satp (i : Nat) (e : FtEntry) : (storeEntry s i e).satp = s.satp := rfl
@[simp] theorem storeEntry_host (i : Nat) (e : FtEntry) : (storeEntry s i e).host = s.host := rfl
@[simp] theorem storeEntry_reads (i : Nat) (e : FtEntry) : (storeEntry s i e).reads = s.reads := rfl
@[simp] theorem storeEntry_turns (i : Nat) (e : FtEntry) : (storeEntry s i e).turns = s.turns := rfl
@[simp] theorem storeEntry_draws (i : Nat) (e : FtEntry) : (storeEntry s i e).draws = s.draws := rfl

/-! ### finishEmpty -/

@[simp] theorem finishEmpty_params : (finishEmpty s).params = s.params := rfl
@[simp] theorem finishEmpty_arg0 : (finishEmpty s).arg0 = s.arg0 := rfl
@[simp] theorem finishEmpty_arg1 : (finishEmpty s).arg1 = s.arg1 := rfl
@[simp] theorem finishEmpty_res0 : (finishEmpty s).res0 = s.res0 := rfl
@[simp] theorem finishEmpty_res1 : (finishEmpty s).res1 = s.res1 := rfl
@[simp] theorem finishEmpty_res2 : (finishEmpty s).res2 = s.res2 := rfl
@[simp] theorem finishEmpty_res3 : (finishEmpty s).res3 = s.res3 := rfl
@[simp] theorem finishEmpty_err : (finishEmpty s).err = .empty := rfl
@[simp] theorem finishEmpty_drop : (finishEmpty s).drop = s.drop := rfl
@[simp] theorem finishEmpty_phit : (finishEmpty s).phit = s.phit := rfl
@[simp] theorem finishEmpty_sat : (finishEmpty s).sat = s.sat := rfl
@[simp] theorem finishEmpty_ft : (finishEmpty s).ft = s.ft := rfl
@[simp] theorem finishEmpty_tv : (finishEmpty s).tv = false := rfl
@[simp] theorem finishEmpty_root : (finishEmpty s).root = 0 := rfl
@[simp] theorem finishEmpty_nnodes : (finishEmpty s).nnodes = 0 := rfl
@[simp] theorem finishEmpty_nodes : (finishEmpty s).nodes = s.nodes := rfl
@[simp] theorem finishEmpty_pq : (finishEmpty s).pq = s.pq := rfl
@[simp] theorem finishEmpty_cursor : (finishEmpty s).cursor = 0 := rfl
@[simp] theorem finishEmpty_depth : (finishEmpty s).depth = 0 := rfl
@[simp] theorem finishEmpty_outq : (finishEmpty s).outq = s.outq := rfl
@[simp] theorem finishEmpty_eng : (finishEmpty s).eng = .idle := rfl
@[simp] theorem finishEmpty_cmdl : (finishEmpty s).cmdl = s.cmdl := rfl
@[simp] theorem finishEmpty_a0l : (finishEmpty s).a0l = s.a0l := rfl
@[simp] theorem finishEmpty_a1l : (finishEmpty s).a1l = s.a1l := rfl
@[simp] theorem finishEmpty_nextIdx : (finishEmpty s).nextIdx = s.nextIdx := rfl
@[simp] theorem finishEmpty_ia : (finishEmpty s).ia = s.ia := rfl
@[simp] theorem finishEmpty_ib : (finishEmpty s).ib = s.ib := rfl
@[simp] theorem finishEmpty_seedi : (finishEmpty s).seedi = s.seedi := rfl
@[simp] theorem finishEmpty_satp : (finishEmpty s).satp = s.satp := rfl
@[simp] theorem finishEmpty_host : (finishEmpty s).host = s.host := rfl
@[simp] theorem finishEmpty_reads : (finishEmpty s).reads = s.reads := rfl
@[simp] theorem finishEmpty_turns : (finishEmpty s).turns = s.turns := rfl
@[simp] theorem finishEmpty_draws : (finishEmpty s).draws = s.draws := rfl

/-! ### finishTree -/

@[simp] theorem finishTree_params (r k : Index) (b : Bool) : (finishTree s r k b).params = s.params := rfl
@[simp] theorem finishTree_arg0 (r k : Index) (b : Bool) : (finishTree s r k b).arg0 = s.arg0 := rfl
@[simp] theorem finishTree_arg1 (r k : Index) (b : Bool) : (finishTree s r k b).arg1 = s.arg1 := rfl
@[simp] theorem finishTree_res0 (r k : Index) (b : Bool) : (finishTree s r k b).res0 = zext r := rfl
@[simp] theorem finishTree_res1 (r k : Index) (b : Bool) : (finishTree s r k b).res1 = zext k := rfl
@[simp] theorem finishTree_res2 (r k : Index) (b : Bool) : (finishTree s r k b).res2 = BitVec.ofNat 32 s.nsyms := rfl
@[simp] theorem finishTree_res3 (r k : Index) (b : Bool) : (finishTree s r k b).res3 = s.res3 := rfl
@[simp] theorem finishTree_err (r k : Index) (b : Bool) : (finishTree s r k b).err = .ok := rfl
@[simp] theorem finishTree_drop (r k : Index) (b : Bool) : (finishTree s r k b).drop = s.drop := rfl
@[simp] theorem finishTree_phit (r k : Index) (b : Bool) : (finishTree s r k b).phit = s.phit := rfl
@[simp] theorem finishTree_sat (r k : Index) (b : Bool) : (finishTree s r k b).sat = (s.sat || b) := rfl
@[simp] theorem finishTree_ft (r k : Index) (b : Bool) : (finishTree s r k b).ft = s.ft := rfl
@[simp] theorem finishTree_tv (r k : Index) (b : Bool) : (finishTree s r k b).tv = true := rfl
@[simp] theorem finishTree_root (r k : Index) (b : Bool) : (finishTree s r k b).root = r := rfl
@[simp] theorem finishTree_nnodes (r k : Index) (b : Bool) : (finishTree s r k b).nnodes = k := rfl
@[simp] theorem finishTree_nodes (r k : Index) (b : Bool) : (finishTree s r k b).nodes = s.nodes := rfl
@[simp] theorem finishTree_pq (r k : Index) (b : Bool) : (finishTree s r k b).pq = s.pq := rfl
@[simp] theorem finishTree_cursor (r k : Index) (b : Bool) : (finishTree s r k b).cursor = r := rfl
@[simp] theorem finishTree_depth (r k : Index) (b : Bool) : (finishTree s r k b).depth = 0 := rfl
@[simp] theorem finishTree_outq (r k : Index) (b : Bool) : (finishTree s r k b).outq = s.outq := rfl
@[simp] theorem finishTree_eng (r k : Index) (b : Bool) : (finishTree s r k b).eng = .idle := rfl
@[simp] theorem finishTree_cmdl (r k : Index) (b : Bool) : (finishTree s r k b).cmdl = s.cmdl := rfl
@[simp] theorem finishTree_a0l (r k : Index) (b : Bool) : (finishTree s r k b).a0l = s.a0l := rfl
@[simp] theorem finishTree_a1l (r k : Index) (b : Bool) : (finishTree s r k b).a1l = s.a1l := rfl
@[simp] theorem finishTree_nextIdx (r k : Index) (b : Bool) : (finishTree s r k b).nextIdx = s.nextIdx := rfl
@[simp] theorem finishTree_ia (r k : Index) (b : Bool) : (finishTree s r k b).ia = s.ia := rfl
@[simp] theorem finishTree_ib (r k : Index) (b : Bool) : (finishTree s r k b).ib = s.ib := rfl
@[simp] theorem finishTree_seedi (r k : Index) (b : Bool) : (finishTree s r k b).seedi = s.seedi := rfl
@[simp] theorem finishTree_satp (r k : Index) (b : Bool) : (finishTree s r k b).satp = s.satp := rfl
@[simp] theorem finishTree_host (r k : Index) (b : Bool) : (finishTree s r k b).host = s.host := rfl
@[simp] theorem finishTree_reads (r k : Index) (b : Bool) : (finishTree s r k b).reads = s.reads := rfl
@[simp] theorem finishTree_turns (r k : Index) (b : Bool) : (finishTree s r k b).turns = s.turns := rfl
@[simp] theorem finishTree_draws (r k : Index) (b : Bool) : (finishTree s r k b).draws = s.draws := rfl

/-! ### finishDec -/

@[simp] theorem finishDec_params (w : Walk) (out : List Word) : (finishDec s w out).params = s.params := rfl
@[simp] theorem finishDec_arg0 (w : Walk) (out : List Word) : (finishDec s w out).arg0 = s.arg0 := rfl
@[simp] theorem finishDec_arg1 (w : Walk) (out : List Word) : (finishDec s w out).arg1 = s.arg1 := rfl
@[simp] theorem finishDec_res0 (w : Walk) (out : List Word) : (finishDec s w out).res0 = BitVec.ofNat 32 out.length := rfl
@[simp] theorem finishDec_res1 (w : Walk) (out : List Word) : (finishDec s w out).res1 = out.getLast?.getD 0 := rfl
@[simp] theorem finishDec_res2 (w : Walk) (out : List Word) : (finishDec s w out).res2 = s.res2 := rfl
@[simp] theorem finishDec_res3 (w : Walk) (out : List Word) : (finishDec s w out).res3 = s.res3 := rfl
@[simp] theorem finishDec_err (w : Walk) (out : List Word) : (finishDec s w out).err = .ok := rfl
@[simp] theorem finishDec_drop (w : Walk) (out : List Word) : (finishDec s w out).drop = s.drop := rfl
@[simp] theorem finishDec_phit (w : Walk) (out : List Word) : (finishDec s w out).phit = w.phit := rfl
@[simp] theorem finishDec_sat (w : Walk) (out : List Word) : (finishDec s w out).sat = s.sat := rfl
@[simp] theorem finishDec_ft (w : Walk) (out : List Word) : (finishDec s w out).ft = s.ft := rfl
@[simp] theorem finishDec_tv (w : Walk) (out : List Word) : (finishDec s w out).tv = s.tv := rfl
@[simp] theorem finishDec_root (w : Walk) (out : List Word) : (finishDec s w out).root = s.root := rfl
@[simp] theorem finishDec_nnodes (w : Walk) (out : List Word) : (finishDec s w out).nnodes = s.nnodes := rfl
@[simp] theorem finishDec_nodes (w : Walk) (out : List Word) : (finishDec s w out).nodes = s.nodes := rfl
@[simp] theorem finishDec_pq (w : Walk) (out : List Word) : (finishDec s w out).pq = s.pq := rfl
@[simp] theorem finishDec_cursor (w : Walk) (out : List Word) : (finishDec s w out).cursor = w.cursor := rfl
@[simp] theorem finishDec_depth (w : Walk) (out : List Word) : (finishDec s w out).depth = w.depth := rfl
@[simp] theorem finishDec_outq (w : Walk) (out : List Word) : (finishDec s w out).outq = s.outq ++ out := rfl
@[simp] theorem finishDec_eng (w : Walk) (out : List Word) : (finishDec s w out).eng = .idle := rfl
@[simp] theorem finishDec_cmdl (w : Walk) (out : List Word) : (finishDec s w out).cmdl = s.cmdl := rfl
@[simp] theorem finishDec_a0l (w : Walk) (out : List Word) : (finishDec s w out).a0l = s.a0l := rfl
@[simp] theorem finishDec_a1l (w : Walk) (out : List Word) : (finishDec s w out).a1l = s.a1l := rfl
@[simp] theorem finishDec_nextIdx (w : Walk) (out : List Word) : (finishDec s w out).nextIdx = s.nextIdx := rfl
@[simp] theorem finishDec_ia (w : Walk) (out : List Word) : (finishDec s w out).ia = s.ia := rfl
@[simp] theorem finishDec_ib (w : Walk) (out : List Word) : (finishDec s w out).ib = s.ib := rfl
@[simp] theorem finishDec_seedi (w : Walk) (out : List Word) : (finishDec s w out).seedi = s.seedi := rfl
@[simp] theorem finishDec_satp (w : Walk) (out : List Word) : (finishDec s w out).satp = s.satp := rfl
@[simp] theorem finishDec_host (w : Walk) (out : List Word) : (finishDec s w out).host = s.host := rfl
@[simp] theorem finishDec_reads (w : Walk) (out : List Word) : (finishDec s w out).reads = s.reads := rfl
@[simp] theorem finishDec_turns (w : Walk) (out : List Word) : (finishDec s w out).turns = s.turns := rfl
@[simp] theorem finishDec_draws (w : Walk) (out : List Word) : (finishDec s w out).draws = s.draws := rfl

/-! ### hostRead -/

@[simp] theorem hostRead_params (r : Reg) : (hostRead r s).params = s.params := rfl
@[simp] theorem hostRead_arg0 (r : Reg) : (hostRead r s).arg0 = s.arg0 := rfl
@[simp] theorem hostRead_arg1 (r : Reg) : (hostRead r s).arg1 = s.arg1 := rfl
@[simp] theorem hostRead_res0 (r : Reg) : (hostRead r s).res0 = s.res0 := rfl
@[simp] theorem hostRead_res1 (r : Reg) : (hostRead r s).res1 = s.res1 := rfl
@[simp] theorem hostRead_res2 (r : Reg) : (hostRead r s).res2 = s.res2 := rfl
@[simp] theorem hostRead_res3 (r : Reg) : (hostRead r s).res3 = s.res3 := rfl
@[simp] theorem hostRead_err (r : Reg) : (hostRead r s).err = s.err := rfl
@[simp] theorem hostRead_drop (r : Reg) : (hostRead r s).drop = s.drop := rfl
@[simp] theorem hostRead_phit (r : Reg) : (hostRead r s).phit = s.phit := rfl
@[simp] theorem hostRead_sat (r : Reg) : (hostRead r s).sat = s.sat := rfl
@[simp] theorem hostRead_ft (r : Reg) : (hostRead r s).ft = s.ft := rfl
@[simp] theorem hostRead_tv (r : Reg) : (hostRead r s).tv = s.tv := rfl
@[simp] theorem hostRead_root (r : Reg) : (hostRead r s).root = s.root := rfl
@[simp] theorem hostRead_nnodes (r : Reg) : (hostRead r s).nnodes = s.nnodes := rfl
@[simp] theorem hostRead_nodes (r : Reg) : (hostRead r s).nodes = s.nodes := rfl
@[simp] theorem hostRead_pq (r : Reg) : (hostRead r s).pq = s.pq := rfl
@[simp] theorem hostRead_cursor (r : Reg) : (hostRead r s).cursor = s.cursor := rfl
@[simp] theorem hostRead_depth (r : Reg) : (hostRead r s).depth = s.depth := rfl
@[simp] theorem hostRead_outq (r : Reg) : (hostRead r s).outq = s.outq := rfl
@[simp] theorem hostRead_eng (r : Reg) : (hostRead r s).eng = s.eng := rfl
@[simp] theorem hostRead_cmdl (r : Reg) : (hostRead r s).cmdl = s.cmdl := rfl
@[simp] theorem hostRead_a0l (r : Reg) : (hostRead r s).a0l = s.a0l := rfl
@[simp] theorem hostRead_a1l (r : Reg) : (hostRead r s).a1l = s.a1l := rfl
@[simp] theorem hostRead_nextIdx (r : Reg) : (hostRead r s).nextIdx = s.nextIdx := rfl
@[simp] theorem hostRead_ia (r : Reg) : (hostRead r s).ia = s.ia := rfl
@[simp] theorem hostRead_ib (r : Reg) : (hostRead r s).ib = s.ib := rfl
@[simp] theorem hostRead_seedi (r : Reg) : (hostRead r s).seedi = s.seedi := rfl
@[simp] theorem hostRead_satp (r : Reg) : (hostRead r s).satp = s.satp := rfl
@[simp] theorem hostRead_host (r : Reg) : (hostRead r s).host = s.host := rfl
@[simp] theorem hostRead_reads (r : Reg) : (hostRead r s).reads = s.readReg r :: s.reads := rfl
@[simp] theorem hostRead_turns (r : Reg) : (hostRead r s).turns = s.turns := rfl
@[simp] theorem hostRead_draws (r : Reg) : (hostRead r s).draws = if s.busy then s.draws + 1 else s.draws := rfl

end Sys2Proof.Machine
end

