-- ==== Sys2Proof/Laws/Table.lean ====
section
/-! SUPPORT. The frequency table: what `find` answers and what a write does to the table (spec/40_frequency.md R120,
R121, R124). -/

namespace Sys2Proof.Machine

/-- `find(x)` answers `none` exactly when no valid entry holds `x`. -/
theorem ftFind_none_iff (ft : List FtEntry) (x : Word) : ftFind ft x = none ↔ ∀ e ∈ ft, e.sym ≠ x := by
  simp [ftFind, List.findIdx?_eq_none_iff]

/-- What an answer of `find(x)` says: a valid entry that holds `x`. -/
theorem ftFind_some {ft : List FtEntry} {x : Word} {i : Nat} (h : ftFind ft x = some i) :
    ∃ c, ft[i]? = some ⟨x, c⟩ := by
  rw [ftFind, List.findIdx?_eq_some_iff_getElem] at h
  obtain ⟨hi, hx, -⟩ := h
  exact ⟨ft[i].count, by rw [List.getElem?_eq_getElem hi]; simp at hx; rw [← hx]⟩

/-- With distinct symbols, `find` answers the one entry that holds the symbol. -/
theorem ftFind_of_entry {ft : List FtEntry} {i : Nat} {e : FtEntry} (hd : (ft.map FtEntry.sym).Nodup)
    (h : ft[i]? = some e) : ftFind ft e.sym = some i := by
  rw [ftFind, List.findIdx?_eq_some_iff_getElem]
  obtain ⟨hi, rfl⟩ := List.getElem?_eq_some_iff.1 h
  refine ⟨hi, by simp, fun j hj hs => ?_⟩
  have hlt : j < ft.length := Nat.lt_trans hj hi
  have hji : (⟨j, by simpa using hlt⟩ : Fin (ft.map FtEntry.sym).length) = ⟨i, by simpa using hi⟩ :=
    List.nodup_iff_injective_get.1 hd (by simpa using hs)
  have : j = i := by simpa using hji
  omega

/-- A valid entry reads as itself. -/
theorem ftRead_of_entry {ft : List FtEntry} {i : Nat} {e : FtEntry} (h : ft[i]? = some e) : ftRead ft i = e := by
  simp [ftRead, h]

/-- A write to the entry `find` answered keeps the table's symbols. -/
theorem ftWrite_syms {ft : List FtEntry} {x c : Word} {i : Nat} (h : ftFind ft x = some i) :
    (ftWrite ft i ⟨x, c⟩).map FtEntry.sym = ft.map FtEntry.sym := by
  obtain ⟨c', hc⟩ := ftFind_some h
  obtain ⟨hi, hx⟩ := List.getElem?_eq_some_iff.1 hc
  simp only [ftWrite, hi, if_true, List.map_set]
  refine List.ext_getElem (by simp) fun j h1 h2 => ?_
  rw [List.getElem_set]
  split
  · subst_vars; simp [hx]
  · rfl

/-- A write at NSYMS appends. -/
theorem ftWrite_append (ft : List FtEntry) (e : FtEntry) : ftWrite ft ft.length e = ft ++ [e] := by
  simp [ftWrite]

/-- Appending a symbol that is absent keeps the symbols distinct. -/
theorem ftWrite_append_nodup {ft : List FtEntry} {x c : Word} (hd : (ft.map FtEntry.sym).Nodup)
    (h : ftFind ft x = none) : ((ftWrite ft ft.length ⟨x, c⟩).map FtEntry.sym).Nodup := by
  rw [ftFind_none_iff] at h
  rw [ftWrite_append, List.map_append, List.nodup_append]
  refine ⟨hd, by simp, fun a ha b hb => ?_⟩
  obtain ⟨e, he, rfl⟩ := List.mem_map.1 ha
  simp at hb
  exact hb ▸ h e he

end Sys2Proof.Machine
end

