-- ==== Sys2Proof/Laws/Tree.lean ====
section
/-! SUPPORT. The held tree (spec/10_state.md R39, R40): `tree(i)` is defined for its nodes, and what the decoder's walk
does in it (spec/44_decoder.md R202). -/

namespace Sys2Proof.Safety

open Sys2Proof.Machine

theorem IsTree.root_lt {m : Memory} {n : Nat} {root : Index} (h : IsTree m n root) : root.toNat < n := by
  simpa using h.parents.mem_iff.1 List.mem_cons_self

/-- The children of a FORK have smaller indices (R40). -/
theorem IsTree.child_lt {m : Memory} {n : Nat} {root i : Index} (h : IsTree m n root) (hi : i.toNat < n)
    (hk : (nodeRead m i).kind = .fork) :
    (nodeRead m i).left.toNat < i.toNat ∧ (nodeRead m i).right.toNat < i.toNat := by
  rcases h.nodes i.toNat hi with h | ⟨x, h⟩ | ⟨a, b, ha, hb, h⟩
  · rw [nodeRead_of_nodeAt h] at hk
    simp [placeholderEntry] at hk
  · rw [nodeRead_of_nodeAt h] at hk
    simp [leafEntry] at hk
  · rw [nodeRead_of_nodeAt h]
    exact ⟨ha, hb⟩

theorem IsTree.treeAt_isSome {m : Memory} {n : Nat} {root : Index} (h : IsTree m n root) (fuel : Nat) (i : Index)
    (hi : i.toNat < n) (hf : i.toNat < fuel) : ∃ t, treeAt m fuel i = some t := by
  induction fuel generalizing i with
  | zero => omega
  | succ f ih =>
    simp only [treeAt]
    cases hk : (nodeRead m i).kind with
    | leaf => exact ⟨_, rfl⟩
    | placeholder => exact ⟨_, rfl⟩
    | fork =>
      obtain ⟨h1, h2⟩ := h.child_lt hi hk
      obtain ⟨l, hl⟩ := ih _ (by omega) (by omega : (nodeRead m i).left.toNat < f)
      obtain ⟨r, hr⟩ := ih _ (by omega) (by omega : (nodeRead m i).right.toNat < f)
      simp [hl, hr]

/-- The tree at ROOT is defined. -/
theorem IsTree.treeOf_isSome {m : Memory} {n : Nat} {root : Index} (h : IsTree m n root) :
    ∃ t, treeOf m root = some t := h.treeAt_isSome _ _ h.root_lt (by omega)

/-- More levels of fuel do not change a tree that is defined. -/
theorem treeAt_mono {m : Memory} {f g : Nat} {i : Index} {t : Tree} (h : treeAt m f i = some t) (hfg : f ≤ g) :
    treeAt m g i = some t := by
  induction f generalizing g i t with
  | zero => simp [treeAt] at h
  | succ f ih =>
    obtain ⟨g, rfl⟩ : ∃ k, g = k + 1 := ⟨g - 1, by omega⟩
    simp only [treeAt] at h ⊢
    cases hk : (nodeRead m i).kind with
    | leaf => simpa [hk] using h
    | placeholder => simpa [hk] using h
    | fork =>
      simp only [hk] at h ⊢
      cases hl : treeAt m f (nodeRead m i).left with
      | none => simp [hl] at h
      | some l =>
        cases hr : treeAt m f (nodeRead m i).right with
        | none => simp [hl, hr] at h
        | some r =>
          simp only [hl, hr] at h
          have hfg' : f ≤ g := by omega
          rw [ih hl hfg', ih hr hfg']
          exact h

/-- Following bits from `i` goes to smaller indices, one level a bit. -/
theorem IsTree.descend_le {m : Memory} {n : Nat} {root : Index} (h : IsTree m n root) {bits : List Bool} {i c : Index}
    (hi : i.toNat < n) (hd : descend m i bits = some c) : c.toNat + bits.length ≤ i.toNat := by
  induction bits generalizing i with
  | nil =>
    simp only [descend, Option.some.injEq] at hd
    subst hd
    simp
  | cons b bits ih =>
    simp only [descend] at hd
    cases hk : (nodeRead m i).kind with
    | leaf => simp [hk] at hd
    | placeholder => simp [hk] at hd
    | fork =>
      obtain ⟨h1, h2⟩ := h.child_lt hi hk
      simp only [hk] at hd
      have hlt : (if b = true then (nodeRead m i).right else (nodeRead m i).left).toNat < i.toNat := by
        split <;> assumption
      have := ih (by omega) hd
      simp only [List.length_cons]
      omega

/-- One more bit from a FORK. -/
theorem descend_snoc {m : Memory} {bits : List Bool} {i c : Index} (b : Bool) (hd : descend m i bits = some c)
    (hk : (nodeRead m c).kind = .fork) :
    descend m i (bits ++ [b]) = some (if b then (nodeRead m c).right else (nodeRead m c).left) := by
  induction bits generalizing i with
  | nil =>
    simp only [descend, Option.some.injEq] at hd
    subst hd
    simp [descend, hk]
  | cons a bits ih =>
    simp only [descend, List.cons_append] at hd ⊢
    cases hki : (nodeRead m i).kind with
    | leaf => simp [hki] at hd
    | placeholder => simp [hki] at hd
    | fork =>
      simp only [hki] at hd ⊢
      exact ih hd

/-- The decoder's walk stands at a FORK, and DEPTH is its depth in the tree (R43). -/
structure WalkOk (m : Memory) (root : Index) (w : Walk) (pend : List Bool) : Prop where
  fork : (nodeRead m w.cursor).kind = .fork
  path : descend m root pend = some w.cursor
  depth : w.depth.toNat = pend.length

/-- The walk at the root of a tree. -/
theorem IsTree.walkOk_root {m : Memory} {n : Nat} {root : Index} (h : IsTree m n root) (ph : Bool) :
    WalkOk m root { cursor := root, depth := 0, phit := ph } [] := ⟨h.rootFork, rfl, rfl⟩

/-- One bit keeps the walk in the tree (spec/44_decoder.md R202): back at the root, or one level down at a FORK. -/
theorem IsTree.walkBit_ok {m : Memory} {n : Nat} {root : Index} (h : IsTree m n root) {w : Walk} {pend : List Bool}
    (hw : WalkOk m root w pend) (b : Bool) :
    WalkOk m root (walkBit m root b w).1 [] ∨ WalkOk m root (walkBit m root b w).1 (pend ++ [b]) := by
  simp only [walkBit]
  split
  · exact .inl ⟨h.rootFork, rfl, rfl⟩
  · exact .inl ⟨h.rootFork, rfl, rfl⟩
  · rename_i hk
    refine .inr ⟨hk, descend_snoc b hw.path hw.fork, ?_⟩
    have h1 := h.descend_le h.root_lt (descend_snoc b hw.path hw.fork)
    have h2 := root.isLt
    simp only [List.length_append, List.length_cons, List.length_nil] at h1 ⊢
    rw [← hw.depth] at h1 ⊢
    simp only [BitVec.toNat_add]
    simp
    omega

/-- Any bits keep the walk in the tree. -/
theorem IsTree.walkBits_ok {m : Memory} {n : Nat} {root : Index} (h : IsTree m n root) (bits : List Bool) {w : Walk}
    {pend : List Bool} (hw : WalkOk m root w pend) : ∃ pend', WalkOk m root (walkBits m root bits w).1 pend' := by
  induction bits generalizing w pend with
  | nil => exact ⟨pend, hw⟩
  | cons b bits ih =>
    simp only [walkBits]
    rcases h.walkBit_ok hw b with h1 | h1
    · exact ih h1
    · exact ih h1

/-- A bit emits one symbol at most, so a walk emits at most as many symbols as it consumes bits (R200). -/
theorem walkBits_length_le (m : Memory) (root : Index) (bits : List Bool) (w : Walk) :
    (walkBits m root bits w).2.length ≤ bits.length := by
  induction bits generalizing w with
  | nil => simp [walkBits]
  | cons b bits ih =>
    simp only [walkBits, List.length_append, List.length_cons]
    have := ih (walkBit m root b w).1
    have : (walkBit m root b w).2.toList.length ≤ 1 := by cases (walkBit m root b w).2 <;> simp
    omega

end Sys2Proof.Safety
end

