-- ==== Sys2Proof/Laws/Invariant.lean ====
section
/-! SUPPORT. What BUILD answers, said once; and the invariant under the parts of a step that are not a command's
completion: the environment, a latch, an issue, a host write, the reset input. -/

namespace Sys2Proof.Safety

open Sys2Proof.Machine

/-- BUILD on a table with entries: the state it answers, the tree's size and place, what it leaves of the node memory,
and that what it leaves is one tree over the table's leaves. -/
theorem execBuild_spec {s : State} (h0 : s.ft ≠ []) (hft : s.ft.length ≤ 32768) :
    ∃ m r k sp, execBuild s = .next (finishTree { s with nodes := m, pq := [] } r k sp) ∧
    (s.ft.length = 1 → k.toNat = 3 ∧ r.toNat = 2) ∧
    (2 ≤ s.ft.length → k.toNat = 2 * s.ft.length - 1 ∧ r.toNat = 2 * s.ft.length - 2) ∧
    (∀ j, k.toNat ≤ j → nodeAt? m j = nodeAt? s.nodes j) ∧ (Memory.wf s.nodes → Memory.wf m) ∧
    (∀ c, k.toNat ≤ c → (∀ e ∈ s.nodes, e.1 < c) → ∀ e ∈ m, e.1 < c) ∧
    ((s.ft.map FtEntry.sym).Nodup → IsTree m k.toNat r) ∧
    (∀ (e : Nat) (x : FtEntry), s.ft[e]? = some x → nodeAt? m e = some (leafEntry x)) := by
  obtain ⟨a, ha, hf, hu⟩ := buildMerged_forest h0 hft
  have hpos := List.length_pos_iff.2 h0
  have hpop : pqPop (buildMerged s).nodes [a] = some (a, []) := by simp [pqPop, pqMin]
  obtain ⟨hk, har, -, hfork, hleaf⟩ := hf.last
  have hn : ¬ s.nsyms = 0 := by simp only [State.nsyms]; omega
  by_cases h1 : s.ft.length = 1
  · have hnx : (buildMerged s).next = 1 := BitVec.eq_of_toNat_eq (by rw [hk, h1]; rfl)
    rw [hnx] at hf
    obtain ⟨t1, t2, t3, t4, t5, t6⟩ := fixup_tree hf h1
    refine ⟨(fixup (buildMerged s).nodes a 1).1, 2, 3, (buildMerged s).satp, ?_, fun _ => ⟨rfl, rfl⟩,
      fun h => by omega, ?_, ?_, ?_, fun _ => t1, t3⟩
    · simp only [execBuild, hn, if_false, ha, hpop, hnx]
      rw [← Prod.mk.eta (p := fixup (buildMerged s).nodes a 1), t2]
    · intro j hj
      change 3 ≤ j at hj
      rw [t4 j hj, hu.above j (by omega)]
    · exact fun hw => t5 (hu.wf hw)
    · intro c hc hm
      change 3 ≤ c at hc
      exact t6 c hc (hu.cap c (by omega) hm)
  · have hfx := fixup_fork (next := (buildMerged s).next) (hfork (by omega))
    refine ⟨(buildMerged s).nodes, a, (buildMerged s).next, (buildMerged s).satp, ?_, fun h => by omega,
      fun _ => by omega, ?_, hu.wf, ?_, fun hd => hf.tree (by omega) hd, hf.leaves⟩
    · simp only [execBuild, hn, if_false, ha, hpop, hfx]
    · intro j hj
      exact hu.above j (by omega)
    · intro c hc hm
      exact hu.cap c (by omega) hm

theorem Inv.ft_length_le {s : State} (h : Inv s) : s.ft.length ≤ 32768 := by
  have := h.ftCap; have := h.params.2.1; omega

/-- NODE has room for the `2n - 1` nodes of a table's tree. -/
theorem Inv.nodeCap_ge {s : State} (h : Inv s) : 2 * s.ft.length - 1 ≤ s.params.nodeCap := by
  have := h.ftCap; simp only [Params.nodeCap]; omega

/-- NODE has room for a single-symbol tree. -/
theorem Inv.nodeCap_ge_three {s : State} (h : Inv s) : 3 ≤ s.params.nodeCap := by
  have := h.params.1; simp only [Params.nodeCap]; omega

/-- The invariant says nothing of the environment. -/
theorem Inv.of_env {s : State} (h : Inv s) (a : List HostOp) (b : List Word) (c : List Turn) (d : Nat) :
    Inv { s with host := a, reads := b, turns := c, draws := d } :=
  ⟨h.1, h.2, h.3, h.4, h.5, h.6, h.7, h.8, h.9, h.10⟩

/-- The invariant of a state whose stores are those of another. -/
theorem Inv.of_stores {s t : State} (h : Inv s) (hp : t.params = s.params) (hf : t.ft = s.ft) (ho : t.outq = s.outq)
    (hn : t.nodes = s.nodes) (hq : t.pq = s.pq) (htv : t.tv = s.tv) (hr : t.root = s.root)
    (hnn : t.nnodes = s.nnodes) (hc : t.cursor = s.cursor) (hd : t.depth = s.depth) (he : EngineOk t) : Inv t :=
  ⟨hp ▸ h.1, hf ▸ h.2, by rw [hf, hp]; exact h.3, by rw [ho, hp]; exact h.4, hn ▸ h.5, by rw [hn, hp]; exact h.6,
    hq ▸ h.7, by rw [hq, hp]; exact h.8, by rw [htv, hr, hnn, hc, hd]; exact h.9, he⟩

/-- An issue from an idle state keeps the invariant. -/
theorem Inv.issue {s : State} (h : Inv s) (he : s.eng = .idle) (v : Word) : Inv (issue v s) := by
  have hE := h.engine
  simp only [EngineOk, he] at hE
  have hx : Inv (latchExec v s) := h.of_stores rfl rfl rfl rfl rfl rfl rfl rfl rfl rfl hE
  simp only [Machine.issue]
  split
  · split
    · refine ⟨h.1, h.2, h.3, h.4, h.5, h.6, by simp [buildIssue], by simp [buildIssue], h.9, ?_⟩
      have := h.ft_length_le
      by_cases hz : s.ft.length = 0
      · simp only [EngineOk, buildIssue, latch, State.nsyms, hz, if_true]
        exact ⟨trivial, fun hh => absurd rfl hh⟩
      · simp only [EngineOk, buildIssue, latch, State.nsyms, hz, if_false]
        refine ⟨?_, ?_, rfl, fun i hi => absurd hi (by simp)⟩
        · show 0 < _; omega
        · simp; omega
    · exact hx
  · exact hx

/-- A host write keeps the invariant, idle or busy. -/
theorem Inv.hostWrite {s : State} (h : Inv s) (r : Reg) (v : Word) : Inv (hostWrite r v s) := by
  cases r <;> simp only [Machine.hostWrite] <;> try exact h
  · split
    · exact ⟨h.1, h.2, h.3, h.4, h.5, h.6, h.7, h.8, h.9, h.10⟩
    · rename_i hb
      exact h.issue (by simpa [State.busy] using hb) v
  · exact ⟨h.1, h.2, h.3, h.4, h.5, h.6, h.7, h.8, h.9, h.10⟩
  · exact ⟨h.1, h.2, h.3, h.4, h.5, h.6, h.7, h.8, h.9, h.10⟩
  · exact ⟨h.1, h.2, h.3, h.4, h.5, h.6, h.7, h.8, h.9, h.10⟩

end Sys2Proof.Safety
end

