-- ==== Sys2Proof/Laws/PerInstr.lean ====
section
/-! SUPPORT. One law about every command as syntax: its word selects the row of the opcode map that carries its opcode
(spec/30_encoding.md R91, R92). -/

namespace Sys2Proof.Laws

/-- The word of a well-formed command selects a row of the opcode map. -/
def EncodedRow.Statement (i : Instr) : Prop :=
  i.wellFormed = true → ∃ r ∈ opcodeTable, r.selects (encode i) = true

theorem EncodedRow.nop : EncodedRow.Statement .nop := fun _ => by decide
theorem EncodedRow.clear : EncodedRow.Statement .clear := fun _ => by decide
theorem EncodedRow.count : EncodedRow.Statement .count := fun _ => by decide
theorem EncodedRow.fset : EncodedRow.Statement .fset := fun _ => by decide
theorem EncodedRow.fread : EncodedRow.Statement .fread := fun _ => by decide
theorem EncodedRow.build : EncodedRow.Statement .build := fun _ => by decide
theorem EncodedRow.nread : EncodedRow.Statement .nread := fun _ => by decide

theorem EncodedRow.code (k : Nat) : EncodedRow.Statement (.code k) := fun _ => by
  refine ⟨_, List.mem_of_getElem? (i := 7) rfl, ?_⟩
  simp only [Row.selects, encode, beq_iff_eq]
  generalize BitVec.ofNat 16 k = x
  refine BitVec.eq_of_getLsbD_eq fun i hi => ?_
  simp only [BitVec.getLsbD_and, BitVec.getLsbD_append]
  interval_cases i <;> simp

theorem EncodedRow.dec (n : Nat) : EncodedRow.Statement (.dec n) := fun h => by
  have hn : n < 64 := by simpa [Instr.wellFormed] using h
  interval_cases n <;> decide

theorem EncodedRow.drst : EncodedRow.Statement .drst := fun _ => by decide
theorem EncodedRow.pop : EncodedRow.Statement .pop := fun _ => by decide

end Sys2Proof.Laws
end

