-- ==== Sys2Proof/Tests/Slice0.lean ====
section
/-! SUPPORT. Tests: words written out from the encodings of spec/30_encoding.md, small steps with the results of
spec/95_test_vectors.md (V and S numbers), and for every statement with hypotheses a state and operands that meet them
all. -/

namespace Sys2Proof.Tests

open Sys2Proof Sys2Proof.Machine Sys2Proof.Safety

/-! ### Small states -/

/-- The reset state with a frequency table of (symbol, count) pairs. -/
def table (xs : List (Nat × Nat)) : State :=
  { State.reset with ft := xs.map fun p => ⟨BitVec.ofNat 32 p.1, BitVec.ofNat 32 p.2⟩ }

/-- The state a result leads to. -/
def after : Result → State
  | .next t => t
  | .fault _ => State.reset
  | .refused _ => State.reset

/-- A command with its operands latched. -/
def run (i : Instr) (a0 a1 : Nat) (s : State) : State :=
  after (exec i { s with a0l := BitVec.ofNat 32 a0, a1l := BitVec.ofNat 32 a1 })

/-- A state about to execute the latched word. -/
def latched (w : Word) (s : State) : State := { s with cmdl := w, eng := .exec }

/-- The table of "aab" (S1). -/
def aab : State := table [(0x61, 2), (0x62, 1)]

/-- The tree of "aab" (S1). -/
def aabTree : State := run .build 0 0 aab

/-- The tree of "aaaa" (S2). -/
def aaaaTree : State := run .build 0 0 (table [(0x61, 4)])

/-- The results of a command. -/
def results (s : State) : List Word := [s.res0, s.res1, s.res2, s.res3]

/-! ### WellFormed: each check refuses an ill-formed command -/

theorem test_code_chunk_too_large : (Instr.code 65536).wellFormed = false := by decide
theorem test_dec_count_too_large : (Instr.dec 64).wellFormed = false := by decide
theorem test_dec_zero_has_a_word : (Instr.dec 0).wellFormed = true := by decide

/-! ### Decoding: words written out from the formats Z, C and D (R91, R92) -/

theorem test_decode_nop : decode 0b00000000000000000000000000000000#32 = .ok .nop := by decide
theorem test_decode_clear : decode 0b00000000000000000000000000000001#32 = .ok .clear := by decide
theorem test_decode_count : decode 0b00000000000000000000000000000010#32 = .ok .count := by decide
theorem test_decode_fset : decode 0b00000000000000000000000000000011#32 = .ok .fset := by decide
theorem test_decode_fread : decode 0b00000000000000000000000000000100#32 = .ok .fread := by decide
theorem test_decode_build : decode 0b00000000000000000000000000010000#32 = .ok .build := by decide
theorem test_decode_nread : decode 0b00000000000000000000000000010001#32 = .ok .nread := by decide
theorem test_decode_code : decode 0b00000000000000110000000000100000#32 = .ok (.code 3) := by decide
theorem test_decode_dec : decode 0b00000000000000000001010000110000#32 = .ok (.dec 20) := by decide
theorem test_decode_drst : decode 0b00000000000000000000000000110001#32 = .ok .drst := by decide
theorem test_decode_pop : decode 0b00000000000000000000000000110010#32 = .ok .pop := by decide

/-- The ILLEGAL words of V1. -/
theorem test_decode_illegal :
    decode 0x00000120#32 = .error .mustBeZero ∧ decode 0x00004030#32 = .error .mustBeZero ∧
    decode 0x00000100#32 = .error .mustBeZero ∧ decode 0x80000010#32 = .error .mustBeZero ∧
    decode 0x00000005#32 = .error .unassignedOpcode ∧ decode 0x00000033#32 = .error .unassignedOpcode ∧
    decode 0x000000FF#32 = .error .unassignedOpcode := by decide

theorem test_table_word_shorter_than_32_bits : decodeTableWord 8 0x32 = some .pop := by decide
theorem test_table_word : decodeTableWord 32 0x00001430 = some (.dec 20) := by decide
theorem test_table_word_illegal : decodeTableWord 32 0x00004030 = none := by decide

/-! ### Steps -/

/-- V55. -/
theorem test_reset_reads :
    Reg.all.map State.reset.readReg = [0x48554601#32, 0x01200100#32, 0, 0, 0, 0, 0, 0, 0, 0, 0, 0, 0, 0, 0, 0] := by
  decide

/-- V55. -/
theorem test_cfg_of_the_largest_block :
    cfgWord { maxSyms := 32768, outqDepth := 255, base := 0 } = 0x01FF8000#32 := by decide

/-- V50. -/
theorem test_nop : (run .nop 0 0 { State.reset with err := .qempty }) = State.reset := by decide

/-- V51, with the tree of S1. -/
theorem test_clear : (run .clear 0 0 { aabTree with sat := true, arg0 := 7 }).status = 0x00040000#32 ∧
    (run .clear 0 0 { aabTree with sat := true, arg0 := 7 }).arg0 = 7 ∧
    (run .clear 0 0 aabTree).readIdle .tree = 0 := by decide

/-- V10, the fourth row: symbol 0 is an ordinary symbol. -/
theorem test_count_appends : (run .count 0 0 aab).ft = [⟨0x61, 2⟩, ⟨0x62, 1⟩, ⟨0, 1⟩] ∧
    results (run .count 0 0 aab) = [2, 1, 0, 0] := by decide

/-- V11. -/
theorem test_count_saturates : (run .count 0x61 0 (table [(0x61, 0xFFFFFFFF)])).status = 0x00040000#32 ∧
    results (run .count 0x61 0 (table [(0x61, 0xFFFFFFFF)])) = [0, 0xFFFFFFFF, 0, 0] := by decide

/-- V13. -/
theorem test_fset_replaces : (run .fset 0x61 7 aab).ft = [⟨0x61, 7⟩, ⟨0x62, 1⟩] := by decide

/-- V12. -/
theorem test_fset_full :
    (run .fset 0x63 5 { aab with params := { maxSyms := 2, outqDepth := 32, base := 0 } }).err = .full := by decide

/-- V13. -/
theorem test_fread : results (run .fread 0 0 aab) = [0x61, 2, 0, 0] := by decide

/-- V13: the index is not truncated to 16 bits. -/
theorem test_fread_index_is_32_bits : (run .fread 0x00010000 0 aab).err = .range := by decide

/-- S1. -/
theorem test_build_aab : results aabTree = [2, 3, 2, 0] ∧ aabTree.readIdle .tree = 0x00030002#32 ∧
    treeOf aabTree.nodes aabTree.root = some (.fork (.leaf 0x62) (.leaf 0x61)) := by decide

/-- V26: the saturating sum ties with a leaf, and the leaf pops first. -/
theorem test_build_saturates :
    (run .build 0 0 (table [(0x61, 0xFFFFFFFF), (0x62, 0xFFFFFFFF), (0x63, 1)])).status = 0x00040002#32 ∧
    buildTree (table [(0x61, 0xFFFFFFFF), (0x62, 0xFFFFFFFF), (0x63, 1)]).ft =
      some (.fork (.leaf 0x62) (.fork (.leaf 0x63) (.leaf 0x61))) := by decide

/-- V30. -/
theorem test_nread_fork : results (run .nread 2 0 aabTree) = [1, 0, 0x00000001, 3] := by decide

/-- V31. -/
theorem test_nread_placeholder : results (run .nread 1 0 aaaaTree) = [2, 0, 0, 0] := by decide

/-- S1: the code of a is `1`. -/
theorem test_code : results (run (.code 0) 0x61 0 aabTree) = [1, 1, 1, 0] := by decide

/-- V37: symbol 0 is not the placeholder. RES2 was written by BUILD before. -/
theorem test_code_absent : results (run (.code 0) 0 0 aaaaTree) = [0, 0, 0, 0] := by decide

/-- S1. -/
theorem test_dec : (run (.dec 3) 0x3 0 aabTree).outq = [0x61, 0x61, 0x62] ∧
    (run (.dec 3) 0x3 0 aabTree).res0 = 3 ∧ (run (.dec 3) 0x3 0 aabTree).res1 = 0x62 := by decide

/-- V43: the placeholder emits nothing and sets PHIT. -/
theorem test_dec_placeholder : (run (.dec 2) 0x2 0 aaaaTree).status = 0x00020102#32 ∧
    (run (.dec 2) 0x2 0 aaaaTree).res0 = 1 := by decide

/-- V43: decoding the bits 0, 1 in the tree of "aaaa" reaches the placeholder, and 0, 0 does not. -/
theorem test_decode_hits : decodeHits (.fork (.leaf 0x61) .placeholder) [false, true] = true ∧
    decodeHits (.fork (.leaf 0x61) .placeholder) [false, false] = false := by decide

/-- V16, the first row: the pairs popped for "abc". -/
theorem test_merge_pairs : (mergePairs 3 (seedElems (table [(0x61, 1), (0x62, 1), (0x63, 1)]).ft)) =
    [((1, .leaf 0x61), (1, .leaf 0x62)), ((1, .leaf 0x63), (2, .fork (.leaf 0x61) (.leaf 0x62)))] := by decide

/-- R101: a POLL made while busy stays, and its read is kept. -/
theorem test_poll_waits :
    hostStep { State.reset with eng := .exec, host := [.poll] } = .next { State.reset with
      eng := .exec, host := [.poll], draws := 1
      reads := [State.reset.statusBusy (Config.freeRead 0)] } := by
  simp [hostStep, hostRead, State.readReg, State.busy, State.readBusy, State.statusBusy, State.reset, State.resetWith]

/-- V45, in the tree of "abc" (V20): one pending bit is dropped. -/
theorem test_drst : (run .drst 0 0 (run (.dec 1) 1 0 (run .build 0 0 (table [(0x61, 1), (0x62, 1), (0x63, 1)])))).res0 = 1 ∧
    (run .drst 0 0 (run (.dec 1) 1 0 (run .build 0 0 (table [(0x61, 1), (0x62, 1), (0x63, 1)])))).readIdle .decst =
      0x00000004#32 := by decide

/-- V47. -/
theorem test_pop : (run .pop 0 0 { State.reset with outq := [0x61, 0x62] }).res0 = 0x61 ∧
    (run .pop 0 0 { State.reset with outq := [0x61, 0x62] }).outq = [0x62] := by decide

/-- V57: a CMD write while busy is dropped. -/
theorem test_write_while_busy : hostWrite .cmd 0 { State.reset with eng := .exec } =
    { State.reset with eng := .exec, drop := true } := by decide

/-- V58: operands latch at issue. -/
theorem test_operands_latch :
    (hostWrite .arg0 0x62 (hostWrite .cmd 0x2 (hostWrite .arg0 0x61 State.reset))).a0l = 0x61 := by decide

/-- The word placed for the next step is the one that runs. -/
theorem test_placed_word : step (State.reset.withFetchWord 32 0x31) =
    exec .drst (State.reset.withFetchWord 32 0x31) := rfl

/-- 30_encoding.md R102: the expansion of `COUNT 0x61`. -/
theorem test_expand_count : (Pseudo.count 0x61).expand Params.default =
    some [.wr ⟨0x10, .word⟩ 0x61, .wr ⟨0x08, .word⟩ 0x2, .poll] := by decide

/-- 30_encoding.md R102: an operand that does not fit is refused. -/
theorem test_expand_refuses : (Pseudo.dec 0 64).expand Params.default = none ∧
    (Pseudo.count (2 ^ 32)).expand Params.default = none := by decide

/-! ### Witnesses: states of the invariant -/

/-- The tree of "aab" is a tree in the sense of 10_state.md R40. -/
theorem aabTree_isTree : IsTree aabTree.nodes aabTree.nnodes.toNat aabTree.root where
  nodes := by
    intro i hi
    have : aabTree.nnodes.toNat = 3 := by decide
    have hi3 : i < 3 := by omega
    interval_cases i
    · exact .inr (.inl ⟨⟨0x61, 2⟩, by decide⟩)
    · exact .inr (.inl ⟨⟨0x62, 1⟩, by decide⟩)
    · exact .inr (.inr ⟨1, 0, by decide, by decide, by decide⟩)
  parents := by decide
  rootFork := by decide
  leaves := by decide

theorem aabTree_cursorOk : CursorOk aabTree := ⟨by decide, [], by decide, by decide⟩

/-- An idle state that holds a tree. -/
theorem aabTree_inv : Inv aabTree where
  params := by decide
  ftNodup := by decide
  ftCap := by decide
  outqCap := by decide
  nodesWf := by decide
  nodesCap := by decide
  pqSorted := by decide
  pqCap := by decide
  noTree := fun h => absurd h (by decide)
  engine := ⟨rfl, fun _ => ⟨aabTree_isTree, by decide, aabTree_cursorOk⟩⟩

/-- A state that holds a tree and is about to execute. -/
theorem aabTree_latched_inv (w : Word) : Inv (latched w aabTree) :=
  aabTree_inv.of_stores rfl rfl rfl rfl rfl rfl rfl rfl rfl rfl aabTree_inv.engine

theorem reset_inv : Inv State.reset where
  params := by decide
  ftNodup := by decide
  ftCap := by decide
  outqCap := by decide
  nodesWf := by decide
  nodesCap := by decide
  pqSorted := by decide
  pqCap := by decide
  noTree := fun _ => ⟨rfl, rfl, rfl, rfl⟩
  engine := ⟨rfl, fun h => absurd h (by decide)⟩

/-- The FSM's state after its two seeds of "aab", about to pop. -/
def popping : State := after (engineRun 2 (buildIssue aab))

/-- The FSM's state after its first pop. -/
def poppingB : State := after (engineRun 3 (buildIssue aab))

/-- The FSM's state after its merge, about to pop the last element. -/
def poppingLast : State := after (engineRun 5 (buildIssue aab))

/-- The leaves the FSM has seeded. -/
theorem aab_leaves {m : Memory} (h0 : nodeAt? m 0 = some (leafEntry ⟨0x61, 2⟩))
    (h1 : nodeAt? m 1 = some (leafEntry ⟨0x62, 1⟩)) (i : Nat) (x : FtEntry) (h : aab.ft[i]? = some x) :
    nodeAt? m i = some (leafEntry x) := by
  match i with
  | 0 => cases h; exact h0
  | 1 => cases h; exact h1
  | i + 2 => cases h

theorem popping_inv : Inv popping where
  params := by decide
  ftNodup := by decide
  ftCap := by decide
  outqCap := by decide
  nodesWf := by decide
  nodesCap := by decide
  pqSorted := by decide
  pqCap := by decide
  noTree := fun _ => ⟨rfl, rfl, rfl, rfl⟩
  engine := ⟨⟨by decide, aab_leaves (by decide) (by decide), fun i h1 h2 => by
    have : popping.nextIdx.toNat = 2 := by decide
    have : popping.ft.length = 2 := by decide
    omega, by decide⟩, by decide⟩

theorem poppingB_inv : Inv poppingB where
  params := by decide
  ftNodup := by decide
  ftCap := by decide
  outqCap := by decide
  nodesWf := by decide
  nodesCap := by decide
  pqSorted := by decide
  pqCap := by decide
  noTree := fun _ => ⟨rfl, rfl, rfl, rfl⟩
  engine := ⟨⟨by decide, aab_leaves (by decide) (by decide), fun i h1 h2 => by
    have : poppingB.nextIdx.toNat = 2 := by decide
    have : poppingB.ft.length = 2 := by decide
    omega, by decide⟩, by decide⟩

theorem poppingLast_inv : Inv poppingLast where
  params := by decide
  ftNodup := by decide
  ftCap := by decide
  outqCap := by decide
  nodesWf := by decide
  nodesCap := by decide
  pqSorted := by decide
  pqCap := by decide
  noTree := fun _ => ⟨rfl, rfl, rfl, rfl⟩
  engine := ⟨⟨by decide, aab_leaves (by decide) (by decide), fun i h1 h2 => by
    have : poppingLast.nextIdx.toNat = 3 := by decide
    have : poppingLast.ft.length = 2 := by decide
    obtain rfl : i = 2 := by omega
    exact ⟨1, 0, by decide, by decide, by decide⟩, by decide⟩, by decide⟩

/-! ### Witnesses: one for each statement with hypotheses, under the statement's name -/

theorem witness_DecodeOfEncodeIsTheCommand :
    (Instr.code 65535).wellFormed = true ∧ (Instr.dec 63).wellFormed = true := by decide

theorem witness_EncodeOfDecodeIsTheWord : decode 0xFFFF0020#32 = .ok (.code 65535) := by decide

theorem witness_IllegalWordCompletesWithErrSeven :
    decode (latched 0x00004030#32 State.reset).cmdl = .error .mustBeZero ∧
    (latched 0x00004030#32 State.reset).eng = .exec := by decide

theorem witness_ErrorPrecedence_full :
    let s := { aab with params := { maxSyms := 2, outqDepth := 32, base := 0 }, a0l := 0x63 }
    (∀ e ∈ s.ft, e.sym ≠ s.a0l) ∧ s.nsyms = s.params.maxSyms := by decide

theorem witness_ErrorPrecedence_ranges :
    (2 : Word).toNat ≥ aab.nsyms ∧ State.reset.nsyms = 0 ∧ State.reset.tv = false ∧ aabTree.tv = true ∧
    ({ aabTree with a0l := 3 } : State).a0l.toNat ≥ aabTree.nnodes.toNat ∧ State.reset.outq = [] := by decide

theorem witness_ErrorPrecedence_ovf :
    let s := { aabTree with outq := [1] }
    s.tv = true ∧ s.outq.length + 32 > s.params.outqDepth := by decide

theorem witness_ErrorsChangeNothingElse :
    exec .pop State.reset = .next (run .pop 0 0 State.reset) ∧ (run .pop 0 0 State.reset).err ≠ .ok ∧
    exec .build State.reset = .next (run .build 0 0 State.reset) ∧ (run .build 0 0 State.reset).err ≠ .ok :=
  ⟨rfl, by decide, rfl, by decide⟩

theorem witness_CountCountsOneOccurrence_present :
    let s := { aab with a0l := 0x62 }
    (s.ft.map FtEntry.sym).Nodup ∧ s.ft[1]? = some ⟨s.a0l, 1⟩ := by decide

theorem witness_CountCountsOneOccurrence_absent :
    let s := { aab with a0l := 0x63 }
    (∀ e ∈ s.ft, e.sym ≠ s.a0l) ∧ s.ft.length ≠ s.params.maxSyms := by decide

theorem witness_CountCountsOneOccurrence_full :
    let s := { aab with params := { maxSyms := 2, outqDepth := 32, base := 0 }, a0l := 0x63 }
    (∀ e ∈ s.ft, e.sym ≠ s.a0l) ∧ s.ft.length = s.params.maxSyms := by decide

/-- FSET's hypotheses are those of COUNT. -/
theorem witness_FsetSetsTheCount :
    let s := { aab with a0l := 0x61, a1l := 0 }
    (s.ft.map FtEntry.sym).Nodup ∧ s.ft[0]? = some ⟨s.a0l, 2⟩ := by decide

theorem witness_FreadReadsAnEntry :
    aab.ft[({ aab with a0l := 1 } : State).a0l.toNat]? = some ⟨0x62, 1⟩ ∧
    ({ aab with a0l := 2 } : State).a0l.toNat ≥ aab.nsyms := by decide

theorem witness_CountingASequenceGivesItsTable :
    State.reset.ft = [] ∧ (firstSeen [0x61, 0x62, 0x61]).length ≤ State.reset.params.maxSyms := by decide

theorem witness_KeyOrderIsTheStructuralOrder :
    ∀ x ∈ (QTree.leaf 1).leaves, x ∉ (QTree.fork (.leaf 0) (.leaf 2)).leaves := by simp [QTree.leaves]

theorem witness_PopminRemovesTheSmallest :
    popping.pq ≠ [] ∧ popping.pq.Nodup ∧ ∀ i ∈ popping.pq, ∀ j ∈ popping.pq, i ≠ j →
      keyBefore (nodeRead popping.nodes i) (nodeRead popping.nodes j) = true ∨
        keyBefore (nodeRead popping.nodes j) (nodeRead popping.nodes i) = true := by
  have hq : popping.pq = [0, 1] := by decide
  have hk : keyBefore (nodeRead popping.nodes 1) (nodeRead popping.nodes 0) = true := by decide
  rw [hq]
  refine ⟨by decide, by decide, fun i hi j hj hij => ?_⟩
  simp only [List.mem_cons, List.not_mem_nil, or_false] at hi hj
  rcases hi with rfl | rfl <;> rcases hj with rfl | rfl
  · exact absurd rfl hij
  · exact .inr hk
  · exact .inl hk
  · exact absurd rfl hij

theorem witness_QueueOrderIsStrict : (Inv popping ∧ popping.eng = .bPopA) ∧ (Inv poppingB ∧ poppingB.eng = .bPopB) ∧
    (Inv poppingLast ∧ poppingLast.eng = .bLast) :=
  ⟨⟨popping_inv, by decide⟩, ⟨poppingB_inv, by decide⟩, ⟨poppingLast_inv, by decide⟩⟩

theorem witness_BuildOfAnEmptyTableRaisesEmpty :
    (buildIssue State.reset).ft = [] ∧ (buildIssue State.reset).eng = .bDone := by decide

/-- A table of one entry and a table of two. -/
theorem witness_BuildCompletesWithATree :
    (table [(0x61, 4)]).ft.length = 1 ∧ aab.ft ≠ [] ∧ 2 ≤ aab.ft.length ∧ aab.ft.length ≤ 32768 := by decide

theorem witness_BuildComputesBuildTree :
    aab.ft ≠ [] ∧ aab.ft.length ≤ 32768 ∧ (aab.ft.map FtEntry.sym).Nodup ∧ ∃ t, exec .build aab = .next t :=
  ⟨by decide, by decide, by decide, _, rfl⟩

theorem witness_BuildLeavesAWellFormedTree :
    aab.ft ≠ [] ∧ aab.ft.length ≤ 32768 ∧ (aab.ft.map FtEntry.sym).Nodup ∧
    (∃ t, exec .build aab = .next t) ∧ aab.ft[1]? = some ⟨0x62, 1⟩ ∧
    (mergePairs aab.ft.length (seedElems aab.ft))[0]? = some ((1, .leaf 0x62), (2, .leaf 0x61)) ∧
    (table [(0x61, 4)]).ft.length = 1 ∧ ∃ t, exec .build (table [(0x61, 4)]) = .next t :=
  ⟨by decide, by decide, by decide, ⟨_, rfl⟩, by decide, by decide, by decide, _, rfl⟩

theorem witness_FsmComputesTheAtomicBuild : aab.ft.length ≤ 32768 ∧ aab.pq = [] := by decide

theorem witness_FsmStepsAreHiddenUntilDone : popping.eng ≠ .idle ∧ popping.eng ≠ .exec ∧ popping.eng ≠ .bDone ∧
    ∃ t, engineStep popping = .next t := ⟨by decide, by decide, by decide, _, rfl⟩

theorem witness_BuildTreeHoldsExactlyTheSymbols : aab.ft ≠ [] := by decide

theorem witness_BuildTreeIgnoresTableOrder :
    (aab.ft.map FtEntry.sym).Nodup ∧ aab.ft.Perm aab.ft.reverse ∧ aab.ft ≠ aab.ft.reverse := by decide

theorem witness_NreadReadsANode :
    let s := { aabTree with a0l := 2 }
    s.tv = true ∧ s.a0l.toNat < s.nnodes.toNat ∧
    ({ aabTree with a0l := 3 } : State).a0l.toNat ≥ aabTree.nnodes.toNat ∧ State.reset.tv = false := by decide

theorem witness_CodeReturnsAChunkOfTheCode : (65535 : Word).toNat < 65536 ∧ aabTree.tv = true ∧
    treeOf aabTree.nodes aabTree.root = some (.fork (.leaf 0x62) (.leaf 0x61)) ∧ State.reset.tv = false := by decide

theorem witness_CodeCompletesWhenATreeIsHeld : Inv (latched 0x00000020#32 aabTree) ∧
    (latched 0x00000020#32 aabTree).eng = .exec ∧ (latched 0x00000020#32 aabTree).tv = true :=
  ⟨aabTree_latched_inv _, rfl, by decide⟩

theorem witness_CodesArePrefixFree :
    (1 : Word) ≠ 2 ∧ path (.fork (.leaf 1) (.fork (.leaf 2) .placeholder)) 1 = some [false] ∧
    path (.fork (.leaf 1) (.fork (.leaf 2) .placeholder)) 2 = some [true, false] := by decide

theorem witness_CodeLengthsAreBounded :
    buildTree aab.ft = some (.fork (.leaf 0x62) (.leaf 0x61)) ∧ (0x61 : Word) ∈ aab.ft.map FtEntry.sym := by decide

/-- At the root with all 32 bits, OUTQ empty: the boundary of the OVF check. -/
theorem witness_DecEmitsWhatDecodeEmits :
    let s := aabTree
    let t := Tree.fork (.leaf 0x62) (.leaf 0x61)
    s.tv = true ∧ IsTree s.nodes s.nnodes.toNat s.root ∧ treeOf s.nodes s.root = some t ∧
    (nodeRead s.nodes s.cursor).kind = .fork ∧ descend s.nodes s.root [] = some s.cursor ∧
    s.depth.toNat = ([] : List Bool).length ∧ 1 ≤ 32 ∧ 32 ≤ 32 ∧ s.outq.length + 32 ≤ s.params.outqDepth :=
  ⟨by decide, aabTree_isTree, by decide, by decide, by decide, by decide, by decide, by decide, by decide⟩

theorem witness_OneDecoderStep :
    let a : Walk := { cursor := aabTree.root, depth := 0, phit := false }
    let b : Walk := { cursor := aaaaTree.root, depth := 0, phit := false }
    (nodeRead aabTree.nodes (nodeRead aabTree.nodes a.cursor).left).kind = .leaf ∧
    (nodeRead aaaaTree.nodes (nodeRead aaaaTree.nodes b.cursor).right).kind = .placeholder ∧
    (nodeRead (run .build 0 0 (table [(1, 1), (2, 1), (3, 1)])).nodes
      (nodeRead (run .build 0 0 (table [(1, 1), (2, 1), (3, 1)])).nodes 4).right).kind = .fork := by decide

theorem witness_DrstDropsThePendingBits : Inv State.reset ∧ State.reset.tv = false := ⟨reset_inv, rfl⟩

theorem witness_PopTakesTheOldestSymbol :
    ({ State.reset with outq := [7] } : State).outq = 7 :: [] ∧ State.reset.outq = [] := by decide

/-- Over the text [5], whose code is one bit: the procedures answer, and the bits are one chunk. -/
theorem witness_RoundTripOnTheMachine : Inv State.reset ∧ State.reset.eng = .idle ∧ [(5 : Word)] ≠ [] ∧
    (firstSeen [5]).length ≤ State.reset.params.maxSyms ∧
    (∃ s1 s2, buildText [5] State.reset = some s1 ∧ hostEncode [5] s1 = some ([false], s2)) ∧
    [[false]].flatten = [false] ∧ ∀ w ∈ [[false]], 1 ≤ w.length ∧ w.length ≤ 32 :=
  ⟨reset_inv, rfl, by decide, by decide, ⟨_, _, rfl, rfl⟩, rfl, by decide⟩

theorem witness_CommandsComplete :
    (∀ k, Instr.pop ≠ .code k) ∧ exec .pop State.reset = .next (run .pop 0 0 State.reset) :=
  ⟨nofun, rfl⟩

theorem witness_CommandsKeepArgumentsAndStickyFlags :
    exec (.dec 2) { aaaaTree with a0l := 2 } = .next (run (.dec 2) 2 0 aaaaTree) ∧
    (run (.dec 2) 2 0 aaaaTree).phit ≠ aaaaTree.phit ∧
    exec .count { table [(0x61, 0xFFFFFFFF)] with a0l := 0x61 } =
      .next (run .count 0x61 0 (table [(0x61, 0xFFFFFFFF)])) ∧
    (run .count 0x61 0 (table [(0x61, 0xFFFFFFFF)])).sat ≠ (table [(0x61, 0xFFFFFFFF)]).sat :=
  ⟨rfl, by decide, rfl, by decide⟩

theorem witness_CommandsChangeOnlyTheirStores : exec .drst aabTree = .next (run .drst 0 0 aabTree) := rfl

theorem witness_StepRunsTheLatchedCommand :
    (latched 0x31#32 State.reset).eng = .exec ∧ decode (latched 0x31#32 State.reset).cmdl = .ok .drst ∧
    (latched 0x31#32 State.reset).turns = [] ∧
    ({ latched 0x31#32 State.reset with turns := [.engine, .host] } : State).turns = .engine :: [.host] ∧
    (latched 0x33#32 State.reset).eng = .exec ∧
    decode (latched 0x33#32 State.reset).cmdl = .error .unassignedOpcode := by decide

theorem witness_PlacedWordIsTheNextCommand : decodeTableWord 32 0xFFFF0020 = some (.code 65535) := by decide

theorem witness_CmdWriteWhileIdleIssues :
    aab.eng = .idle ∧ decode 0x10#32 = .ok .build ∧ decode 0x33#32 ≠ .ok .build := by decide

theorem witness_CmdWriteWhileBusyIsDropped : popping.eng ≠ .idle := by decide

theorem witness_WritesHaveTheListedEffect :
    aab.eng = .idle ∧ popping.eng ≠ .idle ∧ Reg.res0 ≠ .cmd ∧ Reg.res0 ≠ .status ∧ Reg.res0 ≠ .arg0 ∧
    Reg.res0 ≠ .arg1 := by decide

theorem witness_ReadsAndIdleStepsChangeNothing :
    let s := { State.reset with host := [.rd ⟨0x3C, .word⟩] }
    s.host = .rd ⟨0x3C, .word⟩ :: [] ∧ hostStep s = .next { s with host := [], reads := [0] } ∧
    State.reset.turns = [] ∧ State.reset.host = [] ∧ State.reset.eng = .idle :=
  ⟨rfl, rfl, rfl, rfl, rfl⟩

theorem witness_IdleReadsAreTheRegisters : aabTree.params.wf ∧ aabTree.eng = .idle := by decide

theorem witness_BusyReadsKeepTheStatedFields : popping.eng ≠ .idle := by decide

/-- The first address below the block and the first above it, the first and the last register, an address in the block
that is no multiple of 4, and a narrow access. -/
theorem witness_OnlyAlignedWordAccessesHaveAStep :
    let p : Params := { maxSyms := 2, outqDepth := 32, base := 0x40 }
    (0x3F < p.base ∧ resolve p ⟨0x3F, .word⟩ = .error .outsideBlock) ∧
    (p.base + 0x40 ≤ 0x80 ∧ resolve p ⟨0x80, .word⟩ = .error .outsideBlock) ∧
    resolve p ⟨0x40, .word⟩ = .ok .id ∧ resolve p ⟨0x7C, .word⟩ = .ok .rsv3c ∧ (0x7F - p.base) % 4 ≠ 0 ∧
    resolve p ⟨0x7F, .word⟩ = .error .undefinedAccess ∧ resolve p ⟨0x40, .byte⟩ = .error .undefinedAccess := by
  decide

theorem witness_ArgumentWritesDoNotReachARunningCommand : ∃ t, engineStep popping = .next t := ⟨_, rfl⟩

theorem witness_WriteAndPollRunTheCommand :
    let s := { State.reset with host := wrOp State.reset.params .cmd (encode .drst) :: .poll :: [] }
    Instr.drst.wellFormed = true ∧ Instr.drst ≠ .build ∧ s.eng = .idle ∧ s.turns = [] ∧
    s.host = wrOp s.params .cmd (encode .drst) :: .poll :: [] ∧ ∃ t, command .drst s = .next t :=
  ⟨by decide, by decide, by decide, by decide, by decide, _, rfl⟩

theorem witness_WriteAndPollRunTheCommand_build :
    let s := { aab with host := wrOp aab.params .cmd (encode .build) :: .poll :: [] }
    s.eng = .idle ∧ s.turns = [] ∧ s.pq = [] ∧ s.ft.length ≤ 32768 ∧
    s.host = wrOp s.params .cmd (encode .build) :: .poll :: [] := by decide

theorem witness_WriteAndPollRunTheCommand_poll :
    let s := { popping with host := [.poll], turns := [.host] }
    s.host = .poll :: [] ∧ s.eng ≠ .idle ∧ s.turns = .host :: [] ∧
    ({ State.reset with host := [.poll] } : State).host = .poll :: [] ∧ State.reset.eng = .idle := by decide

theorem witness_ResetInputGivesTheResetState :
    ({ popping with turns := [.reset, .host] } : State).turns = .reset :: [.host] := rfl

theorem witness_ResetSatisfiesTheInvariant : Params.wf { maxSyms := 32768, outqDepth := 255, base := 0xFFFFFFC0 } := by
  decide

theorem witness_EveryStepKeepsTheInvariant : Inv popping ∧ ∃ t, step popping = .next t := ⟨popping_inv, _, rfl⟩

theorem witness_NoStepFaultsUnderTheInvariant : Inv poppingLast := poppingLast_inv

theorem witness_EveryCommandCompletes : Inv popping ∧ popping.eng ≠ .idle := ⟨popping_inv, by decide⟩

/-- Two reset states with different values in the unspecified registers. -/
theorem witness_UnspecifiedRegistersAreNeverObserved :
    let t := { State.reset with cmdl := 1, a0l := 2, a1l := 3, nextIdx := 4, ia := 5, ib := 6, seedi := 7, satp := true }
    SameButDead State.reset t ∧ State.reset ≠ t :=
  ⟨⟨rfl, nofun, nofun, nofun, nofun, nofun, nofun, nofun, nofun⟩, by decide⟩

end Sys2Proof.Tests
end

section
/-! The decoder reads every command back from its word, so a command issued and completed is its completion step
(spec/30_encoding.md R91 to R95, spec/70_reset_and_hazards.md R271, R273). -/

namespace Sys2Proof.Machine

/-- A word has the opcode of each row it selects: every mask covers bits 7:0 (R92). -/
theorem opcodeOf_of_selects {r : Row} {w : Word} (hr : r ∈ opcodeTable) (hs : r.selects w = true) :
    opcodeOf w = opcodeOf r.pattern := by
  have hmask : ∀ q ∈ opcodeTable, q.mask.extractLsb' 0 8 = BitVec.allOnes 8 := by decide
  simp only [Row.selects, beq_iff_eq] at hs
  rw [opcodeOf, opcodeOf, ← hs, BitVec.extractLsb'_and, hmask r hr, BitVec.and_allOnes]

/-- No two rows have the same opcode (R92). -/
theorem row_eq_of_opcode {r q : Row} (hr : r ∈ opcodeTable) (hq : q ∈ opcodeTable)
    (h : opcodeOf r.pattern = opcodeOf q.pattern) : r = q := by
  have hnodup : (opcodeTable.map fun r => opcodeOf r.pattern).Nodup := by decide
  exact List.inj_on_of_nodup_map hnodup hr hq h

/-- A word decodes as any row it selects says (R93): no other row selects it. -/
theorem decode_of_selects {r : Row} {w : Word} (hr : r ∈ opcodeTable) (hs : r.selects w = true) :
    decode w = .ok (r.read w) := by
  cases hf : opcodeTable.find? (fun q => q.selects w) with
  | none => exact absurd hs (by simpa using List.find?_eq_none.1 hf r hr)
  | some q =>
    have hq := List.mem_of_find?_eq_some hf
    have hqs : q.selects w = true := by simpa using List.find?_some hf
    obtain rfl : q = r :=
      row_eq_of_opcode hq hr ((opcodeOf_of_selects hq hqs).symm.trans (opcodeOf_of_selects hr hs))
    simp [decode, hf]

/-- CODE's word as a number: K above the opcode (R91, R95). -/
theorem toNat_encode_code {k : Nat} (hk : k < 65536) : (encode (.code k)).toNat = k * 65536 + 0x20 := by
  have h16 : (BitVec.ofNat 16 k ++ 0#8 : BitVec 24).toNat = k * 256 := by
    rw [BitVec.toNat_append, BitVec.toNat_ofNat, Nat.mod_eq_of_lt hk]
    simp [Nat.shiftLeft_eq]
  rw [encode, BitVec.toNat_append, h16, ← Nat.shiftLeft_add_eq_or_of_lt (BitVec.isLt _), Nat.shiftLeft_eq]
  simp
  omega

theorem opcodeOf_encode_code {k : Nat} (hk : k < 65536) : opcodeOf (encode (.code k)) = 0x20 := by
  simp only [opcodeOf, BitVec.extractLsb'_toNat, toNat_encode_code hk, Nat.shiftRight_zero]
  omega

theorem fieldK_encode_code {k : Nat} (hk : k < 65536) : fieldK (encode (.code k)) = k := by
  simp only [fieldK, BitVec.extractLsb'_toNat, toNat_encode_code hk, Nat.shiftRight_eq_div_pow]
  omega

/-- A word that selects a row and has CODE's opcode selects CODE's row. -/
theorem decode_encode_code {k : Nat} (hk : k < 65536) : decode (encode (.code k)) = .ok (.code k) := by
  obtain ⟨r, hr, hs⟩ := Laws.EncodedRow.code k (by simpa [Instr.wellFormed] using hk)
  have hop : opcodeOf r.pattern = 0x20 := (opcodeOf_of_selects hr hs).symm.trans (opcodeOf_encode_code hk)
  have hread : ∀ q ∈ opcodeTable, opcodeOf q.pattern = 0x20 → q.read = fun w => .code (fieldK w) := by
    simp [opcodeTable, opcodeOf]
  simp only [decode_of_selects hr hs, hread r hr hop, fieldK_encode_code hk]

/-- Decoding gives every well-formed command back from its word (R91 to R95). -/
theorem decode_encode {i : Instr} (h : i.wellFormed = true) : decode (encode i) = .ok i := by
  cases i with
  | code k => exact decode_encode_code (by simpa [Instr.wellFormed] using h)
  | dec n =>
    have hn : n < 64 := by simpa [Instr.wellFormed] using h
    interval_cases n <;> decide
  | nop | clear | count | fset | fread | build | nread | drst | pop => decide

/-- A command issued and completed is its completion step, its word and operands latched. -/
theorem command_eq_exec {i : Instr} (h : i.wellFormed = true) (s : State) :
    command i s = exec i (latchExec (encode i) s) := by
  simp only [command, runLatched, latchExec_cmdl, decode_encode h]

end Sys2Proof.Machine
end

section
/-! Bit sequences in registers (spec/30_encoding.md R98): what a packed word reads as, bit by bit, and that the chunks
of a code make up the code (spec/43_code_lookup.md R192). -/

namespace Sys2Proof.Machine

/-- Binary digit `i` of the number of a bit sequence is its bit `i`. -/
theorem testBit_natOfBits (bits : List Bool) (i : Nat) : (natOfBits bits).testBit i = bits[i]?.getD false := by
  induction bits generalizing i with
  | nil => simp [natOfBits]
  | cons b bits ih =>
    have hbit : natOfBits (b :: bits) = Nat.bit b (natOfBits bits) := by
      rw [natOfBits, Nat.bit_val, Nat.add_comm]
    cases i with
    | zero => simp [hbit]
    | succ i => simp [hbit, Nat.testBit_bit_succ, ih]

/-- Bit `i` of a chunk is bit `32k + i` of the code, and 0 past the code's end. -/
theorem getLsbD_chunkOf (code : List Bool) (k : Nat) {i : Nat} (hi : i < 32) :
    (chunkOf code k).getLsbD i = code[32 * k + i]?.getD false := by
  rw [chunkOf, BitVec.getLsbD_ofNat, testBit_natOfBits]
  simp [hi]

/-- DEC reads back the bits the host packed into A0. -/
theorem bitOperand_of_packed {s : State} {bits : List Bool} (hs : s.a0l = BitVec.ofNat 32 (natOfBits bits))
    (hl : bits.length ≤ 32) : s.bitOperand bits.length = bits := by
  refine List.ext_getElem (by simp [State.bitOperand]) fun i h1 h2 => ?_
  have hi : i < 32 := by omega
  simp [State.bitOperand, hs, BitVec.getLsbD_ofNat, testBit_natOfBits, hi, h2]

/-- The bits of the first chunk: the code's first 32 bits, then zeros. -/
theorem wordBits_chunkOf_zero (code : List Bool) :
    wordBits (chunkOf code 0) = code.take 32 ++ List.replicate (32 - code.length) false := by
  refine List.ext_getElem (by simp [wordBits]; omega) fun i h1 h2 => ?_
  have hi : i < 32 := by simpa [wordBits] using h1
  have hbit : (wordBits (chunkOf code 0))[i] = code[i]?.getD false := by
    simp only [wordBits, List.getElem_map, List.getElem_range, getLsbD_chunkOf code 0 hi, Nat.mul_zero, Nat.zero_add]
  refine hbit.trans ?_
  by_cases hc : i < code.length
  · simp [hi, hc]
  · rw [List.getElem_append_right (by simp; omega), List.getElem_replicate]
    simp [hc]

/-- The later chunks of a code are the chunks of what follows its first 32 bits. -/
theorem chunkOf_succ (code : List Bool) (k : Nat) : chunkOf code (k + 1) = chunkOf (code.drop 32) k := by
  simp [chunkOf, List.drop_drop, Nat.mul_add, Nat.add_comm]

/-- The bits of enough chunks, cut to the code's length, are the code (R192). -/
theorem take_chunks_eq_code {code : List Bool} {q : Nat} (hq : code.length ≤ 32 * q) :
    (((List.range q).map (chunkOf code)).flatMap wordBits).take code.length = code := by
  induction q generalizing code with
  | zero =>
    obtain rfl : code = [] := List.length_eq_zero_iff.1 (by omega)
    rfl
  | succ q ih =>
    have hlater : chunkOf code ∘ Nat.succ = chunkOf (code.drop 32) := funext (chunkOf_succ code)
    rw [List.range_succ_eq_map, List.map_cons, List.map_map, List.flatMap_cons, hlater, wordBits_chunkOf_zero]
    by_cases hc : code.length ≤ 32
    · rw [List.take_of_length_le hc, List.append_assoc, List.take_left]
    · have hrest := ih (code := code.drop 32) (by simp; omega)
      have hlen : (code.take 32).length = 32 := by simp; omega
      rw [Nat.sub_eq_zero_of_le (by omega), List.replicate_zero, List.append_nil, List.take_append, hlen,
        List.take_take, Nat.min_eq_right (by omega), ← List.length_drop, hrest, List.take_append_drop]

end Sys2Proof.Machine
end

section
/-! Paths in the held tree (spec/10_state.md R39, spec/43_code_lookup.md R189): every leaf of the table is reached, a
path is shorter than the tree is deep, and the decoder walks it to its symbol (spec/44_decoder.md R202, R205). -/

namespace Sys2Proof.Safety

open Sys2Proof.Machine

/-! ### Paths -/

/-- A path is found exactly for the symbols of the leaves (R189). -/
theorem path_isSome_iff (t : Tree) (x : Word) : (path t x).isSome = true ↔ x ∈ t.leaves := by
  induction t with
  | leaf y =>
    by_cases h : y = x
    · simp [path, Tree.leaves, h]
    · simp [path, Tree.leaves, h, Ne.symm h]
  | placeholder => simp [path, Tree.leaves]
  | fork l r ihl ihr =>
    rw [Tree.leaves, List.mem_append, ← ihl, ← ihr, path]
    cases path l x <;> cases path r x <;> simp

theorem path_leaf {y x : Word} {p : List Bool} (h : path (.leaf y) x = some p) : y = x ∧ p = [] := by
  rw [path] at h
  split at h
  · exact ⟨‹_›, (Option.some.inj h).symm⟩
  · simp at h

/-- A path in a fork is one bit and a path in the subtree that bit selects. -/
theorem path_fork {l r : Tree} {x : Word} {p : List Bool} (h : path (.fork l r) x = some p) :
    ∃ b p', p = b :: p' ∧ path (if b then r else l) x = some p' := by
  rw [path] at h
  cases hl : path l x with
  | some pl => exact ⟨false, pl, by simpa [hl, eq_comm] using h, hl⟩
  | none =>
    cases hr : path r x with
    | some pr => exact ⟨true, pr, by simpa [hl, hr, eq_comm] using h, hr⟩
    | none => simp [hl, hr] at h

theorem codeFor_of_path {t : Tree} {x : Word} {p : List Bool} (h : path t x = some p) : codeFor t x = p := by
  simp [codeFor, h]

/-! ### The tree at a node -/

/-- What a tree that is defined says of its node: the three kinds of R39. -/
theorem treeAt_cases {m : Memory} {f : Nat} {i : Index} {t : Tree} (h : treeAt m f i = some t) :
    ∃ g, f = g + 1 ∧
      (((nodeRead m i).kind = .leaf ∧ t = .leaf (nodeRead m i).sym) ∨
        ((nodeRead m i).kind = .placeholder ∧ t = .placeholder) ∨
        ((nodeRead m i).kind = .fork ∧ ∃ l r, t = .fork l r ∧ treeAt m g (nodeRead m i).left = some l ∧
          treeAt m g (nodeRead m i).right = some r)) := by
  cases f with
  | zero => simp [treeAt] at h
  | succ g =>
    refine ⟨g, rfl, ?_⟩
    rw [treeAt] at h
    cases hk : (nodeRead m i).kind with
    | leaf => exact .inl ⟨rfl, by simpa [hk, eq_comm] using h⟩
    | placeholder => exact .inr (.inl ⟨rfl, by simpa [hk, eq_comm] using h⟩)
    | fork =>
      simp only [hk] at h
      split at h
      · rename_i l r hl hr
        exact .inr (.inr ⟨rfl, l, r, (Option.some.inj h).symm, hl, hr⟩)
      · simp at h

theorem treeAt_leaf {m : Memory} {f : Nat} {i : Index} {x : Word} (h : treeAt m f i = some (.leaf x)) :
    (nodeRead m i).kind = .leaf ∧ (nodeRead m i).sym = x := by
  obtain ⟨g, -, ⟨hk, ht⟩ | ⟨-, ht⟩ | ⟨-, l, r, ht, -⟩⟩ := treeAt_cases h
  · exact ⟨hk, (Tree.leaf.inj ht).symm⟩
  · cases ht
  · cases ht

/-- A fork's two subtrees are the trees at the node's children. -/
theorem treeAt_fork {m : Memory} {f : Nat} {i : Index} {l r : Tree} (h : treeAt m f i = some (.fork l r)) :
    ∃ g, f = g + 1 ∧ (nodeRead m i).kind = .fork ∧ treeAt m g (nodeRead m i).left = some l ∧
      treeAt m g (nodeRead m i).right = some r := by
  obtain ⟨g, hf, ⟨-, ht⟩ | ⟨-, ht⟩ | ⟨hk, l, r, ht, hl, hr⟩⟩ := treeAt_cases h
  · cases ht
  · cases ht
  · cases ht
    exact ⟨g, hf, hk, hl, hr⟩

/-- At a FORK the tree is a fork. -/
theorem treeAt_of_fork {m : Memory} {f : Nat} {i : Index} {t : Tree} (h : treeAt m f i = some t)
    (hk : (nodeRead m i).kind = .fork) : ∃ l r, t = .fork l r := by
  obtain ⟨g, -, ⟨hk', -⟩ | ⟨hk', -⟩ | ⟨-, l, r, ht, -⟩⟩ := treeAt_cases h
  · simp [hk] at hk'
  · simp [hk] at hk'
  · exact ⟨l, r, ht⟩

/-- The tree under a child of a fork, the child chosen by a bit. -/
theorem treeAt_child {m : Memory} {f : Nat} {i : Index} {l r : Tree} (h : treeAt m f i = some (.fork l r)) (b : Bool) :
    ∃ g, f = g + 1 ∧
      treeAt m g (if b then (nodeRead m i).right else (nodeRead m i).left) = some (if b then r else l) := by
  obtain ⟨g, hf, -, hl, hr⟩ := treeAt_fork h
  refine ⟨g, hf, ?_⟩
  cases b
  · exact hl
  · exact hr

/-- Two levels of fuel that both suffice give the same tree. -/
theorem treeAt_unique {m : Memory} {f g : Nat} {i : Index} {t u : Tree} (ht : treeAt m f i = some t)
    (hu : treeAt m g i = some u) : t = u := by
  have h1 := treeAt_mono ht (Nat.le_max_left f g)
  have h2 := treeAt_mono hu (Nat.le_max_right f g)
  exact Option.some.inj (h1.symm.trans h2)

/-- A path has fewer bits than the tree has levels. -/
theorem path_length_lt {m : Memory} {f : Nat} {i : Index} {t : Tree} {x : Word} {p : List Bool}
    (ht : treeAt m f i = some t) (hp : path t x = some p) : p.length < f := by
  induction f generalizing i t p with
  | zero => simp [treeAt] at ht
  | succ f ih =>
    cases t with
    | leaf y =>
      obtain ⟨-, rfl⟩ := path_leaf hp
      exact Nat.succ_pos f
    | placeholder => simp [path] at hp
    | fork l r =>
      obtain ⟨b, p', rfl, hp'⟩ := path_fork hp
      obtain ⟨g, hg, hc⟩ := treeAt_child ht b
      obtain rfl : f = g := by omega
      have := ih hc hp'
      simp only [List.length_cons]
      omega

/-- The codes of the tree at ROOT have fewer bits than an index has values. -/
theorem codeFor_length_lt {m : Memory} {root : Index} {t : Tree} (ht : treeOf m root = some t) (x : Word) :
    (codeFor t x).length < 65536 := by
  rw [codeFor]
  cases hp : path t x with
  | none => simp
  | some p =>
    have := path_length_lt ht hp
    have := root.isLt
    simp only [Option.getD_some]
    omega

/-! ### Every leaf is reached -/

/-- A listed child is the LEFT or the RIGHT of a FORK. -/
theorem mem_childList {m : Memory} {n i : Nat} (h : i ∈ childList m n) :
    ∃ j < n, ∃ e, nodeAt? m j = some e ∧ e.kind = .fork ∧ (i = e.left.toNat ∨ i = e.right.toNat) := by
  obtain ⟨j, hj, hij⟩ := List.mem_flatMap.1 h
  refine ⟨j, List.mem_range.1 hj, ?_⟩
  rw [childrenOf] at hij
  split at hij
  · simp at hij
  · rename_i e he
    split at hij
    · rename_i hk
      exact ⟨e, he, hk, by simpa using hij⟩
    · simp at hij

/-- The leaves under any node of a held tree are leaves under its root: going from child to parent ends at the root,
every node being the root or a child (R40). -/
theorem IsTree.leaves_subset {m : Memory} {n : Nat} {root i : Index} {t u : Tree} {f : Nat} (h : IsTree m n root)
    (hn : n ≤ 65536) (ht : treeOf m root = some t) (hi : i.toNat < n) (hu : treeAt m f i = some u) :
    u.leaves ⊆ t.leaves := by
  induction hd : n - i.toNat using Nat.strong_induction_on generalizing i u f with
  | _ d ih =>
    rcases List.mem_cons.1 (h.parents.mem_iff.2 (List.mem_range.2 hi)) with hroot | hchild
    · obtain rfl := BitVec.eq_of_toNat_eq hroot
      rw [treeAt_unique hu ht]
      exact List.Subset.refl _
    · obtain ⟨j, hj, e, he, hk, hij⟩ := mem_childList hchild
      have hjn : (BitVec.ofNat 16 j).toNat = j := by simp; omega
      have hread : nodeRead m (BitVec.ofNat 16 j) = e := nodeRead_of_nodeAt (by rw [hjn]; exact he)
      obtain ⟨hl, hr⟩ := h.child_lt (i := BitVec.ofNat 16 j) (by omega) (by rw [hread]; exact hk)
      obtain ⟨v, hv⟩ := h.treeAt_isSome (j + 1) (BitVec.ofNat 16 j) (by omega) (by omega)
      obtain ⟨a, b, rfl⟩ := treeAt_of_fork hv (by rw [hread]; exact hk)
      obtain ⟨g, -, -, hva, hvb⟩ := treeAt_fork hv
      have hup : (Tree.fork a b).leaves ⊆ t.leaves :=
        ih (n - j) (by rw [hread] at hl hr; omega) (by omega) hv (by omega)
      rw [hread] at hva hvb
      rcases hij with hij | hij
      · obtain rfl := BitVec.eq_of_toNat_eq hij
        rw [treeAt_unique hu hva]
        exact fun y hy => hup (List.mem_append_left _ hy)
      · obtain rfl := BitVec.eq_of_toNat_eq hij
        rw [treeAt_unique hu hvb]
        exact fun y hy => hup (List.mem_append_right _ hy)

/-- The symbol of every LEAF node of a held tree has a path. -/
theorem IsTree.path_of_leaf {m : Memory} {n e : Nat} {root : Index} {t : Tree} {x : FtEntry} (h : IsTree m n root)
    (hn : n ≤ 65536) (ht : treeOf m root = some t) (he : e < n) (hx : nodeAt? m e = some (leafEntry x)) :
    (path t x.sym).isSome = true := by
  have hen : (BitVec.ofNat 16 e).toNat = e := by simp; omega
  have hread : nodeRead m (BitVec.ofNat 16 e) = leafEntry x := nodeRead_of_nodeAt (by rw [hen]; exact hx)
  have hleaf : treeAt m 1 (BitVec.ofNat 16 e) = some (.leaf x.sym) := by simp [treeAt, hread, leafEntry]
  exact (path_isSome_iff t x.sym).2 (h.leaves_subset hn ht (by omega) hleaf (by simp [Tree.leaves]))

/-! ### The decoder on a path -/

/-- The decoder at the root of the tree, with nothing pending. -/
def atRoot (root : Index) (phit : Bool) : Walk := { cursor := root, depth := 0, phit := phit }

/-- Decoding in two parts is decoding the whole. -/
theorem walkBits_append (m : Memory) (root : Index) (as bs : List Bool) (w : Walk) :
    walkBits m root (as ++ bs) w = ((walkBits m root bs (walkBits m root as w).1).1,
      (walkBits m root as w).2 ++ (walkBits m root bs (walkBits m root as w).1).2) := by
  induction as generalizing w with
  | nil => simp [walkBits]
  | cons a as ih => simp [walkBits, ih]

/-- The bits of a symbol's path, from the fork the path starts at, emit the symbol and lead back to the root (R202). -/
theorem walkBits_path {m : Memory} {f : Nat} {root : Index} {l r : Tree} {x : Word} {p : List Bool} {w : Walk}
    (ht : treeAt m f w.cursor = some (.fork l r)) (hp : path (.fork l r) x = some p) :
    walkBits m root p w = (atRoot root w.phit, [x]) := by
  induction p generalizing f l r w with
  | nil =>
    obtain ⟨b, p', hbp, -⟩ := path_fork hp
    simp at hbp
  | cons b p ih =>
    obtain ⟨b', p', hbp, hp'⟩ := path_fork hp
    obtain ⟨rfl, rfl⟩ : b = b' ∧ p = p' := by simpa using hbp
    obtain ⟨g, -, hc⟩ := treeAt_child ht b
    cases hu : (if b then r else l) with
    | leaf y =>
      rw [hu] at hc hp'
      obtain ⟨hk, hy⟩ := treeAt_leaf hc
      obtain ⟨rfl, rfl⟩ := path_leaf hp'
      simp [walkBits, walkBit, hk, hy, atRoot]
    | placeholder =>
      rw [hu] at hp'
      simp [path] at hp'
    | fork l' r' =>
      rw [hu] at hc hp'
      obtain ⟨-, -, hk, -, -⟩ := treeAt_fork hc
      have hstep : walkBit m root b w =
          (⟨if b then (nodeRead m w.cursor).right else (nodeRead m w.cursor).left, w.depth + 1, w.phit⟩, none) := by
        simp only [walkBit, hk]
      simp only [walkBits, hstep, Option.toList_none, List.nil_append]
      exact ih (w := ⟨_, w.depth + 1, w.phit⟩) hc hp'

/-- Decoding the codes of a text, each symbol of which has one, gives the text and ends at the root (R205, R206). -/
theorem walkBits_codes {m : Memory} {root : Index} {l r : Tree} (ht : treeOf m root = some (.fork l r)) (ph : Bool)
    {xs : List Word} (hxs : ∀ x ∈ xs, (path (.fork l r) x).isSome = true) :
    walkBits m root (xs.flatMap (codeFor (.fork l r))) (atRoot root ph) = (atRoot root ph, xs) := by
  induction xs with
  | nil => rfl
  | cons x xs ih =>
    obtain ⟨p, hp⟩ := Option.isSome_iff_exists.1 (hxs x (by simp))
    have hx : walkBits m root p (atRoot root ph) = (atRoot root ph, [x]) := walkBits_path (w := atRoot root ph) ht hp
    rw [List.flatMap_cons, codeFor_of_path hp, walkBits_append, hx, ih fun y hy => hxs y (by simp [hy])]
    rfl

end Sys2Proof.Safety
end

section
/-! host_build on the machine (spec/40_frequency.md R122, R123): the COUNTs of a text whose distinct symbols fit end
with OK and leave a table of its symbols, and BUILD then leaves a tree with a path for each of them. -/

namespace Sys2Proof.Safety

open Sys2Proof.Machine

/-! ### The text's symbols -/

theorem mem_firstSeen {xs : List Word} {x : Word} (h : x ∈ xs) : x ∈ firstSeen xs := by
  induction xs with
  | nil => exact h
  | cons y xs ih =>
    by_cases hxy : x = y
    · simp [firstSeen, hxy]
    · simp [firstSeen, hxy, ih ((List.mem_cons.1 h).resolve_left hxy)]

/-! ### COUNT -/

/-- COUNT of a symbol that has an entry adds 1 to it (R121). -/
theorem execCount_present {s : State} {i : Nat} (h : ftFind s.ft s.a0l = some i) :
    execCount s = .next (storeEntry { s with sat := s.sat || (ftRead s.ft i).count == cntMax } i
      ⟨s.a0l, satInc (ftRead s.ft i).count⟩) := by
  simp only [execCount, State.symbolOperand, h]

/-- COUNT of a symbol without an entry appends one when there is room (R121). -/
theorem execCount_absent {s : State} (h : ftFind s.ft s.a0l = none) (hroom : s.ft.length ≠ s.params.maxSyms) :
    execCount s = .next (storeEntry s s.ft.length ⟨s.a0l, 1⟩) := by
  simp only [execCount, State.symbolOperand, h]
  exact if_neg hroom

/-- COUNT ends with OK unless its symbol is absent and the table full (R121): the symbol is in the table afterwards, at
its old place or at the end; the parameters and OUTQ stay. -/
theorem command_count (s : State) (hroom : s.arg0 ∉ s.ft.map FtEntry.sym → s.ft.length ≠ s.params.maxSyms) :
    ∃ t, command .count s = .next t ∧ t.err = .ok ∧ t.params = s.params ∧ t.outq = s.outq ∧
      t.ft.map FtEntry.sym =
        if s.arg0 ∈ s.ft.map FtEntry.sym then s.ft.map FtEntry.sym else s.ft.map FtEntry.sym ++ [s.arg0] := by
  rw [command_eq_exec rfl]
  cases hf : ftFind s.ft s.arg0 with
  | some i =>
    obtain ⟨c, hc⟩ := ftFind_some hf
    have hmem : s.arg0 ∈ s.ft.map FtEntry.sym := List.mem_map_of_mem (f := FtEntry.sym) (List.mem_of_getElem? hc)
    refine ⟨_, execCount_present hf, rfl, rfl, rfl, ?_⟩
    rw [if_pos hmem]
    exact ftWrite_syms hf
  | none =>
    have habs : s.arg0 ∉ s.ft.map FtEntry.sym := by
      simpa using (ftFind_none_iff s.ft s.arg0).1 hf
    refine ⟨_, execCount_absent hf (hroom habs), rfl, rfl, rfl, ?_⟩
    rw [if_neg habs, storeEntry_ft, latchExec_ft, ftWrite_append, List.map_append]
    rfl

/-- A state in the middle of counting a text whose symbols are among `U`: the table holds distinct symbols of `U`,
all of `U` fits in it, and OUTQ is empty. -/
structure Counting (U : List Word) (s : State) : Prop where
  legal : s.params.wf
  room : U.length ≤ s.params.maxSyms
  distinct : (s.ft.map FtEntry.sym).Nodup
  within : s.ft.map FtEntry.sym ⊆ U
  drained : s.outq = []

/-- The table has no more entries than there are symbols to come from. -/
theorem Counting.ft_length_le {U : List Word} {s : State} (h : Counting U s) : s.ft.length ≤ U.length := by
  simpa using (List.subperm_of_subset h.distinct h.within).length_le

/-- A symbol that is still absent has room: with it the table would still hold distinct symbols of `U`. -/
theorem Counting.not_full {U : List Word} {s : State} (h : Counting U s) {x : Word} (hx : x ∈ U)
    (habs : x ∉ s.ft.map FtEntry.sym) : s.ft.length ≠ s.params.maxSyms := by
  have hsub : x :: s.ft.map FtEntry.sym ⊆ U := List.cons_subset.2 ⟨hx, h.within⟩
  have hlt := (List.subperm_of_subset (List.nodup_cons.2 ⟨habs, h.distinct⟩) hsub).length_le
  have := h.room
  simp only [List.length_cons, List.length_map] at hlt
  omega

/-- A COUNT of a symbol of `U` ends with OK, and the counting goes on with that symbol in the table. -/
theorem Counting.count {U : List Word} {s : State} (h : Counting U s) (hx : s.arg0 ∈ U) :
    ∃ t, command .count s = .next t ∧ t.err = .ok ∧ Counting U t ∧
      s.arg0 :: s.ft.map FtEntry.sym ⊆ t.ft.map FtEntry.sym := by
  obtain ⟨t, ht, herr, hp, hq, hft⟩ := command_count s (h.not_full hx)
  have hkeep {ft : List Word} (ht : t.ft.map FtEntry.sym = ft) (hnd : ft.Nodup) (hU : ft ⊆ U) : Counting U t :=
    ⟨hp ▸ h.legal, hp ▸ h.room, ht ▸ hnd, ht ▸ hU, hq.trans h.drained⟩
  by_cases hmem : s.arg0 ∈ s.ft.map FtEntry.sym
  · rw [if_pos hmem] at hft
    exact ⟨t, ht, herr, hkeep hft h.distinct h.within, by simpa [hft] using hmem⟩
  · rw [if_neg hmem] at hft
    have hnd : (s.ft.map FtEntry.sym ++ [s.arg0]).Nodup := List.nodup_append.2
      ⟨h.distinct, by simp, fun a ha b hb hab => hmem (List.mem_singleton.1 hb ▸ hab ▸ ha)⟩
    exact ⟨t, ht, herr, hkeep hft hnd (List.append_subset.2 ⟨h.within, by simpa using hx⟩), by simp [hft]⟩

/-- Counting a text over `U` ends with every symbol of the text in the table (R122). -/
theorem Counting.countAll {U xs : List Word} {s : State} (h : Counting U s) (hxs : xs ⊆ U) :
    ∃ t, countAll xs s = some t ∧ Counting U t ∧ xs ++ s.ft.map FtEntry.sym ⊆ t.ft.map FtEntry.sym := by
  induction xs generalizing s with
  | nil => exact ⟨s, rfl, h, List.Subset.refl _⟩
  | cons x xs ih =>
    obtain ⟨hx, hxs⟩ := List.cons_subset.1 hxs
    have hset : Counting U { s with arg0 := x } := ⟨h.legal, h.room, h.distinct, h.within, h.drained⟩
    obtain ⟨t, ht, herr, hct, hxt⟩ := hset.count hx
    obtain ⟨u, hu, hcu, htu⟩ := ih hct hxs
    obtain ⟨hxt, hst⟩ := List.cons_subset.1 hxt
    obtain ⟨hxu, htu⟩ := List.append_subset.1 htu
    refine ⟨u, by simp only [Machine.countAll, ht, herr, if_true, hu], hcu, ?_⟩
    exact List.cons_subset.2 ⟨htu hxt, List.append_subset.2 ⟨hxu, List.Subset.trans hst htu⟩⟩

/-- CLEAR starts a count (R231). -/
theorem command_clear (s : State) : ∃ t, command .clear s = .next t ∧ t.params = s.params ∧ t.ft = [] ∧ t.outq = [] :=
  ⟨_, command_eq_exec rfl s, rfl, rfl, rfl⟩

/-! ### BUILD -/

/-- A block that holds the tree under `root` of the node memory `m`, with `q` in OUTQ. -/
structure HoldsTree (m : Memory) (root : Index) (q : List Word) (s : State) : Prop where
  held : s.tv = true
  nodes : s.nodes = m
  root : s.root = root
  outq : s.outq = q
  depth : 32 ≤ s.params.outqDepth

/-- The tree under `root` is a fork with a path for each symbol of a text. -/
def HasCodes (m : Memory) (root : Index) (xs : List Word) : Prop :=
  ∃ l r, treeOf m root = some (.fork l r) ∧ ∀ x ∈ xs, (path (.fork l r) x).isSome = true

/-- A held tree over a table's leaves has a path for each of the table's symbols. -/
theorem IsTree.hasCodes {ft : List FtEntry} {m : Memory} {n : Nat} {root : Index} {xs : List Word}
    (h : IsTree m n root) (hn : n ≤ 65536) (hft : ft.length ≤ n)
    (hleaf : ∀ (e : Nat) (x : FtEntry), ft[e]? = some x → nodeAt? m e = some (leafEntry x))
    (hxs : xs ⊆ ft.map FtEntry.sym) : HasCodes m root xs := by
  obtain ⟨t, ht⟩ := h.treeOf_isSome
  obtain ⟨l, r, rfl⟩ := treeAt_of_fork ht h.rootFork
  refine ⟨l, r, ht, fun x hx => ?_⟩
  obtain ⟨e, he, rfl⟩ := List.mem_map.1 (hxs hx)
  obtain ⟨i, hi⟩ := List.mem_iff_getElem?.1 he
  have hin : i < ft.length := (List.getElem?_eq_some_iff.1 hi).1
  exact h.path_of_leaf hn ht (by omega) (hleaf i e hi)

/-- BUILD at the end of a count leaves a tree with a path for each counted symbol. -/
theorem Counting.build {U xs : List Word} {s : State} (h : Counting U s) (hne : xs ≠ [])
    (hxs : xs ⊆ s.ft.map FtEntry.sym) : ∃ t m root, command .build s = .next t ∧ t.err = .ok ∧
      HoldsTree m root [] t ∧ HasCodes m root xs := by
  have hft0 : s.ft ≠ [] := by
    intro hft
    rw [hft] at hxs
    exact hne (List.subset_nil.1 hxs)
  have hpos := List.length_pos_iff.2 hft0
  obtain ⟨-, hmax, hdepth, -⟩ := h.legal
  have hlen := h.ft_length_le
  have hroom := h.room
  obtain ⟨m, root, k, sp, hb, h1, h2, -, -, -, htree, hleaf⟩ :=
    execBuild_spec (s := latchExec (encode .build) s) hft0 (by simp only [latchExec_ft]; omega)
  simp only [latchExec_ft] at h1 h2 htree hleaf
  refine ⟨_, m, root, (command_eq_exec rfl s).trans hb, rfl, ⟨rfl, rfl, rfl, h.drained, hdepth⟩, ?_⟩
  have hkn : s.ft.length ≤ k.toNat := by
    by_cases hone : s.ft.length = 1
    · have := h1 hone
      omega
    · have := h2 (by omega)
      omega
  exact (htree h.distinct).hasCodes k.isLt.le hkn hleaf hxs

/-- host_build of a text whose distinct symbols fit ends with OK and leaves a tree with a path for each of its
symbols. -/
theorem buildText_holdsTree {xs : List Word} {s : State} (hp : s.params.wf) (hne : xs ≠ [])
    (hfit : (firstSeen xs).length ≤ s.params.maxSyms) : ∃ t m root, buildText xs s = some t ∧ t.err = .ok ∧
      HoldsTree m root [] t ∧ HasCodes m root xs := by
  obtain ⟨s1, hclear, hp1, hft1, hq1⟩ := command_clear s
  have hstart : Counting (firstSeen xs) s1 :=
    ⟨hp1 ▸ hp, hp1 ▸ hfit, by simp [hft1], by simp [hft1], hq1⟩
  obtain ⟨s2, hcount, hc2, hsyms⟩ := hstart.countAll fun x hx => mem_firstSeen hx
  obtain ⟨s3, m, root, hbuild, herr, hheld, hcodes⟩ := hc2.build hne (List.append_subset.1 hsyms).1
  exact ⟨s3, m, root, by simp only [buildText, hclear, hcount, hbuild], herr, hheld, hcodes⟩

end Sys2Proof.Safety
end

section
/-! host_encode on the machine (spec/43_code_lookup.md R190, R192): the chunks read with CODE make up each symbol's
code. -/

namespace Sys2Proof.Safety

open Sys2Proof.Machine

/-- CODE with a tree at ROOT (R190). -/
theorem execCode_of_tree {s : State} {t : Tree} (k : Nat) (htv : s.tv = true) (ht : treeOf s.nodes s.root = some t) :
    execCode k s = .next (complete { s with
      res0 := BitVec.ofNat 32 (codeFor t s.symbolOperand).length, res1 := chunkOf (codeFor t s.symbolOperand) k
      res2 := if (path t s.symbolOperand).isSome then 1 else 0 }) := by
  rw [execCode, if_neg (by simp [htv]), ht]

/-- CODE answers the length and a chunk of the code of the symbol in ARG0 (R190). -/
theorem HoldsTree.code {m : Memory} {root : Index} {q : List Word} {s : State} {t : Tree} {k : Nat}
    (h : HoldsTree m root q s) (ht : treeOf m root = some t) (hk : k < 65536) :
    ∃ s1, command (.code k) s = .next s1 ∧ HoldsTree m root q s1 ∧ s1.arg0 = s.arg0 ∧
      s1.res0 = BitVec.ofNat 32 (codeFor t s.arg0).length ∧ s1.res1 = chunkOf (codeFor t s.arg0) k := by
  obtain ⟨htv, rfl, rfl, hq, hd⟩ := h
  rw [command_eq_exec (by simpa [Instr.wellFormed] using hk)]
  exact ⟨_, execCode_of_tree k htv ht, ⟨htv, rfl, rfl, hq, hd⟩, rfl, rfl, rfl⟩

/-- Reading chunks gives those chunks of the code. -/
theorem HoldsTree.readChunks {m : Memory} {root : Index} {q : List Word} {s : State} {t : Tree} {ks : List Nat}
    (h : HoldsTree m root q s) (ht : treeOf m root = some t) (hks : ∀ k ∈ ks, k < 65536) :
    ∃ s1, readChunks ks s = some (ks.map (chunkOf (codeFor t s.arg0)), s1) ∧ HoldsTree m root q s1 := by
  induction ks generalizing s with
  | nil => exact ⟨s, rfl, h⟩
  | cons k ks ih =>
    obtain ⟨s1, h1, hs1, harg, -, hres1⟩ := h.code ht (hks k (by simp))
    obtain ⟨s2, h2, hs2⟩ := ih hs1 fun j hj => hks j (by simp [hj])
    exact ⟨s2, by simp only [Machine.readChunks, h1, h2, hres1, harg, List.map_cons], hs2⟩

/-- One symbol of host_encode gives its code (R192). -/
theorem HoldsTree.encodeSymbol {m : Memory} {root : Index} {q : List Word} {s : State} {t : Tree}
    (h : HoldsTree m root q s) (ht : treeOf m root = some t) (x : Word) :
    ∃ s1, encodeSymbol x s = some (codeFor t x, s1) ∧ HoldsTree m root q s1 := by
  have hset : HoldsTree m root q { s with arg0 := x } := ⟨h.held, h.nodes, h.root, h.outq, h.depth⟩
  obtain ⟨s1, h1, hs1, harg, hres0, hres1⟩ := hset.code ht (k := 0) (by decide)
  simp only at harg hres0 hres1
  have hlen := codeFor_length_lt ht x
  have hres0 : s1.res0.toNat = (codeFor t x).length := by
    rw [hres0, BitVec.toNat_ofNat]
    omega
  obtain ⟨s2, h2, hs2⟩ := hs1.readChunks ht
    (ks := (List.range (((codeFor t x).length + 31) / 32 - 1)).map (· + 1)) (by simp; omega)
  have hcode := take_chunks_eq_code (code := codeFor t x) (q := ((codeFor t x).length + 31) / 32 - 1 + 1) (by omega)
  rw [List.range_succ_eq_map, List.map_cons] at hcode
  refine ⟨s2, ?_, hs2⟩
  simp only [Machine.encodeSymbol, h1, hres0, h2, harg, hres1]
  exact congrArg (fun bits => some (bits, s2)) hcode

/-- host_encode gives the codes of the text, one after the other (R192). -/
theorem HoldsTree.hostEncode {m : Memory} {root : Index} {q : List Word} {s : State} {t : Tree}
    (h : HoldsTree m root q s) (ht : treeOf m root = some t) (xs : List Word) :
    ∃ s1, hostEncode xs s = some (xs.flatMap (codeFor t), s1) ∧ HoldsTree m root q s1 := by
  induction xs generalizing s with
  | nil => exact ⟨s, rfl, h⟩
  | cons x xs ih =>
    obtain ⟨s1, h1, hs1⟩ := h.encodeSymbol ht x
    obtain ⟨s2, h2, hs2⟩ := ih hs1
    exact ⟨s2, by simp only [Machine.hostEncode, h1, h2, List.flatMap_cons], hs2⟩

end Sys2Proof.Safety
end

section
/-! host_decode on the machine (spec/44_decoder.md R200, R210, R211, R213): DEC and POP over any chunks of a bit
sequence give what one walk over the whole sequence emits. -/

namespace Sys2Proof.Safety

open Sys2Proof.Machine

/-- DRST puts the decoder back at the root and answers how many bits were pending (R210). -/
theorem HoldsTree.drst {m : Memory} {root : Index} {q : List Word} {s : State} (h : HoldsTree m root q s) :
    ∃ s1, command .drst s = .next s1 ∧ HoldsTree m root q s1 ∧ s1.walk = atRoot root s.phit ∧
      s1.res0 = zext s.depth := by
  obtain ⟨htv, rfl, rfl, hq, hd⟩ := h
  exact ⟨_, command_eq_exec rfl s, ⟨htv, rfl, rfl, hq, hd⟩, rfl, rfl⟩

/-- POP with a symbol in OUTQ (R213). -/
theorem execPop_cons {s : State} {x : Word} {q : List Word} (h : s.outq = x :: q) :
    execPop s = .next (complete { s with res0 := x, outq := q }) := by
  simp only [execPop, h]

/-- Popping as many symbols as OUTQ holds gives them all and moves nothing else (R213). -/
theorem HoldsTree.popMany {m : Memory} {root : Index} {q : List Word} {s : State} (h : HoldsTree m root q s) :
    ∃ s1, popMany q.length s = some (q, s1) ∧ HoldsTree m root [] s1 ∧ s1.walk = s.walk := by
  induction q generalizing s with
  | nil => exact ⟨s, rfl, h, rfl⟩
  | cons x q ih =>
    have hpop : command .pop s =
        .next (complete { latchExec (encode .pop) s with res0 := x, outq := q }) :=
      (command_eq_exec rfl s).trans (execPop_cons h.outq)
    have hs1 : HoldsTree m root q (complete { latchExec (encode .pop) s with res0 := x, outq := q }) :=
      ⟨h.held, h.nodes, h.root, rfl, h.depth⟩
    obtain ⟨s2, h2, hs2, hw⟩ := ih hs1
    exact ⟨s2, by simp only [List.length_cons, Machine.popMany, hpop, h2, complete_res0], hs2, hw⟩

/-- A DEC that passes its three checks is a walk over its bits (R200). -/
theorem execDec_walks {s : State} {n : Nat} (htv : s.tv = true) (h1 : 1 ≤ n) (h32 : n ≤ 32)
    (hroom : n ≤ s.params.outqDepth - s.outq.length) : execDec n s = .next (finishDec s
      (walkBits s.nodes s.root (s.bitOperand n) s.walk).1 (walkBits s.nodes s.root (s.bitOperand n) s.walk).2) := by
  rw [execDec, if_neg (by simp [htv]), if_neg (by omega), if_neg (by omega)]

/-- DEC of 1 to 32 bits with OUTQ empty walks over them: OUTQ then holds what the walk emits, and RES0 says how much
that is (R200). -/
theorem HoldsTree.dec {m : Memory} {root : Index} {s : State} {w : List Bool} (h : HoldsTree m root [] s)
    (h1 : 1 ≤ w.length) (h32 : w.length ≤ 32) (harg : s.arg0 = BitVec.ofNat 32 (natOfBits w)) :
    ∃ s1, command (.dec w.length) s = .next s1 ∧ HoldsTree m root (walkBits m root w s.walk).2 s1 ∧
      s1.walk = (walkBits m root w s.walk).1 ∧ s1.res0.toNat = (walkBits m root w s.walk).2.length := by
  obtain ⟨htv, rfl, rfl, hq, hd⟩ := h
  have hout := walkBits_length_le s.nodes s.root w s.walk
  have hbits : (latchExec (encode (.dec w.length)) s).bitOperand w.length = w := bitOperand_of_packed harg h32
  have hexec := execDec_walks (s := latchExec (encode (.dec w.length)) s) htv h1 h32
    (by simp only [latchExec_params, latchExec_outq, hq, List.length_nil]; omega)
  rw [hbits] at hexec
  rw [command_eq_exec (by simp [Instr.wellFormed]; omega)]
  refine ⟨_, hexec, ⟨htv, rfl, rfl, congrArg (· ++ _) hq, hd⟩, rfl, ?_⟩
  change (BitVec.ofNat 32 (walkBits s.nodes s.root w s.walk).2.length).toNat = _
  rw [BitVec.toNat_ofNat]
  omega

/-- One chunk of host_decode gives what the walk over it emits and drains OUTQ again (R211). -/
theorem HoldsTree.decodeChunk {m : Memory} {root : Index} {s : State} {w : List Bool} (h : HoldsTree m root [] s)
    (h1 : 1 ≤ w.length) (h32 : w.length ≤ 32) : ∃ s1, decodeChunk w s = some ((walkBits m root w s.walk).2, s1) ∧
      HoldsTree m root [] s1 ∧ s1.walk = (walkBits m root w s.walk).1 := by
  have hset : HoldsTree m root [] { s with arg0 := BitVec.ofNat 32 (natOfBits w) } :=
    ⟨h.held, h.nodes, h.root, h.outq, h.depth⟩
  obtain ⟨s1, hdec, hs1, hw1, hres0⟩ := hset.dec h1 h32 rfl
  obtain ⟨s2, hpop, hs2, hw2⟩ := hs1.popMany
  refine ⟨s2, ?_, hs2, hw2.trans hw1⟩
  simp only [Machine.decodeChunk, hdec, hres0, hpop]
  rfl

/-- Any cut of a bit sequence into chunks gives what one walk over the whole sequence emits (R211). -/
theorem HoldsTree.decodeChunks {m : Memory} {root : Index} {s : State} {ws : List (List Bool)}
    (h : HoldsTree m root [] s) (hws : ∀ w ∈ ws, 1 ≤ w.length ∧ w.length ≤ 32) :
    ∃ s1, decodeChunks ws s = some ((walkBits m root ws.flatten s.walk).2, s1) ∧ HoldsTree m root [] s1 ∧
      s1.walk = (walkBits m root ws.flatten s.walk).1 := by
  induction ws generalizing s with
  | nil => exact ⟨s, rfl, h, rfl⟩
  | cons w ws ih =>
    obtain ⟨h1, h32⟩ := hws w (by simp)
    obtain ⟨s1, hc1, hs1, hw1⟩ := h.decodeChunk h1 h32
    obtain ⟨s2, hc2, hs2, hw2⟩ := ih hs1 fun v hv => hws v (by simp [hv])
    rw [hw1] at hc2 hw2
    rw [List.flatten_cons, walkBits_append]
    exact ⟨s2, by simp only [Machine.decodeChunks, hc1, hc2], hs2, hw2⟩

/-- host_decode of the codes of a text, however they are cut into chunks, gives the text and drops no bit (R205,
R211). -/
theorem HoldsTree.hostDecode {m : Memory} {root : Index} {l r : Tree} {s : State} {xs : List Word}
    {chunks : List (List Bool)} (h : HoldsTree m root [] s) (ht : treeOf m root = some (.fork l r))
    (hxs : ∀ x ∈ xs, (path (.fork l r) x).isSome = true) (hbits : chunks.flatten = xs.flatMap (codeFor (.fork l r)))
    (hlen : ∀ w ∈ chunks, 1 ≤ w.length ∧ w.length ≤ 32) :
    ∃ s1, hostDecode chunks s = some (xs, s1) ∧ s1.res0 = 0 := by
  obtain ⟨s1, hd1, hs1, hw1, -⟩ := h.drst
  obtain ⟨s2, hc2, hs2, hw2⟩ := hs1.decodeChunks hlen
  rw [hbits, hw1, walkBits_codes ht s.phit hxs] at hc2 hw2
  obtain ⟨s3, hd3, -, -, hres0⟩ := hs2.drst
  have hdepth : s2.depth = 0 := congrArg Walk.depth hw2
  exact ⟨s3, by simp only [Machine.hostDecode, hd1, hc2, hd3], by rw [hres0, hdepth]; rfl⟩

/-- Settles O38: host_build leaves a tree with a path for each symbol of the text, host_encode answers the paths one
after the other, and one walk over them, however cut into DECs, emits the text and ends at the root. -/
theorem roundTripOnTheMachine : Obligations.RoundTripOnTheMachine := by
  intro s xs hinv _ hne hfit
  obtain ⟨s1, m, root, hbuild, herr, hheld, l, r, ht, hxs⟩ := buildText_holdsTree hinv.params hne hfit
  obtain ⟨s2, hencode, hheld2⟩ := hheld.hostEncode ht xs
  exact ⟨s1, _, s2, hbuild, herr, hencode, fun chunks hbits hlen => hheld2.hostDecode ht hxs hbits hlen⟩

end Sys2Proof.Safety
end

section
/-! What a command's completion step can answer, said once (spec/70_reset_and_hazards.md R273, spec/60_exceptions.md
R240), and the registers that no command reads or writes (spec/10_state.md R27, R45). -/

namespace Sys2Proof.Machine

/-! ### The answers of a command -/

/-- What a command that answers a next state can have done: raised an error, written results alone, or changed the
stores its own rule names. -/
inductive Completes (s : State) : Instr → State → Prop where
  | error (i : Instr) (c : ErrCode) : Completes s i (raiseError c s)
  | results (i : Instr) (r0 r1 r2 r3 : Word) :
      Completes s i (complete { s with res0 := r0, res1 := r1, res2 := r2, res3 := r3 })
  | clear : Completes s .clear (complete { s with
      ft := [], tv := false, root := 0, nnodes := 0, nodes := [], cursor := 0, depth := 0, outq := []
      res0 := 0, res1 := 0, res2 := 0, res3 := 0 })
  | append {i : Instr} (c : Word) (hi : i = .count ∨ i = .fset) (habs : ftFind s.ft s.a0l = none)
      (hroom : s.ft.length ≠ s.params.maxSyms) : Completes s i (storeEntry s s.ft.length ⟨s.a0l, c⟩)
  | count {j : Nat} (c : Word) (sat : Bool) (hf : ftFind s.ft s.a0l = some j) :
      Completes s .count (storeEntry { s with sat := s.sat || sat } j ⟨s.a0l, c⟩)
  | fset {j : Nat} (c : Word) (hf : ftFind s.ft s.a0l = some j) : Completes s .fset (storeEntry s j ⟨s.a0l, c⟩)
  | buildEmpty (hn : s.nsyms = 0) : Completes s .build (finishEmpty s)
  | build (m : Memory) (q : List Index) (root next : Index) (satp : Bool)
      (hb : execBuild s = .next (finishTree { s with nodes := m, pq := q } root next satp)) :
      Completes s .build (finishTree { s with nodes := m, pq := q } root next satp)
  | dec {n : Nat} (htv : s.tv = true) (hroom : s.outq.length + n ≤ s.params.outqDepth) :
      Completes s (.dec n) (finishDec s (walkBits s.nodes s.root (s.bitOperand n) s.walk).1
        (walkBits s.nodes s.root (s.bitOperand n) s.walk).2)
  | drst : Completes s .drst (complete { s with res0 := zext s.depth, cursor := s.root, depth := 0 })
  | pop {x : Word} {q : List Word} (hq : s.outq = x :: q) :
      Completes s .pop (complete { s with res0 := x, outq := q })

variable {s t : State}

theorem execCount_completes (h : execCount s = .next t) : Completes s .count t := by
  cases hf : ftFind s.ft s.symbolOperand with
  | none =>
    simp only [execCount, hf] at h
    split at h
    · cases h
      exact .error _ _
    · cases h
      exact .append _ (.inl rfl) hf ‹_›
  | some j =>
    simp only [execCount, hf] at h
    cases h
    exact .count _ _ hf

theorem execFset_completes (h : execFset s = .next t) : Completes s .fset t := by
  cases hf : ftFind s.ft s.symbolOperand with
  | none =>
    simp only [execFset, hf] at h
    split at h
    · cases h
      exact .error _ _
    · cases h
      exact .append _ (.inr rfl) hf ‹_›
  | some j =>
    simp only [execFset, hf] at h
    cases h
    exact .fset _ hf

theorem execFread_completes (h : execFread s = .next t) : Completes s .fread t := by
  rw [execFread] at h
  split at h
  · cases h
    exact .error _ _
  · cases h
    exact .results _ _ _ s.res2 s.res3

theorem execBuild_completes (h : execBuild s = .next t) : Completes s .build t := by
  have hb := h
  rw [execBuild] at h
  split at h
  · cases h
    exact .buildEmpty ‹_›
  · split at h
    · cases h
    · cases h
      exact .build _ _ _ _ _ hb

theorem execNread_completes (h : execNread s = .next t) : Completes s .nread t := by
  rw [execNread] at h
  split at h
  · cases h
    exact .error _ _
  · split at h
    · cases h
      exact .error _ _
    · cases h
      exact .results _ _ _ _ _

theorem execCode_completes {k : Nat} (h : execCode k s = .next t) : Completes s (.code k) t := by
  rw [execCode] at h
  split at h
  · cases h
    exact .error _ _
  · split at h
    · cases h
    · cases h
      exact .results _ _ _ _ s.res3

theorem execDec_completes {n : Nat} (h : execDec n s = .next t) : Completes s (.dec n) t := by
  rw [execDec] at h
  split at h
  · cases h
    exact .error _ _
  · split at h
    · cases h
      exact .error _ _
    · split at h
      · cases h
        exact .error _ _
      · cases h
        exact .dec (by simpa using ‹¬ s.tv = false›) (by omega)

theorem execPop_completes (h : execPop s = .next t) : Completes s .pop t := by
  rw [execPop] at h
  split at h
  · cases h
    exact .error _ _
  · cases h
    exact .pop ‹_›

/-- Every next state a command answers is one of the listed ones. -/
theorem exec_completes {i : Instr} (h : exec i s = .next t) : Completes s i t := by
  cases i with
  | nop => cases h; exact .results _ s.res0 s.res1 s.res2 s.res3
  | clear => cases h; exact .clear
  | count => exact execCount_completes h
  | fset => exact execFset_completes h
  | fread => exact execFread_completes h
  | build => exact execBuild_completes h
  | nread => exact execNread_completes h
  | code k => exact execCode_completes h
  | dec n => exact execDec_completes h
  | drst => cases h; exact .drst
  | pop => exact execPop_completes h

/-- A command that completes leaves the engine idle (R273). -/
theorem Completes.eng {i : Instr} (h : Completes s i t) : t.eng = .idle := by cases h <;> rfl

/-- The decoder never clears PHIT (spec/10_state.md R34). -/
theorem walkBits_phit (m : Memory) (root : Index) (bits : List Bool) {w : Walk} (hw : w.phit = true) :
    (walkBits m root bits w).1.phit = true := by
  induction bits generalizing w with
  | nil => exact hw
  | cons b bits ih =>
    have hstep : (walkBit m root b w).1.phit = true := by
      simp only [walkBit]
      split
      · exact hw
      · rfl
      · exact hw
    exact ih hstep

/-- What a completion step does to the registers it can read: the latched operands and the parameters stay, PHIT is set
by DEC alone and SAT by COUNT and BUILD alone, and neither is cleared. -/
theorem Completes.flags {i : Instr} {s t : State} (h : Completes s i t) :
    t.params = s.params ∧ t.a0l = s.a0l ∧ t.a1l = s.a1l ∧ (s.phit = true → t.phit = true) ∧
      (s.sat = true → t.sat = true) ∧ (t.phit ≠ s.phit → ∃ n, i = .dec n) ∧
      (t.sat ≠ s.sat → i = .count ∨ i = .build) := by
  cases h with
  | dec htv hroom =>
    exact ⟨rfl, rfl, rfl, walkBits_phit _ _ _ (w := s.walk), id, fun _ => ⟨_, rfl⟩, fun hne => absurd rfl hne⟩
  | count c sat hf =>
    exact ⟨rfl, rfl, rfl, id, fun hs => by simp [hs], fun hne => absurd rfl hne, fun _ => .inl rfl⟩
  | build m q root next satp hb =>
    exact ⟨rfl, rfl, rfl, id, fun hs => by simp [hs], fun hne => absurd rfl hne, fun _ => .inr rfl⟩
  | error | results | clear | append | fset | buildEmpty | drst | pop =>
    exact ⟨rfl, rfl, rfl, id, id, fun hne => absurd rfl hne, fun hne => absurd rfl hne⟩

/-! ### What no command reads or writes -/

/-- An outcome with its next state changed by `f`. -/
def mapNext (f : State → State) : Result → Result
  | .next s => .next (f s)
  | .fault r => .fault r
  | .refused r => .refused r

@[simp] theorem mapNext_next (f : State → State) (s : State) : mapNext f (.next s) = .next (f s) := rfl
@[simp] theorem mapNext_fault (f : State → State) (r : Fault) : mapNext f (.fault r) = .fault r := rfl
@[simp] theorem mapNext_refused (f : State → State) (r : Refusal) : mapNext f (.refused r) = .refused r := rfl

/-- The registers and the environment that a completion step neither reads nor writes: the operands it reads are the
latched ones, and the FSM's working registers are the FSM's (R27, R45). -/
structure Outside where
  arg0 : Word
  arg1 : Word
  drop : Bool
  cmdl : Word
  nextIdx : Index
  ia : Index
  ib : Index
  seedi : Index
  satp : Bool
  host : List HostOp
  reads : List Word
  turns : List Turn
  draws : Nat

/-- What a state holds outside the reach of a completion step. -/
def State.outside (s : State) : Outside :=
  ⟨s.arg0, s.arg1, s.drop, s.cmdl, s.nextIdx, s.ia, s.ib, s.seedi, s.satp, s.host, s.reads, s.turns, s.draws⟩

/-- The state with other contents outside the reach of a completion step. -/
def State.withOutside (s : State) (o : Outside) : State :=
  { s with
    arg0 := o.arg0, arg1 := o.arg1, drop := o.drop, cmdl := o.cmdl, nextIdx := o.nextIdx, ia := o.ia, ib := o.ib
    seedi := o.seedi, satp := o.satp, host := o.host, reads := o.reads, turns := o.turns, draws := o.draws }

@[simp] theorem withOutside_outside (s : State) : s.withOutside s.outside = s := rfl

@[simp] theorem outside_withOutside (s : State) (o : Outside) : (s.withOutside o).outside = o := rfl

/-- A command does the same whatever lies outside its reach, and leaves it alone. -/
theorem exec_withOutside (i : Instr) (s : State) (o : Outside) :
    exec i (s.withOutside o) = mapNext (·.withOutside o) (exec i s) := by
  cases i with
  | nop | clear | drst => rfl
  | count =>
    have hf : ftFind (s.withOutside o).ft (s.withOutside o).symbolOperand = ftFind s.ft s.symbolOperand := rfl
    simp only [exec, execCount, hf]
    cases ftFind s.ft s.symbolOperand with
    | none => simp only [apply_ite (mapNext _)]; rfl
    | some j => rfl
  | fset =>
    have hf : ftFind (s.withOutside o).ft (s.withOutside o).symbolOperand = ftFind s.ft s.symbolOperand := rfl
    simp only [exec, execFset, hf]
    cases ftFind s.ft s.symbolOperand with
    | none => simp only [apply_ite (mapNext _)]; rfl
    | some j => rfl
  | fread => simp only [exec, execFread, apply_ite (mapNext _)]; rfl
  | build =>
    have hm : buildMerged (s.withOutside o) = buildMerged s := rfl
    simp only [exec, execBuild, hm, apply_ite (mapNext _)]
    cases pqPop (buildMerged s).nodes (buildMerged s).pq <;> rfl
  | nread => simp only [exec, execNread, apply_ite (mapNext _)]; rfl
  | code k =>
    have ht : treeOf (s.withOutside o).nodes (s.withOutside o).root = treeOf s.nodes s.root := rfl
    simp only [exec, execCode, ht, apply_ite (mapNext _)]
    cases treeOf s.nodes s.root <;> rfl
  | dec n => simp only [exec, execDec, apply_ite (mapNext _)]; rfl
  | pop =>
    have hq : (s.withOutside o).outq = s.outq := rfl
    simp only [exec, execPop, hq]
    cases s.outq <;> rfl

/-- A completion step leaves everything outside its reach alone. -/
theorem exec_outside {i : Instr} (h : exec i s = .next t) : t.outside = s.outside := by
  have hs := exec_withOutside i s s.outside
  rw [withOutside_outside, h, mapNext_next, Host.Outcome.next.injEq] at hs
  rw [hs, outside_withOutside]

/-! ### ARG0 and ARG1 -/

/-- The state with other values in ARG0 and ARG1. -/
def withArgs (s : State) (x y : Word) : State := { s with arg0 := x, arg1 := y }

/-- A completion step does the same whatever ARG0 and ARG1 hold, and leaves them alone. -/
theorem exec_withArgs (i : Instr) (s : State) (x y : Word) :
    exec i (withArgs s x y) = mapNext (withArgs · x y) (exec i s) := by
  have hs : withArgs s x y = s.withOutside { s.outside with arg0 := x, arg1 := y } := rfl
  rw [hs, exec_withOutside]
  cases hx : exec i s with
  | next t =>
    rw [← exec_outside hx]
    rfl
  | fault f => rfl
  | refused r => rfl

/-- An engine step does the same whatever ARG0 and ARG1 hold, and leaves them alone (R27). -/
theorem engineStep_withArgs (s : State) (x y : Word) :
    engineStep (withArgs s x y) = mapNext (withArgs · x y) (engineStep s) := by
  have he' : (withArgs s x y).eng = s.eng := rfl
  have hpop : pqPop (withArgs s x y).nodes (withArgs s x y).pq = pqPop s.nodes s.pq := rfl
  simp only [engineStep, he']
  cases s.eng with
  | idle | bSeed | bJoin | bFixup => rfl
  | exec =>
    have hc : (withArgs s x y).cmdl = s.cmdl := rfl
    simp only [runLatched, hc]
    cases decode s.cmdl with
    | ok i => exact exec_withArgs i s x y
    | error e => rfl
  | bPopA =>
    simp only [fsmPopA, hpop]
    cases pqPop s.nodes s.pq <;> rfl
  | bPopB =>
    simp only [fsmPopB, hpop]
    cases pqPop s.nodes s.pq <;> rfl
  | bLast =>
    simp only [fsmLast, hpop]
    cases pqPop s.nodes s.pq <;> rfl
  | bDone =>
    simp only [fsmDone, apply_ite (mapNext _)]
    rfl

end Sys2Proof.Machine
end

section
/-! The packed registers, read back field by field (spec/10_state.md R23, R25). -/

namespace Sys2Proof.Machine

variable (b t p : Bool) (e : BitVec 4) (c : BitVec 8) (d h a : Bool)

/-- The single bits of a STATUS word above BUSY; bit 3 is reserved. -/
theorem statusWord_flags : (statusWord b t p e c d h a).getLsbD 1 = t ∧ (statusWord b t p e c d h a).getLsbD 2 = p ∧
    (statusWord b t p e c d h a).getLsbD 3 = false ∧ (statusWord b t p e c d h a).getLsbD 16 = d ∧
    (statusWord b t p e c d h a).getLsbD 17 = h ∧ (statusWord b t p e c d h a).getLsbD 18 = a := by
  simp only [statusWord, BitVec.getLsbD_append]
  simp

/-- ERR, OUTQ_COUNT and the reserved bits 31:19 of a STATUS word. -/
theorem statusWord_fields : (statusWord b t p e c d h a).extractLsb' 4 4 = e ∧
    (statusWord b t p e c d h a).extractLsb' 8 8 = c ∧ (statusWord b t p e c d h a).extractLsb' 19 13 = 0 := by
  refine ⟨BitVec.eq_of_getLsbD_eq fun i hi => ?_, BitVec.eq_of_getLsbD_eq fun i hi => ?_,
    BitVec.eq_of_getLsbD_eq fun i hi => ?_⟩ <;>
    simp only [statusWord, BitVec.getLsbD_extractLsb', BitVec.getLsbD_append, hi]
  · simp [hi]
  · simp [hi]
  · interval_cases i <;> simp

/-- The fields of CFG, for legal parameters: each fits. -/
theorem cfgWord_fields {q : Params} (hq : q.wf) : (cfgWord q).extractLsb' 24 8 = 0x01#8 ∧
    ((cfgWord q).extractLsb' 16 8).toNat = q.outqDepth ∧ ((cfgWord q).extractLsb' 0 16).toNat = q.maxSyms := by
  obtain ⟨-, hmax, -, hdepth, -⟩ := hq
  refine ⟨?_, ?_, ?_⟩
  · exact (BitVec.extractLsb'_append_eq_of_le (w := 16) (by decide)).trans BitVec.extractLsb'_append_eq_left
  · have hfield : (cfgWord q).extractLsb' 16 8 = BitVec.ofNat 8 q.outqDepth :=
      (BitVec.extractLsb'_append_eq_of_le (w := 16) (by decide)).trans BitVec.extractLsb'_append_eq_right
    rw [hfield, BitVec.toNat_ofNat]
    omega
  · have hfield : (cfgWord q).extractLsb' 0 16 = BitVec.ofNat 16 q.maxSyms := BitVec.extractLsb'_append_eq_right
    rw [hfield, BitVec.toNat_ofNat]
    omega

end Sys2Proof.Machine
end

section
/-! Every step keeps the invariant: the completion steps (spec/70_reset_and_hazards.md R273), the states of the
tree-merge FSM (spec/42_tree_build.md R162 to R168), the host's accesses and the reset input. -/

namespace Sys2Proof.Safety

open Sys2Proof.Machine

/-! ### The decoder's cursor -/

/-- The cursor's place, as a place of the decoder's walk. -/
theorem cursorOk_iff (s : State) : CursorOk s ↔ ∃ pend, WalkOk s.nodes s.root s.walk pend :=
  ⟨fun ⟨hk, pend, hp, hd⟩ => ⟨pend, hk, hp, hd⟩, fun ⟨pend, hk, hp, hd⟩ => ⟨hk, pend, hp, hd⟩⟩

/-- A cursor at a ROOT that is a FORK stands right. -/
theorem cursorOk_root {s : State} (hk : (nodeRead s.nodes s.root).kind = .fork) (hc : s.cursor = s.root)
    (hd : s.depth = 0) : CursorOk s :=
  ⟨by rw [hc]; exact hk, [], by rw [hc]; rfl, by rw [hd]; rfl⟩

/-! ### Completion steps -/

variable {s t : State}

/-- Outside a BUILD, PQ is empty and a held tree is well formed. -/
theorem Inv.pq_tree_of_exec (h : Inv s) (he : s.eng = .exec) : s.pq = [] ∧ TreeOk s := by
  have hE := h.engine
  rwa [EngineOk, he] at hE

/-- A table with the symbols of the old one, or with an absent symbol appended while there is room, keeps the
invariant when nothing else changes but results, flags and the end of the command. -/
theorem Inv.storeEntry (h : Inv s) (he : s.eng = .exec) (sat : Bool) {i : Nat} {e : FtEntry}
    (hd : ((ftWrite s.ft i e).map FtEntry.sym).Nodup) (hc : (ftWrite s.ft i e).length ≤ s.params.maxSyms) :
    Inv (storeEntry { s with sat := sat } i e) :=
  ⟨h.params, hd, hc, h.outqCap, h.nodesWf, h.nodesCap, h.pqSorted, h.pqCap, h.noTree, h.pq_tree_of_exec he⟩

/-- Replacing the count of a symbol that has an entry keeps the invariant. -/
theorem Inv.storeFound (h : Inv s) (he : s.eng = .exec) (sat : Bool) {i : Nat} {x : Word} (c : Word)
    (hf : ftFind s.ft x = some i) : Inv (Machine.storeEntry { s with sat := sat } i ⟨x, c⟩) := by
  have hsyms := ftWrite_syms (c := c) hf
  have hlen : (ftWrite s.ft i ⟨x, c⟩).length = s.ft.length := by simpa using congrArg List.length hsyms
  exact h.storeEntry he sat (hsyms ▸ h.ftNodup) (hlen ▸ h.ftCap)

/-- Appending an entry for an absent symbol while there is room keeps the invariant. -/
theorem Inv.storeAbsent (h : Inv s) (he : s.eng = .exec) {x : Word} (c : Word) (hf : ftFind s.ft x = none)
    (hroom : s.ft.length ≠ s.params.maxSyms) : Inv (Machine.storeEntry s s.ft.length ⟨x, c⟩) := by
  have hcap := h.ftCap
  refine h.storeEntry he s.sat (ftWrite_append_nodup h.ftNodup hf) ?_
  rw [ftWrite_append, List.length_append, List.length_singleton]
  omega

/-- A completion without a tree (R168). -/
theorem Inv.finishEmpty (h : Inv s) (hq : s.pq = []) : Inv (finishEmpty s) :=
  ⟨h.params, h.ftNodup, h.ftCap, h.outqCap, h.nodesWf, h.nodesCap, h.pqSorted, h.pqCap,
    fun _ => ⟨rfl, rfl, rfl, rfl⟩, hq, fun htv => by simp at htv⟩

/-- A completion with a tree (R167): the nodes hold one, within NODE_CAP. -/
theorem Inv.finishTree (h : Inv s) {m : Memory} {root next : Index} (satp : Bool) (hw : Memory.wf m)
    (hm : ∀ e ∈ m, e.1 < s.params.nodeCap) (ht : IsTree m next.toNat root) (hn : next.toNat ≤ s.params.nodeCap) :
    Inv (finishTree { s with nodes := m, pq := [] } root next satp) :=
  ⟨h.params, h.ftNodup, h.ftCap, h.outqCap, hw, hm, List.Pairwise.nil, Nat.zero_le _, fun htv => by simp at htv,
    rfl, fun _ => ⟨ht, hn, cursorOk_root ht.rootFork rfl rfl⟩⟩

/-- BUILD in its atomic form keeps the invariant (R170). -/
theorem Inv.execBuild (h : Inv s) (he : s.eng = .exec) (hb : execBuild s = .next t) : Inv t := by
  by_cases hft : s.ft = []
  · have hn : s.nsyms = 0 := by simp [State.nsyms, hft]
    rw [Machine.execBuild, if_pos hn] at hb
    cases hb
    exact h.finishEmpty (h.pq_tree_of_exec he).1
  · obtain ⟨m, root, next, satp, hspec, h1, h2, -, hw, hcap, htree, -⟩ := execBuild_spec hft h.ft_length_le
    obtain rfl : _ = t := Host.Outcome.next.inj (hspec.symm.trans hb)
    have hpos := List.length_pos_iff.2 hft
    have hroom := h.nodeCap_ge
    have hroom3 := h.nodeCap_ge_three
    have hnext : next.toNat ≤ s.params.nodeCap := by
      by_cases hone : s.ft.length = 1
      · have := h1 hone
        omega
      · have := h2 (by omega)
        omega
    exact h.finishTree satp (hw h.nodesWf) (hcap _ hnext h.nodesCap) (htree h.ftNodup) hnext

/-- DEC keeps the invariant: the walk stays in the tree and emits at most one symbol a bit (R200, R208). -/
theorem Inv.finishDec (h : Inv s) (he : s.eng = .exec) (htv : s.tv = true) {bits : List Bool}
    (hroom : s.outq.length + bits.length ≤ s.params.outqDepth) :
    Inv (finishDec s (walkBits s.nodes s.root bits s.walk).1 (walkBits s.nodes s.root bits s.walk).2) := by
  obtain ⟨hq, htree⟩ := h.pq_tree_of_exec he
  obtain ⟨ht, hn, hc⟩ := htree htv
  obtain ⟨pend, hw⟩ := (cursorOk_iff s).1 hc
  obtain ⟨pend', hw'⟩ := ht.walkBits_ok bits hw
  have hout := walkBits_length_le s.nodes s.root bits s.walk
  refine ⟨h.params, h.ftNodup, h.ftCap, ?_, h.nodesWf, h.nodesCap, h.pqSorted, h.pqCap, ?_, hq, fun _ => ⟨ht, hn, ?_⟩⟩
  · simp only [finishDec_outq, finishDec_params, List.length_append]
    omega
  · intro hno
    simp [htv] at hno
  · exact (cursorOk_iff _).2 ⟨pend', hw'⟩

/-- DRST keeps the invariant: the cursor goes to the root, or stays at 0 when there is no tree (R210). -/
theorem Inv.drst (h : Inv s) (he : s.eng = .exec) :
    Inv (complete { s with res0 := zext s.depth, cursor := s.root, depth := 0 }) := by
  obtain ⟨hq, htree⟩ := h.pq_tree_of_exec he
  refine ⟨h.params, h.ftNodup, h.ftCap, h.outqCap, h.nodesWf, h.nodesCap, h.pqSorted, h.pqCap, ?_, hq, fun htv => ?_⟩
  · intro htv
    obtain ⟨hr, hn, -, -⟩ := h.noTree htv
    exact ⟨hr, hn, hr, rfl⟩
  · obtain ⟨ht, hn, -⟩ := htree htv
    exact ⟨ht, hn, cursorOk_root ht.rootFork rfl rfl⟩

/-- Every completion step keeps the invariant. -/
theorem Inv.completes {i : Instr} (h : Inv s) (he : s.eng = .exec) (hc : Completes s i t) : Inv t := by
  have hE := h.pq_tree_of_exec he
  cases hc with
  | error i c => exact h.of_stores rfl rfl rfl rfl rfl rfl rfl rfl rfl rfl hE
  | results i r0 r1 r2 r3 => exact h.of_stores rfl rfl rfl rfl rfl rfl rfl rfl rfl rfl hE
  | clear =>
    exact ⟨h.params, List.nodup_nil, Nat.zero_le _, Nat.zero_le _, memory_empty_wf, fun e he => by simp at he,
      h.pqSorted, h.pqCap, fun _ => ⟨rfl, rfl, rfl, rfl⟩, hE.1, fun htv => by simp at htv⟩
  | append c _ habs hroom => exact h.storeAbsent he c habs hroom
  | count c sat hf => exact h.storeFound he _ c hf
  | fset c hf => exact h.storeFound he s.sat c hf
  | buildEmpty hn => exact h.finishEmpty hE.1
  | build m q root next satp hb => exact h.execBuild he hb
  | dec htv hroom => exact h.finishDec he htv (by simpa [State.bitOperand] using hroom)
  | drst => exact h.drst he
  | pop hq =>
    have hcap := h.outqCap
    rw [hq, List.length_cons] at hcap
    exact ⟨h.params, h.ftNodup, h.ftCap, by simp only [complete_outq, complete_params]; omega, h.nodesWf, h.nodesCap,
      h.pqSorted, h.pqCap, h.noTree, hE⟩

/-- The EXEC step keeps the invariant, whatever word is latched. -/
theorem Inv.runLatched (h : Inv s) (he : s.eng = .exec) (hr : runLatched s = .next t) : Inv t := by
  rw [Machine.runLatched] at hr
  split at hr
  · exact h.completes he (exec_completes hr)
  · cases hr
    exact h.completes he (.error .nop .illegal)

/-! ### The tree-merge FSM -/

/-- What an FSM step changes: the node memory within NODE_CAP, an ascending PQ and hidden registers. -/
theorem Inv.fsm (h : Inv s) {m : Memory} {q : List Index} (next i j seed : Index) (satp : Bool) (eng : Eng)
    (hw : Memory.wf m) (hm : ∀ e ∈ m, e.1 < s.params.nodeCap) (hs : (q.map BitVec.toNat).Pairwise (· ≤ ·))
    (hc : q.length ≤ s.params.maxSyms)
    (hE : EngineOk { s with nodes := m, pq := q, nextIdx := next, ia := i, ib := j, seedi := seed, satp := satp,
                            eng := eng }) :
    Inv { s with nodes := m, pq := q, nextIdx := next, ia := i, ib := j, seedi := seed, satp := satp, eng := eng } :=
  ⟨h.params, h.ftNodup, h.ftCap, h.outqCap, hw, hm, hs, hc, h.noTree, hE⟩

/-- A write below NODE_CAP keeps the bound on the indices held (R37). -/
theorem Inv.write_lt (h : Inv s) {i : Index} (e : NodeEntry) (hi : i.toNat < s.params.nodeCap) :
    ∀ p ∈ nodeWrite s.nodes i e, p.1 < s.params.nodeCap := by
  intro p hp
  rcases mem_nodeInsert hp with rfl | hp
  · exact hi
  · exact h.nodesCap p hp

/-- A 16-bit index below the largest does not wrap. -/
theorem toNat_succ {i : Index} (h : i.toNat < 65535) : (i + 1).toNat = i.toNat + 1 :=
  BitVec.toNat_add_of_lt (show i.toNat + 1 < 2 ^ 16 by omega)

/-- B_SEED keeps the invariant (R163): one more leaf is seeded, and after the last one the leaves are a forest. -/
theorem Inv.fsmSeed (h : Inv s) (he : s.eng = .bSeed) (hs : fsmSeed s = .next t) : Inv t := by
  have hE := h.engine
  rw [EngineOk, he] at hE
  obtain ⟨hlt, hnext, hq, hleaf⟩ := hE
  rw [State.nsyms] at hlt hnext
  have hft := h.ft_length_le
  have hcap := h.ftCap
  have hroom := h.nodeCap_ge
  have hsucc := toNat_succ (i := s.seedi) (by omega)
  have hx := List.getElem?_eq_getElem hlt
  have hstep := IsSeeded.step ⟨hq, hleaf⟩ hx
  have hlen : (pqPush s.pq s.seedi).length = s.seedi.toNat + 1 := by simpa using congrArg List.length hstep.queue
  rw [← ftRead_of_entry hx] at hstep
  cases hs
  refine h.fsm _ _ _ _ _ _ (nodeWrite_wf _ _ h.nodesWf) (h.write_lt _ (by omega)) (pqPush_sorted _ h.pqSorted)
    (by omega) ?_
  by_cases hmore : (s.seedi + 1).toNat < s.nsyms
  · rw [← hsucc] at hstep
    simp only [EngineOk, if_pos hmore]
    exact ⟨hmore, hnext, hstep.queue, hstep.leaves⟩
  · have hlast : s.seedi.toNat + 1 = s.ft.length := by
      rw [State.nsyms, hsucc] at hmore
      omega
    rw [hlast] at hstep
    have hforest := hstep.forest
    rw [← hnext] at hforest
    by_cases htwo : 2 ≤ (pqPush s.pq s.seedi).length
    · simp only [EngineOk, if_neg hmore, if_pos htwo]
      exact ⟨hforest, htwo⟩
    · simp only [EngineOk, if_neg hmore, if_neg htwo]
      exact ⟨hforest, by omega⟩

/-- A state of the FSM that takes an element off PQ keeps the invariant when the engine's new state agrees. -/
theorem Inv.pop (h : Inv s) {i : Index} {q : List Index} (hpop : pqPop s.nodes s.pq = some (i, q)) (ia ib : Index)
    (eng : Eng) (hE : EngineOk { s with ia := ia, ib := ib, pq := q, eng := eng }) :
    Inv { s with ia := ia, ib := ib, pq := q, eng := eng } := by
  have hlen := pqPop_length hpop
  have hcap := h.pqCap
  exact h.fsm _ _ _ _ _ _ h.nodesWf h.nodesCap (pqPop_sorted hpop h.pqSorted) (by omega) hE

/-- B_POPA keeps the invariant (R162). -/
theorem Inv.fsmPopA (h : Inv s) (he : s.eng = .bPopA) (hs : fsmPopA s = .next t) : Inv t := by
  have hE := h.engine
  rw [EngineOk, he] at hE
  obtain ⟨hforest, hlen⟩ := hE
  rw [Machine.fsmPopA] at hs
  split at hs
  · cases hs
  · rename_i i q hpop
    cases hs
    have := pqPop_length hpop
    exact h.pop hpop _ _ _ ⟨hforest.perm (pqPop_perm hpop), by simp only; omega⟩

/-- B_POPB keeps the invariant (R162). -/
theorem Inv.fsmPopB (h : Inv s) (he : s.eng = .bPopB) (hs : fsmPopB s = .next t) : Inv t := by
  have hE := h.engine
  rw [EngineOk, he] at hE
  obtain ⟨hforest, -⟩ := hE
  rw [Machine.fsmPopB] at hs
  split at hs
  · cases hs
  · rename_i i q hpop
    cases hs
    exact h.pop hpop _ _ _ (hforest.perm ((pqPop_perm hpop).cons s.ia))

/-- B_JOIN keeps the invariant (R164): one merge of the forest. -/
theorem Inv.fsmJoin (h : Inv s) (he : s.eng = .bJoin) (hs : fsmJoin s = .next t) : Inv t := by
  have hforest := h.engine
  rw [EngineOk, he] at hforest
  have hsize := hforest.size
  have henough := hforest.enough
  simp only [List.length_cons] at hsize
  have hft := h.ft_length_le
  have hcap := h.ftCap
  have hroom := h.nodeCap_ge
  have hsucc := toNat_succ (i := s.nextIdx) (by omega)
  have hjoin := hforest.join
  rw [← hsucc] at hjoin
  have hlen := pqPush_length s.pq s.nextIdx
  cases hs
  refine h.fsm _ _ _ _ _ _ (nodeWrite_wf _ _ h.nodesWf) (h.write_lt _ (by omega)) (pqPush_sorted _ h.pqSorted)
    (by omega) ?_
  by_cases htwo : 2 ≤ (pqPush s.pq s.nextIdx).length
  · simp only [EngineOk, if_pos htwo]
    exact ⟨hjoin, htwo⟩
  · simp only [EngineOk, if_neg htwo]
    exact ⟨hjoin, by omega⟩

/-- B_LAST keeps the invariant (R165): the one root goes to IA. -/
theorem Inv.fsmLast (h : Inv s) (he : s.eng = .bLast) (hs : fsmLast s = .next t) : Inv t := by
  have hE := h.engine
  rw [EngineOk, he] at hE
  obtain ⟨hforest, hone⟩ := hE
  rw [Machine.fsmLast] at hs
  split at hs
  · cases hs
  · rename_i i q hpop
    cases hs
    obtain rfl : q = [] := List.length_eq_zero_iff.1 (by have := pqPop_length hpop; omega)
    exact h.pop hpop _ _ _ ⟨hforest.perm (pqPop_perm hpop), rfl⟩

/-- What the fix-up makes of the last root of a forest of distinct symbols: a tree within NODE_CAP (R166, R169). -/
theorem Inv.fixup_isTree (h : Inv s) (hforest : IsForest s.ft s.nodes s.nextIdx.toNat [s.ia]) :
    ∃ m root next, fixup s.nodes s.ia s.nextIdx = (m, root, next) ∧ IsTree m next.toNat root ∧
      next.toNat ≤ s.params.nodeCap ∧ Memory.wf m ∧ ∀ e ∈ m, e.1 < s.params.nodeCap := by
  obtain ⟨hk, -, hpos, hfork, -⟩ := hforest.last
  have hroom := h.nodeCap_ge
  by_cases hone : s.ft.length = 1
  · have hnext : s.nextIdx = 1 := BitVec.eq_of_toNat_eq (by rw [hk, hone]; rfl)
    rw [hnext] at hforest ⊢
    obtain ⟨htree, hregs, -, -, hw, hcap⟩ := fixup_tree hforest hone
    exact ⟨_, 2, 3, Prod.ext rfl hregs, htree, h.nodeCap_ge_three, hw h.nodesWf, hcap _ h.nodeCap_ge_three h.nodesCap⟩
  · exact ⟨_, _, _, fixup_fork (hfork (by omega)), hforest.tree (by omega) h.ftNodup, by omega, h.nodesWf, h.nodesCap⟩

/-- B_FIXUP keeps the invariant (R166). -/
theorem Inv.fsmFixup (h : Inv s) (he : s.eng = .bFixup) (hs : fsmFixup s = .next t) : Inv t := by
  have hE := h.engine
  rw [EngineOk, he] at hE
  obtain ⟨hforest, hq⟩ := hE
  obtain ⟨m, root, next, hfix, htree, hn, hw, hm⟩ := h.fixup_isTree hforest
  simp only [Machine.fsmFixup, hfix] at hs
  cases hs
  exact h.fsm _ _ _ _ _ _ hw hm h.pqSorted h.pqCap ⟨hq, fun _ => ⟨htree, hn⟩⟩

/-- B_DONE keeps the invariant (R167, R168). -/
theorem Inv.fsmDone (h : Inv s) (he : s.eng = .bDone) (hs : fsmDone s = .next t) : Inv t := by
  have hE := h.engine
  rw [EngineOk, he] at hE
  obtain ⟨hq, htree⟩ := hE
  rw [Machine.fsmDone] at hs
  split at hs
  · cases hs
    exact h.finishEmpty hq
  · rename_i hn
    obtain ⟨ht, hcap⟩ := htree hn
    cases hs
    have := h.finishTree s.satp h.nodesWf h.nodesCap ht hcap
    rwa [← hq] at this

/-! ### Every step -/

/-- An engine step keeps the invariant. -/
theorem Inv.engineStep (h : Inv s) (hs : engineStep s = .next t) : Inv t := by
  rw [Machine.engineStep] at hs
  cases he : s.eng with
  | idle => rw [he] at hs; cases hs; exact h
  | exec => rw [he] at hs; exact h.runLatched he hs
  | bSeed => rw [he] at hs; exact h.fsmSeed he hs
  | bPopA => rw [he] at hs; exact h.fsmPopA he hs
  | bPopB => rw [he] at hs; exact h.fsmPopB he hs
  | bJoin => rw [he] at hs; exact h.fsmJoin he hs
  | bLast => rw [he] at hs; exact h.fsmLast he hs
  | bFixup => rw [he] at hs; exact h.fsmFixup he hs
  | bDone => rw [he] at hs; exact h.fsmDone he hs

/-- A host step keeps the invariant: a read touches only the environment, a write is `Inv.hostWrite`. -/
theorem Inv.hostStep (h : Inv s) (hs : hostStep s = .next t) : Inv t := by
  rw [Machine.hostStep] at hs
  split at hs
  · cases hs
    exact h
  · split at hs
    · cases hs
    · cases hs
      exact h.of_env _ _ _ _
  · split at hs
    · cases hs
    · cases hs
      exact (h.hostWrite _ _).of_env _ _ _ _
  · split at hs
    · cases hs
      exact h.of_env _ _ _ _
    · cases hs
      exact h.of_env _ _ _ _

/-- The reset state satisfies the invariant, with any legal parameters (spec/10_state.md R46). -/
theorem Inv.resetWith {p : Params} (hp : p.wf) : Inv (State.resetWith p) :=
  ⟨hp, List.nodup_nil, Nat.zero_le _, Nat.zero_le _, memory_empty_wf, fun e he => by simp [State.resetWith] at he,
    List.Pairwise.nil, Nat.zero_le _, fun _ => ⟨rfl, rfl, rfl, rfl⟩, rfl, fun htv => by simp [State.resetWith] at htv⟩

/-- Settles O56: with every store empty and no tree, each clause is immediate. -/
theorem resetSatisfiesTheInvariant : Obligations.ResetSatisfiesTheInvariant :=
  ⟨fun _ => Inv.resetWith, Inv.resetWith (by decide)⟩

/-- Settles O57: by who acts; the engine's step by its state, a completion by what the command can answer. -/
theorem everyStepKeepsTheInvariant : Obligations.EveryStepKeepsTheInvariant := by
  intro s t h hs
  have hturn (ts : List Turn) : Inv { s with turns := ts } := h.of_env _ _ ts _
  rw [step] at hs
  split at hs
  · split at hs
    · exact h.engineStep hs
    · exact h.hostStep hs
  · exact (hturn _).hostStep hs
  · exact (hturn _).engineStep hs
  · cases hs
    exact (Inv.resetWith h.params).of_env _ _ _ _

end Sys2Proof.Safety
end

section
/-! The registers whose reset value is unspecified (spec/10_state.md R46, spec/93_implementation_defined.md I10): the
engine writes each before it reads it, so two states that differ only there take the same steps. -/

namespace Sys2Proof.Safety

open Sys2Proof.Machine

/-- The contents of the registers whose reset value is unspecified. -/
structure Unspecified where
  cmdl : Word
  a0l : Word
  a1l : Word
  nextIdx : Index
  ia : Index
  ib : Index
  seedi : Index
  satp : Bool

/-- The state with other contents in the registers whose reset value is unspecified. -/
def withUnspecified (s : State) (d : Unspecified) : State :=
  { s with
    cmdl := d.cmdl, a0l := d.a0l, a1l := d.a1l, nextIdx := d.nextIdx, ia := d.ia, ib := d.ib, seedi := d.seedi
    satp := d.satp }

/-- The contents `d` agree with `s` where the engine reads before it writes. -/
def Agrees (s : State) (d : Unspecified) : Prop :=
  match s.eng with
  | .idle => True
  | .exec => d.cmdl = s.cmdl ∧ d.a0l = s.a0l ∧ d.a1l = s.a1l
  | .bSeed => d.nextIdx = s.nextIdx ∧ d.seedi = s.seedi ∧ d.satp = s.satp
  | .bPopA => d.nextIdx = s.nextIdx ∧ d.satp = s.satp
  | .bPopB => d.nextIdx = s.nextIdx ∧ d.satp = s.satp ∧ d.ia = s.ia
  | .bJoin => d.nextIdx = s.nextIdx ∧ d.satp = s.satp ∧ d.ia = s.ia ∧ d.ib = s.ib
  | .bLast => d.nextIdx = s.nextIdx ∧ d.satp = s.satp
  | .bFixup => d.nextIdx = s.nextIdx ∧ d.satp = s.satp ∧ d.ia = s.ia
  | .bDone => s.nsyms ≠ 0 → d.nextIdx = s.nextIdx ∧ d.satp = s.satp ∧ d.ia = s.ia

/-- `SameButDead` as a change of the unspecified registers that agrees where the engine reads them. -/
theorem sameButDead_iff {s t : State} : SameButDead s t ↔ ∃ d, t = withUnspecified s d ∧ Agrees s d := by
  constructor
  · rintro ⟨hs, hexec, hseed, hpopa, hpopb, hjoin, hlast, hfixup, hdone⟩
    refine ⟨⟨t.cmdl, t.a0l, t.a1l, t.nextIdx, t.ia, t.ib, t.seedi, t.satp⟩, by rw [← hs]; rfl, ?_⟩
    unfold Agrees
    cases he : s.eng with
    | idle => trivial
    | exec => exact hexec he
    | bSeed => exact hseed he
    | bPopA => exact hpopa he
    | bPopB => exact hpopb he
    | bJoin => exact hjoin he
    | bLast => exact hlast he
    | bFixup => exact hfixup he
    | bDone => exact hdone he
  · rintro ⟨d, rfl, hd⟩
    refine ⟨rfl, ?_, ?_, ?_, ?_, ?_, ?_, ?_, ?_⟩ <;> intro he <;> rw [Agrees, he] at hd <;> exact hd

/-- Next states that differ by a change of the unspecified registers that agrees where the engine reads them. -/
theorem sameOutcome_of_agrees {u v : State} (d : Unspecified) (hv : v = withUnspecified u d) (hd : Agrees u d) :
    SameOutcome SameButDead (.next u) (.next v) := sameButDead_iff.2 ⟨d, hv, hd⟩

/-- An idle engine reads none of the unspecified registers. -/
theorem agrees_of_idle {s : State} (he : s.eng = .idle) (d : Unspecified) : Agrees s d := by
  rw [Agrees, he]
  trivial

/-- A completed command leaves states that again differ in the unspecified registers alone: it read none that differs
(the operands are those latched), and it wrote none. -/
theorem exec_sameButDead {s : State} {d : Unspecified} (i : Instr) (h0 : d.a0l = s.a0l) (h1 : d.a1l = s.a1l) :
    SameOutcome SameButDead (exec i s) (exec i (withUnspecified s d)) := by
  have hs : withUnspecified s d = s.withOutside { s.outside with
      cmdl := d.cmdl, nextIdx := d.nextIdx, ia := d.ia, ib := d.ib, seedi := d.seedi, satp := d.satp } := by
    rw [withUnspecified, h0, h1]
    rfl
  rw [hs, exec_withOutside]
  cases hx : exec i s with
  | next t =>
    rw [← exec_outside hx]
    exact sameOutcome_of_agrees ⟨d.cmdl, t.a0l, t.a1l, d.nextIdx, d.ia, d.ib, d.seedi, d.satp⟩ rfl
      (agrees_of_idle (exec_completes hx).eng _)
  | fault f => rfl
  | refused r => rfl

/-- B_SEED writes SEEDI from SEEDI, and reads IA and IB no more than the states after it do. -/
theorem fsmSeed_sameButDead {s : State} {d : Unspecified} (hn : d.nextIdx = s.nextIdx) (hi : d.seedi = s.seedi)
    (hp : d.satp = s.satp) : SameOutcome SameButDead (fsmSeed s) (fsmSeed (withUnspecified s d)) := by
  obtain ⟨c, a0, a1, next, ia, ib, seed, satp⟩ := d
  obtain ⟨rfl, rfl, rfl⟩ : next = s.nextIdx ∧ seed = s.seedi ∧ satp = s.satp := ⟨hn, hi, hp⟩
  refine sameOutcome_of_agrees ⟨c, a0, a1, s.nextIdx, ia, ib, s.seedi + 1, s.satp⟩ rfl ?_
  dsimp only [Agrees]
  split_ifs
  · exact ⟨rfl, rfl, rfl⟩
  · exact ⟨rfl, rfl⟩
  · exact ⟨rfl, rfl⟩

/-- B_JOIN writes NEXT and SATP from the registers it reads. -/
theorem fsmJoin_sameButDead {s : State} {d : Unspecified} (hn : d.nextIdx = s.nextIdx) (hp : d.satp = s.satp)
    (ha : d.ia = s.ia) (hb : d.ib = s.ib) : SameOutcome SameButDead (fsmJoin s) (fsmJoin (withUnspecified s d)) := by
  obtain ⟨c, a0, a1, next, ia, ib, seed, satp⟩ := d
  obtain ⟨rfl, rfl, rfl, rfl⟩ : next = s.nextIdx ∧ satp = s.satp ∧ ia = s.ia ∧ ib = s.ib := ⟨hn, hp, ha, hb⟩
  refine sameOutcome_of_agrees ⟨c, a0, a1, s.nextIdx + 1, s.ia, s.ib, seed,
    s.satp || ovfAdd (nodeRead s.nodes s.ia).freq (nodeRead s.nodes s.ib).freq⟩ rfl ?_
  dsimp only [Agrees]
  split_ifs
  · exact ⟨rfl, rfl⟩
  · exact ⟨rfl, rfl⟩

/-- B_FIXUP writes IA and NEXT from IA and NEXT. -/
theorem fsmFixup_sameButDead {s : State} {d : Unspecified} (hn : d.nextIdx = s.nextIdx) (hp : d.satp = s.satp)
    (ha : d.ia = s.ia) : SameOutcome SameButDead (fsmFixup s) (fsmFixup (withUnspecified s d)) := by
  have hfix : fixup (withUnspecified s d).nodes (withUnspecified s d).ia (withUnspecified s d).nextIdx =
      fixup s.nodes s.ia s.nextIdx := by rw [← hn, ← ha]; rfl
  simp only [fsmFixup, hfix]
  exact sameOutcome_of_agrees { d with
    ia := (fixup s.nodes s.ia s.nextIdx).2.1, nextIdx := (fixup s.nodes s.ia s.nextIdx).2.2 } rfl
      fun _ => ⟨rfl, hp, rfl⟩

/-- B_DONE reads IA, NEXT and SATP only when there is a table, and ends the BUILD. -/
theorem fsmDone_sameButDead {s : State} {d : Unspecified}
    (hd : s.nsyms ≠ 0 → d.nextIdx = s.nextIdx ∧ d.satp = s.satp ∧ d.ia = s.ia) :
    SameOutcome SameButDead (fsmDone s) (fsmDone (withUnspecified s d)) := by
  have hsyms : (withUnspecified s d).nsyms = s.nsyms := rfl
  by_cases h0 : s.nsyms = 0
  · simp only [fsmDone, hsyms, if_pos h0]
    exact sameOutcome_of_agrees d rfl (agrees_of_idle rfl d)
  · obtain ⟨hn, hp, ha⟩ := hd h0
    simp only [fsmDone, hsyms, if_neg h0]
    have hregs : finishTree (withUnspecified s d) (withUnspecified s d).ia (withUnspecified s d).nextIdx
        (withUnspecified s d).satp = withUnspecified (finishTree s s.ia s.nextIdx s.satp) d := by
      rw [← hn, ← hp, ← ha]
      rfl
    rw [hregs]
    exact sameOutcome_of_agrees d rfl (agrees_of_idle rfl d)

/-- A pop reads none of the unspecified registers. -/
theorem pqPop_withUnspecified (s : State) (d : Unspecified) :
    pqPop (withUnspecified s d).nodes (withUnspecified s d).pq = pqPop s.nodes s.pq := rfl

/-- The engine's step in every state: it reads none of the registers that differ, and leaves a state whose next step
reads none either. -/
theorem engineStep_sameButDead {s : State} {d : Unspecified} (hd : Agrees s d) :
    SameOutcome SameButDead (engineStep s) (engineStep (withUnspecified s d)) := by
  have he' : (withUnspecified s d).eng = s.eng := rfl
  cases he : s.eng with
  | idle =>
    simp only [engineStep, he', he]
    exact sameOutcome_of_agrees d rfl hd
  | exec =>
    simp only [Agrees, he] at hd
    obtain ⟨hc, h0, h1⟩ := hd
    have hc' : decode (withUnspecified s d).cmdl = decode s.cmdl := congrArg decode hc
    simp only [engineStep, he', he, runLatched, hc']
    cases decode s.cmdl with
    | ok i => exact exec_sameButDead i h0 h1
    | error e => exact sameOutcome_of_agrees d rfl (agrees_of_idle rfl d)
  | bSeed =>
    simp only [Agrees, he] at hd
    obtain ⟨hn, hi, hp⟩ := hd
    simp only [engineStep, he', he]
    exact fsmSeed_sameButDead hn hi hp
  | bPopA =>
    simp only [Agrees, he] at hd
    obtain ⟨hn, hp⟩ := hd
    simp only [engineStep, he', he, fsmPopA, pqPop_withUnspecified]
    cases pqPop s.nodes s.pq with
    | none => rfl
    | some p => exact sameOutcome_of_agrees { d with ia := p.1 } rfl ⟨hn, hp, rfl⟩
  | bPopB =>
    simp only [Agrees, he] at hd
    obtain ⟨hn, hp, ha⟩ := hd
    simp only [engineStep, he', he, fsmPopB, pqPop_withUnspecified]
    cases pqPop s.nodes s.pq with
    | none => rfl
    | some p => exact sameOutcome_of_agrees { d with ib := p.1 } rfl ⟨hn, hp, ha, rfl⟩
  | bJoin =>
    simp only [Agrees, he] at hd
    obtain ⟨hn, hp, ha, hb⟩ := hd
    simp only [engineStep, he', he]
    exact fsmJoin_sameButDead hn hp ha hb
  | bLast =>
    simp only [Agrees, he] at hd
    obtain ⟨hn, hp⟩ := hd
    simp only [engineStep, he', he, fsmLast, pqPop_withUnspecified]
    cases pqPop s.nodes s.pq with
    | none => rfl
    | some p => exact sameOutcome_of_agrees { d with ia := p.1 } rfl ⟨hn, hp, rfl⟩
  | bFixup =>
    simp only [Agrees, he] at hd
    obtain ⟨hn, hp, ha⟩ := hd
    simp only [engineStep, he', he]
    exact fsmFixup_sameButDead hn hp ha
  | bDone =>
    simp only [Agrees, he] at hd
    simp only [engineStep, he', he]
    exact fsmDone_sameButDead hd

/-- An issue writes the registers the state it leaves will read (R271, R162). -/
theorem issue_sameButDead (v : Word) (s : State) (d : Unspecified) :
    SameButDead (issue v s) (issue v (withUnspecified s d)) := by
  have hexec : SameButDead (latchExec v s) (latchExec v (withUnspecified s d)) :=
    sameOutcome_of_agrees { d with cmdl := v, a0l := s.arg0, a1l := s.arg1 } rfl ⟨rfl, rfl, rfl⟩
  simp only [issue]
  split
  · split
    · refine sameOutcome_of_agrees ⟨v, s.arg0, s.arg1, BitVec.ofNat 16 s.nsyms, d.ia, d.ib, 0, false⟩ rfl ?_
      rw [Agrees, buildIssue_eng]
      split_ifs with h0
      · exact fun hn => absurd h0 hn
      · exact ⟨rfl, rfl, rfl⟩
    · exact hexec
  · exact hexec

/-- A host write of any register. -/
theorem hostWrite_sameButDead (r : Reg) (v : Word) {s : State} {d : Unspecified} (hd : Agrees s d) :
    SameButDead (hostWrite r v s) (hostWrite r v (withUnspecified s d)) := by
  cases r with
  | cmd =>
    have hb : (withUnspecified s d).busy = s.busy := rfl
    simp only [hostWrite, hb]
    split
    · exact sameOutcome_of_agrees d rfl hd
    · exact issue_sameButDead v s d
  | status | arg0 | arg1 | id | cfg | res0 | res1 | res2 | res3 | nsyms | tree | decst | rsv34 | rsv38 | rsv3c =>
    exact sameOutcome_of_agrees d rfl hd

/-- The host's pending accesses are none of the registers that differ. -/
theorem SameButDead.withHost {s t : State} (h : SameButDead s t) (ops : List HostOp) :
    SameButDead { s with host := ops } { t with host := ops } := by
  obtain ⟨d, rfl, hd⟩ := sameButDead_iff.1 h
  exact sameOutcome_of_agrees d rfl hd

/-- A read shows none of the unspecified registers. -/
theorem hostRead_withUnspecified (r : Reg) (s : State) (d : Unspecified) :
    hostRead r (withUnspecified s d) = withUnspecified (hostRead r s) d := by cases r <;> rfl

/-- A host step: reads show none of the unspecified registers, and a write is `hostWrite_sameButDead`. -/
theorem hostStep_sameButDead {s : State} {d : Unspecified} (hd : Agrees s d) :
    SameOutcome SameButDead (hostStep s) (hostStep (withUnspecified s d)) := by
  have hh : (withUnspecified s d).host = s.host := rfl
  have hp : (withUnspecified s d).params = s.params := rfl
  have hr : (withUnspecified s d).readReg .status = s.readReg .status := rfl
  simp only [hostStep, hh, hp, hr, hostRead_withUnspecified]
  cases s.host with
  | nil => exact sameOutcome_of_agrees d rfl hd
  | cons op ops =>
    cases op with
    | rd a =>
      simp only
      cases resolve s.params a with
      | error e => rfl
      | ok r => exact sameOutcome_of_agrees d rfl hd
    | wr a v =>
      simp only
      cases resolve s.params a with
      | error e => rfl
      | ok r => exact (hostWrite_sameButDead r v hd).withHost ops
    | poll =>
      simp only
      split
      · exact sameOutcome_of_agrees d rfl hd
      · exact sameOutcome_of_agrees d rfl hd

/-- Settles O60: by who acts; `SameButDead` is a change of the unspecified registers, and each agent's step carries it
to its next state. -/
theorem unspecifiedRegistersAreNeverObserved : Obligations.UnspecifiedRegistersAreNeverObserved := by
  intro s t h
  obtain ⟨d, rfl, hd⟩ := sameButDead_iff.1 h
  have ht : (withUnspecified s d).turns = s.turns := rfl
  have hb : (withUnspecified s d).busy = s.busy := rfl
  simp only [step, ht, hb]
  cases s.turns with
  | nil =>
    simp only
    split
    · exact engineStep_sameButDead hd
    · exact hostStep_sameButDead hd
  | cons a ts =>
    cases a with
    | host => exact hostStep_sameButDead (s := { s with turns := ts }) hd
    | engine => exact engineStep_sameButDead (s := { s with turns := ts }) hd
    | reset => exact sameOutcome_of_agrees ⟨0, 0, 0, 0, 0, 0, 0, false⟩ rfl (agrees_of_idle rfl _)

end Sys2Proof.Safety
end

section
/-! What commands and engine steps leave alone (spec/10_state.md R27, R34 to R43), and that CODE completes when a tree
is held. -/

namespace Sys2Proof.Safety

open Sys2Proof.Machine

/-- Settles O29: a held tree is one tree with root ROOT, so `tree(ROOT)` is defined. -/
theorem codeCompletesWhenATreeIsHeld : Obligations.CodeCompletesWhenATreeIsHeld := by
  intro s k h he
  obtain ⟨-, htree⟩ := h.pq_tree_of_exec he
  cases htv : s.tv with
  | false => exact ⟨_, if_pos htv, fun hno => by simp at hno⟩
  | true =>
    obtain ⟨t, ht⟩ := (htree htv).1.treeOf_isSome
    exact ⟨_, execCode_of_tree k htv ht, fun _ => rfl⟩

/-- Settles O40: what lies outside a completion step's reach stays (`exec_outside`), and of what it can read the
operands stay and the sticky flags are only set. -/
theorem commandsKeepArgumentsAndStickyFlags : Obligations.CommandsKeepArgumentsAndStickyFlags := by
  intro i s t h
  have hout := exec_outside h
  obtain ⟨hp, h0, h1, hphit, hsat, hdec, hbuild⟩ := (exec_completes h).flags
  simp only [State.outside, Outside.mk.injEq] at hout
  obtain ⟨ha0, ha1, hdrop, hc, hn, hia, hib, hse, hsp, hh, hr, ht, hdr⟩ := hout
  exact ⟨ha0, ha1, hdrop, hphit, hsat, hdec, hbuild, hc, h0, h1, hn, hia, hib, hse, hsp, hp, hh, hr, ht, hdr⟩

/-- Settles O41: by what a command can answer; each answer names the stores it changes. -/
theorem commandsChangeOnlyTheirStores : Obligations.CommandsChangeOnlyTheirStores := by
  intro i s t h
  cases exec_completes h with
  | append c hi habs hroom => rcases hi with rfl | rfl <;> simp
  | error | results | clear | count | fset | buildEmpty | build | dec | drst | pop => simp

/-- Settles O53: the engine reads the latched operands, not ARG0 and ARG1. -/
theorem argumentWritesDoNotReachARunningCommand : Obligations.ArgumentWritesDoNotReachARunningCommand := by
  intro s t x y h
  have hs := engineStep_withArgs s x y
  rwa [h] at hs

/-- Settles O47: clearing by a bit is keeping the flag unless the bit is 1. -/
theorem statusWriteClearsSelectedFlags : Obligations.StatusWriteClearsSelectedFlags := by
  intro s v
  have hclear (flag bit : Bool) : (flag && !bit) = if bit then false else flag := by cases bit <;> simp
  simp only [hostWrite, State.clearFlags, hclear]

/-- Settles O50: a read while idle is the register's word, and each field of a packed word is read back. -/
theorem idleReadsAreTheRegisters : Obligations.IdleReadsAreTheRegisters := by
  intro s hp he
  have hread (r : Reg) : s.readReg r = s.readIdle r := if_neg (by simp [State.busy, he])
  obtain ⟨hversion, hdepth, hmax⟩ := cfgWord_fields hp
  have hbusy : s.status.getLsbD 0 = false := (statusWord_getLsbD_zero ..).trans (by simp [State.busy, he])
  obtain ⟨htv, hpending, h3, hdrop, hphit, hsat⟩ : s.status.getLsbD 1 = s.tv ∧ s.status.getLsbD 2 = s.pending ∧
    s.status.getLsbD 3 = false ∧ s.status.getLsbD 16 = s.drop ∧ s.status.getLsbD 17 = s.phit ∧
    s.status.getLsbD 18 = s.sat := statusWord_flags ..
  obtain ⟨herr, hcount, hreserved⟩ : s.status.extractLsb' 4 4 = s.err.bits ∧
    s.status.extractLsb' 8 8 = s.outqCount ∧ s.status.extractLsb' 19 13 = 0 := statusWord_fields ..
  have hpartial : s.status.getLsbD 2 = true ↔ s.depth ≠ 0 := by
    rw [hpending]
    simp [State.pending]
  simp only [hread]
  exact ⟨rfl, rfl, hversion, hdepth, hmax, hbusy, htv, hpartial, h3, herr, hcount, hdrop, hphit, hsat, hreserved,
    rfl, rfl, rfl, rfl, rfl, rfl, BitVec.extractLsb'_append_eq_right, BitVec.extractLsb'_append_eq_left,
    BitVec.extractLsb'_append_eq_right, BitVec.extractLsb'_append_eq_left,
    BitVec.extractLsb'_append_eq_right, BitVec.extractLsb'_append_eq_left, rfl, rfl, rfl⟩

end Sys2Proof.Safety
end

section
/-! The register block on the host's bus (spec/20_memory.md R60 to R67): which accesses reach a register, the host's
step by its next access, and the byte lanes of a word (R64). -/

namespace Sys2Proof.Machine

/-! ### The address map -/

theorem Reg.offset_lt (r : Reg) : r.offset < 0x40 := by cases r <;> decide

theorem Reg.offset_mod_four (r : Reg) : r.offset % 4 = 0 := by cases r <;> decide

/-- The map has one register at each offset (R21). -/
theorem regAt_eq_some_iff {off : Nat} {r : Reg} : regAt off = some r ↔ r.offset = off := by
  constructor
  · intro h
    simpa using List.find?_some h
  · rintro rfl
    cases r <;> rfl

variable {p : Params} {a : Access} {r : Reg}

theorem resolve_of_outside (h : a.addr < p.base ∨ p.base + 0x40 ≤ a.addr) : resolve p a = .error .outsideBlock :=
  if_pos h

/-- In the block a 32-bit access reaches what the map has at its offset; any other width is refused. -/
theorem resolve_of_inside (h : ¬(a.addr < p.base ∨ p.base + 0x40 ≤ a.addr)) :
    resolve p a = if a.width = .word then (regAt (a.addr - p.base)).elim (.error .undefinedAccess) .ok
      else .error .undefinedAccess := by
  rw [resolve, if_neg h]
  cases a.width with
  | byte | half => rfl
  | word => cases regAt (a.addr - p.base) <;> rfl

theorem resolve_eq_ok_iff : resolve p a = .ok r ↔ a.width = .word ∧ a.addr = p.base + r.offset := by
  have hlt := r.offset_lt
  by_cases hout : a.addr < p.base ∨ p.base + 0x40 ≤ a.addr
  · simp only [resolve_of_outside hout, reduceCtorEq, false_iff]
    omega
  · have haddr : r.offset = a.addr - p.base ↔ a.addr = p.base + r.offset := by omega
    rw [resolve_of_inside hout, ← haddr, ← regAt_eq_some_iff]
    cases a.width with
    | byte | half => simp
    | word => cases regAt (a.addr - p.base) <;> simp

/-- A refusal in the block: the access is narrow, or its offset is no multiple of 4 and so no register's. -/
theorem resolve_of_undefined (hin : ¬(a.addr < p.base ∨ p.base + 0x40 ≤ a.addr))
    (h : a.width ≠ .word ∨ (a.addr - p.base) % 4 ≠ 0) : resolve p a = .error .undefinedAccess := by
  rw [resolve_of_inside hin]
  split
  · next hw =>
    have hnone : regAt (a.addr - p.base) = none := by
      refine Option.eq_none_iff_forall_ne_some.2 fun r hr => ?_
      rw [← regAt_eq_some_iff.1 hr] at h
      exact h.elim (absurd hw) (absurd r.offset_mod_four)
    rw [hnone]
    rfl
  · rfl

/-! ### The host's next access -/

variable {s : State} {ops : List HostOp} {v : Word} {e : Refusal}

theorem hostStep_nil (h : s.host = []) : hostStep s = .next s := by
  simp only [hostStep, h]

theorem hostStep_rd (h : s.host = .rd a :: ops) (hr : resolve s.params a = .ok r) :
    hostStep s = .next { hostRead r s with host := ops } := by
  simp only [hostStep, h, hr]

theorem hostStep_rd_refused (h : s.host = .rd a :: ops) (hr : resolve s.params a = .error e) :
    hostStep s = .refused e := by
  simp only [hostStep, h, hr]

theorem hostStep_wr (h : s.host = .wr a v :: ops) (hr : resolve s.params a = .ok r) :
    hostStep s = .next { hostWrite r v s with host := ops } := by
  simp only [hostStep, h, hr]

theorem hostStep_wr_refused (h : s.host = .wr a v :: ops) (hr : resolve s.params a = .error e) :
    hostStep s = .refused e := by
  simp only [hostStep, h, hr]

theorem busy_of_idle (h : s.eng = .idle) : s.busy = false := by simp [State.busy, h]

theorem busy_of_ne_idle (h : s.eng ≠ .idle) : s.busy = true := by simp [State.busy, h]

/-- A read hands the host the value and, while busy, uses one free value (R276). -/
theorem hostRead_eq (r : Reg) (s : State) : hostRead r s = { s with
    reads := s.readReg r :: s.reads, draws := if s.eng = .idle then s.draws else s.draws + 1 } := by
  by_cases he : s.eng = .idle
  · simp only [hostRead, busy_of_idle he, he, if_true, if_false, Bool.false_eq_true]
  · simp only [hostRead, busy_of_ne_idle he, he, if_true, if_false]

/-! ### Byte lanes -/

theorem byteOfWord_getLsbD (w : Word) {k j : Nat} (hj : j < 8) :
    (byteOfWord w k).getLsbD j = w.getLsbD (8 * k + j) := by
  simp [byteOfWord, hj]

/-- Adjacent lanes join, from the top down, to the whole word. -/
theorem wordOfBytes_byteOfWord (w : Word) :
    wordOfBytes (byteOfWord w 0) (byteOfWord w 1) (byteOfWord w 2) (byteOfWord w 3) = w := by
  have h23 : byteOfWord w 3 ++ byteOfWord w 2 = w.extractLsb' 16 16 :=
    BitVec.extractLsb'_append_extractLsb'_eq_extractLsb' rfl
  have h123 : w.extractLsb' 16 16 ++ byteOfWord w 1 = w.extractLsb' 8 24 :=
    BitVec.extractLsb'_append_extractLsb'_eq_extractLsb' rfl
  have h0123 : w.extractLsb' 8 24 ++ byteOfWord w 0 = w.extractLsb' 0 32 :=
    BitVec.extractLsb'_append_extractLsb'_eq_extractLsb' rfl
  rw [wordOfBytes, h23, h123, h0123, BitVec.extractLsb'_eq_self]

end Sys2Proof.Machine

namespace Sys2Proof.Safety

open Sys2Proof.Machine

/-- Settles O6: the lanes partition the word. -/
theorem registerBytesAreLittleEndian : Obligations.RegisterBytesAreLittleEndian := fun w =>
  ⟨wordOfBytes_byteOfWord w, fun _ _ _ hj => byteOfWord_getLsbD w hj⟩

/-- Settles O48: by register; CMD by whether a command runs. -/
theorem writesHaveTheListedEffect : Obligations.WritesHaveTheListedEffect := by
  intro s v
  refine ⟨fun he => ?_, fun he => ?_, rfl, rfl, rfl, fun r hcmd hstatus harg0 harg1 => ?_⟩
  · simp only [hostWrite, busy_of_idle he, Bool.false_eq_true, if_false]
  · simp only [hostWrite, busy_of_ne_idle he, if_true]
  · cases r with
    | cmd => exact absurd rfl hcmd
    | status => exact absurd rfl hstatus
    | arg0 => exact absurd rfl harg0
    | arg1 => exact absurd rfl harg1
    | id | cfg | res0 | res1 | res2 | res3 | nsyms | tree | decst | rsv34 | rsv38 | rsv3c => rfl

/-- Settles O49: a read that has a step resolves, and then touches only what the host sees. -/
theorem readsAndIdleStepsChangeNothing : Obligations.ReadsAndIdleStepsChangeNothing := by
  refine ⟨fun s t a ops hh ht => ?_, fun s hturns hh he => ?_⟩
  · cases hr : resolve s.params a with
    | error e => simp [hostStep_rd_refused hh hr] at ht
    | ok r =>
      obtain rfl : { hostRead r s with host := ops } = t := by simpa [hostStep_rd hh hr] using ht
      exact ⟨rfl, rfl, r, rfl, rfl⟩
  · simp only [step, hturns, busy_of_idle he, Bool.false_eq_true, if_false]
    exact hostStep_nil hh

/-- Settles O52: by where the access lies, and the host's step by whether it resolves. -/
theorem onlyAlignedWordAccessesHaveAStep : Obligations.OnlyAlignedWordAccessesHaveAStep := by
  intro p a
  refine ⟨fun r => resolve_eq_ok_iff, resolve_of_outside, fun hlo hhi => resolve_of_undefined (by omega), ?_, ?_⟩
  · intro s ops v r hr
    exact ⟨fun hh => by rw [hostStep_rd hh hr, hostRead_eq], fun hh => hostStep_wr hh hr⟩
  · intro s ops v e hr
    exact ⟨fun hh => hostStep_rd_refused hh hr, fun hh => hostStep_wr_refused hh hr⟩

end Sys2Proof.Safety
end

section
/-! The opcode map read field by field (spec/30_encoding.md R91 to R95): which words select a row, and so which words
are ILLEGAL (R99), and that a legal word is the word of its command. -/

namespace Sys2Proof.Machine

/-! ### Bits and fields -/

/-- A bit vector is its low `k` bits and the rest. -/
theorem eq_iff_low_high {n : Nat} (k : Nat) (x y : BitVec n) :
    x = y ↔ x.extractLsb' 0 k = y.extractLsb' 0 k ∧ x.extractLsb' k (n - k) = y.extractLsb' k (n - k) := by
  refine ⟨by rintro rfl; exact ⟨rfl, rfl⟩, fun ⟨hlow, hhigh⟩ => BitVec.eq_of_getLsbD_eq fun i hi => ?_⟩
  by_cases hik : i < k
  · simpa [hik] using congrArg (BitVec.getLsbD · i) hlow
  · have hsub : i - k < n - k := by omega
    have hadd : k + (i - k) = i := by omega
    simpa [hsub, hadd] using congrArg (BitVec.getLsbD · (i - k)) hhigh

/-- A field is 0 when each of its bits is. -/
theorem extractLsb'_eq_zero_iff {n : Nat} (x : BitVec n) (j l : Nat) :
    x.extractLsb' j l = 0 ↔ ∀ i, j ≤ i → i < j + l → x.getLsbD i = false := by
  refine ⟨fun h i hj hl => ?_, fun h => BitVec.eq_of_getLsbD_eq fun i hi => ?_⟩
  · have hsub : i - j < l := by omega
    have hadd : j + (i - j) = i := by omega
    simpa [hsub, hadd] using congrArg (BitVec.getLsbD · (i - j)) h
  · simp [h (j + i) (by omega) (by omega)]

/-! ### Which words select a row -/

variable {r : Row} {w : Word}

/-- A word selects a row whose must-be-zero bits are the `l` bits from `j` on when it has the row's opcode and that
field is 0 (R92). -/
theorem selects_iff_of_field (hr : r ∈ opcodeTable) {j l : Nat} (hj : 8 ≤ j) (hl : j + l ≤ 32)
    (hm : ∀ i < 32, 8 ≤ i → r.mask.getLsbD i = decide (j ≤ i ∧ i < j + l)) :
    r.selects w = true ↔ opcodeOf w = opcodeOf r.pattern ∧ w.extractLsb' j l = 0 := by
  have hlow : ∀ q ∈ opcodeTable, q.mask.extractLsb' 0 8 = BitVec.allOnes 8 := by decide
  have hhigh : ∀ q ∈ opcodeTable, q.pattern.extractLsb' 8 24 = 0 := by decide
  have hfield : (w &&& r.mask).extractLsb' 8 24 = 0 ↔ w.extractLsb' j l = 0 := by
    simp only [extractLsb'_eq_zero_iff, BitVec.getLsbD_and]
    refine ⟨fun h i hji hil => ?_, fun h i h8 h32 => ?_⟩
    · simpa [hm i (by omega) (by omega), hji, hil] using h i (by omega) (by omega)
    · rw [hm i h32 h8]
      by_cases hf : j ≤ i ∧ i < j + l
      · simp [h i hf.1 hf.2]
      · simp [hf]
  rw [Row.selects, beq_iff_eq, eq_iff_low_high 8, hhigh r hr, hfield, BitVec.extractLsb'_and, hlow r hr,
    BitVec.and_allOnes, opcodeOf, opcodeOf, BitVec.toNat_inj]

theorem selects_iff_of_formatZ (hr : r ∈ opcodeTable) (hm : r.mask = 0xFFFFFFFF#32) :
    r.selects w = true ↔ opcodeOf w = opcodeOf r.pattern ∧ w.extractLsb' 8 24 = 0 :=
  selects_iff_of_field hr (by decide) (by decide) (by rw [hm]; decide)

theorem selects_iff_of_formatC (hr : r ∈ opcodeTable) (hm : r.mask = 0x0000FFFF#32) :
    r.selects w = true ↔ opcodeOf w = opcodeOf r.pattern ∧ w.extractLsb' 8 8 = 0 :=
  selects_iff_of_field hr (by decide) (by decide) (by rw [hm]; decide)

theorem selects_iff_of_formatD (hr : r ∈ opcodeTable) (hm : r.mask = 0xFFFFC0FF#32) :
    r.selects w = true ↔ opcodeOf w = opcodeOf r.pattern ∧ w.extractLsb' 14 18 = 0 :=
  selects_iff_of_field hr (by decide) (by decide) (by rw [hm]; decide)

/-! ### Which words decode -/

/-- A word that decodes is read by a row it selects (R93). -/
theorem exists_row_of_decode {i : Instr} (h : decode w = .ok i) :
    ∃ r ∈ opcodeTable, r.selects w = true ∧ r.read w = i := by
  rw [decode] at h
  split at h
  · next r hf =>
    cases h
    exact ⟨r, List.mem_of_find?_eq_some hf, by simpa using List.find?_some hf, rfl⟩
  · cases h

/-- A word is ILLEGAL when it selects no row (R93). -/
theorem decode_error_iff : (∃ e, decode w = .error e) ↔ ¬∃ r ∈ opcodeTable, r.selects w = true := by
  constructor
  · rintro ⟨e, he⟩ ⟨r, hr, hs⟩
    rw [decode_of_selects hr hs] at he
    cases he
  · intro hno
    cases hd : decode w with
    | error e => exact ⟨e, rfl⟩
    | ok i =>
      obtain ⟨r, hr, hs, -⟩ := exists_row_of_decode hd
      exact absurd ⟨r, hr, hs⟩ hno

/-- The opcodes of format Z (R92). -/
def formatZ : List Nat := [0x00, 0x01, 0x02, 0x03, 0x04, 0x10, 0x11, 0x31, 0x32]

/-- The rows by format (R91, R92). -/
theorem row_format : ∀ r ∈ opcodeTable, opcodeOf r.pattern ∈ formatZ ∧ r.mask = 0xFFFFFFFF#32 ∨
    opcodeOf r.pattern = 0x20 ∧ r.mask = 0x0000FFFF#32 ∨
    opcodeOf r.pattern = 0x30 ∧ r.mask = 0xFFFFC0FF#32 := by decide

/-- The words that select a row: an assigned opcode, and the format's must-be-zero bits at 0 (R91, R92). -/
theorem exists_selects_iff (w : Word) : (∃ r ∈ opcodeTable, r.selects w = true) ↔
    opcodeOf w ∈ formatZ ∧ w.extractLsb' 8 24 = 0 ∨ opcodeOf w = 0x20 ∧ w.extractLsb' 8 8 = 0 ∨
      opcodeOf w = 0x30 ∧ w.extractLsb' 14 18 = 0 := by
  constructor
  · rintro ⟨r, hr, hs⟩
    rcases row_format r hr with ⟨hop, hm⟩ | ⟨hop, hm⟩ | ⟨hop, hm⟩
    · obtain ⟨heq, hz⟩ := (selects_iff_of_formatZ hr hm).1 hs
      exact .inl ⟨heq ▸ hop, hz⟩
    · obtain ⟨heq, hz⟩ := (selects_iff_of_formatC hr hm).1 hs
      exact .inr (.inl ⟨heq.trans hop, hz⟩)
    · obtain ⟨heq, hz⟩ := (selects_iff_of_formatD hr hm).1 hs
      exact .inr (.inr ⟨heq.trans hop, hz⟩)
  · have hZ : ∀ o ∈ formatZ, ∃ q ∈ opcodeTable, opcodeOf q.pattern = o ∧ q.mask = 0xFFFFFFFF#32 := by decide
    have hC : ∃ q ∈ opcodeTable, opcodeOf q.pattern = 0x20 ∧ q.mask = 0x0000FFFF#32 := by decide
    have hD : ∃ q ∈ opcodeTable, opcodeOf q.pattern = 0x30 ∧ q.mask = 0xFFFFC0FF#32 := by decide
    rintro (⟨hop, hz⟩ | ⟨hop, hz⟩ | ⟨hop, hz⟩)
    · obtain ⟨q, hq, heq, hm⟩ := hZ _ hop
      exact ⟨q, hq, (selects_iff_of_formatZ hq hm).2 ⟨heq.symm, hz⟩⟩
    · obtain ⟨q, hq, heq, hm⟩ := hC
      exact ⟨q, hq, (selects_iff_of_formatC hq hm).2 ⟨hop.trans heq.symm, hz⟩⟩
    · obtain ⟨q, hq, heq, hm⟩ := hD
      exact ⟨q, hq, (selects_iff_of_formatD hq hm).2 ⟨hop.trans heq.symm, hz⟩⟩

/-! ### A legal word is its command's word -/

/-- A word is its bits 31:8 over its opcode. -/
theorem high_append_opcode {o : BitVec 8} (hop : opcodeOf w = o.toNat) : w.extractLsb' 8 24 ++ o = w := by
  rw [← BitVec.eq_of_toNat_eq hop]
  exact (BitVec.extractLsb'_append_extractLsb'_eq_extractLsb' rfl).trans BitVec.extractLsb'_eq_self

/-- CODE: K is bits 31:16, and bits 15:8 are 0 (R95). -/
theorem encode_code_fieldK (hop : opcodeOf w = 0x20) (hz : w.extractLsb' 8 8 = 0) :
    encode (.code (fieldK w)) = w := by
  have hhigh : w.extractLsb' 16 16 ++ w.extractLsb' 8 8 = w.extractLsb' 8 24 :=
    BitVec.extractLsb'_append_extractLsb'_eq_extractLsb' rfl
  rw [hz] at hhigh
  rw [encode, fieldK, BitVec.ofNat_toNat, BitVec.setWidth_eq]
  exact (congrArg (· ++ 0x20#8) hhigh).trans (high_append_opcode hop)

/-- DEC: N is bits 13:8, and bits 31:14 are 0 (R94). -/
theorem encode_dec_fieldN (hop : opcodeOf w = 0x30) (hz : w.extractLsb' 14 18 = 0) :
    encode (.dec (fieldN w)) = w := by
  have hhigh : w.extractLsb' 14 18 ++ w.extractLsb' 8 6 = w.extractLsb' 8 24 :=
    BitVec.extractLsb'_append_extractLsb'_eq_extractLsb' rfl
  rw [hz] at hhigh
  rw [encode, fieldN, BitVec.ofNat_toNat, BitVec.setWidth_eq]
  exact (congrArg (· ++ 0x30#8) hhigh).trans (high_append_opcode hop)

/-- The command a row reads from a word it selects is well formed, and its word is that word. -/
theorem encode_read_of_selects (hr : r ∈ opcodeTable) (hs : r.selects w = true) :
    (r.read w).wellFormed = true ∧ encode (r.read w) = w := by
  rcases row_format r hr with ⟨-, hm⟩ | ⟨hop, hm⟩ | ⟨hop, hm⟩
  · have hrows : ∀ q ∈ opcodeTable, q.mask = 0xFFFFFFFF#32 →
      (q.read q.pattern).wellFormed = true ∧ encode (q.read q.pattern) = q.pattern := by decide
    have hw : w = r.pattern := by
      rw [Row.selects, beq_iff_eq, hm] at hs
      rw [← hs]
      exact BitVec.and_allOnes.symm
    rw [hw]
    exact hrows r hr hm
  · have hread : ∀ q ∈ opcodeTable, opcodeOf q.pattern = 0x20 → q.read = fun w => .code (fieldK w) := by
      simp [opcodeTable, opcodeOf]
    obtain ⟨heq, hz⟩ := (selects_iff_of_formatC hr hm).1 hs
    rw [hread r hr hop]
    exact ⟨decide_eq_true (BitVec.isLt _), encode_code_fieldK (heq.trans hop) hz⟩
  · have hread : ∀ q ∈ opcodeTable, opcodeOf q.pattern = 0x30 → q.read = fun w => .dec (fieldN w) := by
      simp [opcodeTable, opcodeOf]
    obtain ⟨heq, hz⟩ := (selects_iff_of_formatD hr hm).1 hs
    rw [hread r hr hop]
    exact ⟨decide_eq_true (BitVec.isLt _), encode_dec_fieldN (heq.trans hop) hz⟩

/-- The unassigned opcodes of R99 are those that no format has. -/
theorem unassigned_iff (o : Nat) :
    (0x05 ≤ o ∧ o ≤ 0x0F) ∨ (0x12 ≤ o ∧ o ≤ 0x1F) ∨ (0x21 ≤ o ∧ o ≤ 0x2F) ∨ 0x33 ≤ o ↔
      o ∉ formatZ ∧ o ≠ 0x20 ∧ o ≠ 0x30 := by
  simp only [formatZ, List.mem_cons, List.not_mem_nil, or_false]
  omega

end Sys2Proof.Machine

namespace Sys2Proof.Safety

open Sys2Proof.Machine

/-- Settles O2: `decode_encode`, by the command. -/
theorem decodeOfEncodeIsTheCommand : Obligations.DecodeOfEncodeIsTheCommand := fun _ => decode_encode

/-- Settles O3: the row that reads the word has the word's opcode, its field and its must-be-zero bits. -/
theorem encodeOfDecodeIsTheWord : Obligations.EncodeOfDecodeIsTheWord := by
  intro w i h
  obtain ⟨r, hr, hs, rfl⟩ := exists_row_of_decode h
  exact encode_read_of_selects hr hs

/-- Settles O4: the words of R99's list are those that select no row; an assigned opcode has one format. -/
theorem illegalWordsAreThoseListed : Obligations.IllegalWordsAreThoseListed := by
  intro w
  have hZ : ∀ o ∈ formatZ, o ≠ 0x20 ∧ o ≠ 0x30 := by decide
  have hZw := hZ (opcodeOf w)
  have hCD : opcodeOf w = 0x20 → opcodeOf w ≠ 0x30 := by omega
  rw [decode_error_iff, exists_selects_iff, unassigned_iff]
  change _ ↔ _ ∨ (opcodeOf w ∈ formatZ ∧ _) ∨ _
  tauto

/-- Settles O1: V1's legal words are the words of their commands; the rest select no row. -/
theorem decodeReadsSpecWords : Obligations.DecodeReadsSpecWords :=
  ⟨decode_encode (i := .nop) rfl, decode_encode (i := .clear) rfl, decode_encode (i := .build) rfl,
    decode_encode (i := .pop) rfl, decode_encode (i := .code 3) rfl, decode_encode (i := .code 65535) rfl,
    decode_encode (i := .dec 20) rfl, decode_encode (i := .dec 63) rfl, by decide, by decide, by decide⟩

/-- Settles O5: a word has the opcode of every row it selects, and no two rows have one opcode. -/
theorem noWordSelectsTwoRows : Obligations.NoWordSelectsTwoRows := by
  have hne : opcodeTable.Pairwise fun a b => opcodeOf a.pattern ≠ opcodeOf b.pattern := by decide
  exact hne.imp_of_mem fun ha hb hab w ⟨hwa, hwb⟩ =>
    hab ((opcodeOf_of_selects ha hwa).symm.trans (opcodeOf_of_selects hb hwb))

end Sys2Proof.Safety
end

section
/-! The tree-merge FSM step by step against the loops of the atomic BUILD (spec/42_tree_build.md R161 to R170). -/

namespace Sys2Proof.Safety

open Sys2Proof.Machine

/-! ### Runs of a busy engine -/

/-- `k` engine steps, each from a busy state, lead from one state to another. -/
inductive BusyRun : Nat → State → State → Prop where
  | refl (s : State) : BusyRun 0 s s
  | head {k : Nat} {s t u : State} (hb : s.eng ≠ .idle) (hs : engineStep s = .next t) (hr : BusyRun k t u) :
      BusyRun (k + 1) s u

theorem BusyRun.single {s t : State} (hb : s.eng ≠ .idle) (hs : engineStep s = .next t) : BusyRun 1 s t :=
  .head hb hs (.refl t)

theorem BusyRun.trans {j k : Nat} {s t u : State} (h : BusyRun j s t) (h' : BusyRun k t u) : BusyRun (j + k) s u := by
  induction h with
  | refl s => rwa [Nat.zero_add]
  | head hb hs _ ih =>
    rw [Nat.add_right_comm]
    exact .head hb hs (ih h')

/-! ### The FSM's states -/

/-- A state of the FSM over the table of `s`, with what the atomic BUILD works on in its registers. -/
def fsmAt (s : State) (b : BuildRun) (eng : Eng) (i j seed : Index) : State :=
  { s with
    nodes := b.nodes, pq := b.pq, nextIdx := b.next, satp := b.satp
    eng := eng, ia := i, ib := j, seedi := seed }

/-- Where the FSM goes when a PUSH ends its seeding or a merge (R162). -/
def afterPush (q : List Index) : Eng := if 2 ≤ q.length then .bPopA else .bLast

variable {s : State} {i j seed : Index}

/-- B_SEED is a turn of the seeding loop (R163). -/
theorem engineStep_seed {x : FtEntry} {e : Nat} (b : BuildRun) (hx : s.ft[e]? = some x) (hft : s.ft.length ≤ 32768) :
    engineStep (fsmAt s b .bSeed i j (BitVec.ofNat 16 e)) = .next (fsmAt s (seedOne x e b)
      (if e + 1 < s.ft.length then .bSeed else afterPush (seedOne x e b).pq) i j (BitVec.ofNat 16 (e + 1))) := by
  obtain ⟨hlt, -⟩ := List.getElem?_eq_some_iff.1 hx
  have he : (BitVec.ofNat 16 e).toNat = e := Nat.mod_eq_of_lt (by omega)
  have hsucc : BitVec.ofNat 16 e + 1 = BitVec.ofNat 16 (e + 1) := by simp [BitVec.ofNat_add]
  have he' : (BitVec.ofNat 16 (e + 1)).toNat = e + 1 := Nat.mod_eq_of_lt (by omega)
  simp only [engineStep, fsmSeed, fsmAt, he, hsucc, he', ftRead_of_entry hx]
  rfl

/-- The FSM seeds the entries from number `e` on as the seeding loop does. -/
theorem seedAll_busyRun (x : FtEntry) (xs : List FtEntry) (e : Nat) (b : BuildRun) (hft : s.ft.length ≤ 32768)
    (hx : s.ft.drop e = x :: xs) :
    BusyRun (xs.length + 1) (fsmAt s b .bSeed i j (BitVec.ofNat 16 e)) (fsmAt s (seedAll (x :: xs) e b)
      (afterPush (seedAll (x :: xs) e b).pq) i j (BitVec.ofNat 16 s.ft.length)) := by
  have hget : s.ft[e]? = some x := by rw [← List.head?_drop, hx]; rfl
  have hrest : s.ft.drop (e + 1) = xs := by rw [← List.drop_drop, hx]; rfl
  have hlen : s.ft.length = e + 1 + xs.length := by
    have := congrArg List.length hx
    simp only [List.length_drop, List.length_cons] at this
    omega
  have hstep := engineStep_seed (i := i) (j := j) b hget hft
  cases xs with
  | nil =>
    rw [List.length_nil, Nat.add_zero] at hlen
    rw [hlen, if_neg (lt_irrefl _)] at hstep
    rw [hlen]
    exact .single nofun hstep
  | cons y ys =>
    rw [if_pos (by simp only [List.length_cons] at hlen; omega)] at hstep
    exact .head nofun hstep (seedAll_busyRun y ys (e + 1) (seedOne x e b) hft hrest)

/-- B_POPA, B_POPB and B_JOIN are a turn of the merge loop (R162, R164). -/
theorem joinTwo_busyRun {r : BuildRun} {a b : Index} {q q' : List Index} (ha : pqPop r.nodes r.pq = some (a, q))
    (hb : pqPop r.nodes q = some (b, q')) :
    BusyRun 3 (fsmAt s r .bPopA i j seed) (fsmAt s (joinTwo a b { r with pq := q' })
      (afterPush (joinTwo a b { r with pq := q' }).pq) a b seed) := by
  have hA : engineStep (fsmAt s r .bPopA i j seed) = .next (fsmAt s { r with pq := q } .bPopB a j seed) := by
    simp only [engineStep, fsmPopA, fsmAt, ha]
  have hB : engineStep (fsmAt s { r with pq := q } .bPopB a j seed) =
      .next (fsmAt s { r with pq := q' } .bJoin a b seed) := by
    simp only [engineStep, fsmPopB, fsmAt, hb]
  exact .head nofun hA (.head nofun hB (.single nofun rfl))

/-- With one element left there is nothing to merge. -/
theorem mergeDone_busyRun {r : BuildRun} (h : r.pq.length = 1) :
    BusyRun (3 * (r.pq.length - 1)) (fsmAt s r (afterPush r.pq) i j seed) (fsmAt s r .bLast i j seed) := by
  rw [h, afterPush, if_neg (by omega)]
  exact .refl _

/-- The FSM merges as the merge loop does, three steps a merge, until one element is left. -/
theorem mergeAll_busyRun (fuel : Nat) (r : BuildRun) (i j : Index) (h1 : 1 ≤ r.pq.length)
    (hfuel : r.pq.length ≤ fuel + 1) : ∃ i' j', BusyRun (3 * (r.pq.length - 1)) (fsmAt s r (afterPush r.pq) i j seed)
      (fsmAt s (mergeAll fuel r) .bLast i' j' seed) := by
  induction fuel generalizing r i j with
  | zero => exact ⟨i, j, mergeDone_busyRun (by omega)⟩
  | succ fuel ih =>
    rcases mergeOne_cases r with ⟨hlt, hn⟩ | ⟨a, q, b, q', ha, hb, hm⟩
    · simp only [mergeAll, hn]
      exact ⟨i, j, mergeDone_busyRun (by omega)⟩
    · have hla := pqPop_length ha
      have hlb := pqPop_length hb
      have hlen : (joinTwo a b { r with pq := q' }).pq.length = q'.length + 1 := pqPush_length _ _
      obtain ⟨i', j', hrun⟩ := ih (joinTwo a b { r with pq := q' }) a b (by omega) (by omega)
      have hsteps : 3 * (r.pq.length - 1) = 3 + 3 * ((joinTwo a b { r with pq := q' }).pq.length - 1) := by omega
      rw [hsteps, afterPush, if_pos (by omega)]
      simp only [mergeAll, hm]
      exact ⟨i', j', (joinTwo_busyRun ha hb).trans hrun⟩

/-- B_LAST, B_FIXUP and B_DONE complete the BUILD with the one root left (R165 to R167). -/
theorem finish_busyRun {r : BuildRun} {a root next : Index} {m : Memory} (h0 : s.nsyms ≠ 0) (hq : r.pq = [a])
    (hfix : fixup r.nodes a r.next = (m, root, next)) :
    BusyRun 3 (fsmAt s r .bLast i j seed)
      (finishTree (fsmAt s ⟨m, [], next, r.satp⟩ .bDone root j seed) root next r.satp) := by
  have hlast : engineStep (fsmAt s r .bLast i j seed) = .next (fsmAt s { r with pq := [] } .bFixup a j seed) := by
    simp only [engineStep, fsmLast, fsmAt, hq, pqPop, pqMin, List.erase_cons_head]
  have hfixup : engineStep (fsmAt s { r with pq := [] } .bFixup a j seed) =
      .next (fsmAt s ⟨m, [], next, r.satp⟩ .bDone root j seed) := by
    simp only [engineStep, fsmFixup, fsmAt, hfix]
  exact .head nofun hlast (.head nofun hfixup (.single nofun (if_neg h0)))

theorem seedAll_pq_length (xs : List FtEntry) (e : Nat) (b : BuildRun) :
    (seedAll xs e b).pq.length = b.pq.length + xs.length := by
  induction xs generalizing e b with
  | nil => rfl
  | cons x xs ih =>
    rw [seedAll, ih, List.length_cons, seedOne, pqPush_length]
    omega

/-- BUILD's FSM, run from its issue, completes in `fsmSteps` steps with the state of the atomic BUILD, but for the
working registers (R161, R170). -/
theorem build_busyRun (s : State) (hft : s.ft.length ≤ 32768) (hq : s.pq = []) : ∃ t u, exec .build s = .next t ∧
    BusyRun (fsmSteps s.ft.length) (buildIssue s) u ∧ forgetWorking u = forgetWorking t := by
  cases hx : s.ft with
  | nil =>
    have h0 : s.nsyms = 0 := congrArg List.length hx
    have hdone : (buildIssue s).eng = .bDone := if_pos h0
    have hstep : engineStep (buildIssue s) = .next (finishEmpty (buildIssue s)) := by
      simp only [engineStep, hdone]
      exact if_pos h0
    refine ⟨finishEmpty s, finishEmpty (buildIssue s), if_pos h0, .single (by rw [hdone]; nofun) hstep, ?_⟩
    simp only [forgetWorking, finishEmpty, raiseError, buildIssue, hq]
  | cons x xs =>
    have hlen : s.ft.length = xs.length + 1 := by rw [hx, List.length_cons]
    have h0 : s.nsyms ≠ 0 := by rw [State.nsyms]; omega
    obtain ⟨a, ha, -, -⟩ := buildMerged_forest (s := s) (by simp [hx]) hft
    obtain ⟨m, root, next, hfix⟩ : ∃ m root next, fixup (buildMerged s).nodes a (buildMerged s).next = (m, root, next) :=
      ⟨_, _, _, rfl⟩
    have hissue : buildIssue s = fsmAt s (buildStart s) .bSeed s.ia s.ib (BitVec.ofNat 16 0) := by
      simp only [buildIssue, if_neg h0]
      rfl
    have hseed := seedAll_busyRun (s := s) (i := s.ia) (j := s.ib) x xs 0 (buildStart s) hft hx
    have hpq : (seedAll s.ft 0 (buildStart s)).pq.length = s.ft.length := by
      rw [seedAll_pq_length]
      exact Nat.zero_add _
    rw [← hx, ← hlen] at hseed
    obtain ⟨i', j', hmerge⟩ := mergeAll_busyRun (s := s) (seed := BitVec.ofNat 16 s.ft.length) s.nsyms
      (seedAll s.ft 0 (buildStart s)) s.ia s.ib (by omega) (by rw [State.nsyms]; omega)
    have hsteps : fsmSteps s.ft.length = s.ft.length + 3 * (s.ft.length - 1) + 3 := if_neg h0
    rw [hpq] at hmerge
    rw [← hx, hsteps, hissue]
    refine ⟨finishTree { s with nodes := m, pq := [] } root next (buildMerged s).satp, _, ?_,
      (hseed.trans hmerge).trans (finish_busyRun h0 ha hfix), rfl⟩
    simp only [exec, execBuild, if_neg h0, ha, pqPop, pqMin, List.erase_cons_head, hfix]

end Sys2Proof.Safety
end

section
/-! A script's CMD write and POLL (spec/30_encoding.md R101, R102): with no turn listed, the issue, the steps of the
busy engine, and one read of STATUS. -/

namespace Sys2Proof.Safety

open Sys2Proof.Machine

variable {s t u : State} {ops : List HostOp}

/-- An engine step leaves the host's accesses and the turns alone (spec/20_memory.md R71). -/
theorem engineStep_env (h : engineStep s = .next t) : t.host = s.host ∧ t.turns = s.turns := by
  rw [engineStep] at h
  cases he : s.eng with
  | idle | bSeed | bJoin | bFixup =>
    rw [he] at h
    cases h
    exact ⟨rfl, rfl⟩
  | exec =>
    simp only [he, runLatched] at h
    cases hd : decode s.cmdl with
    | ok i =>
      rw [hd] at h
      have hout := exec_outside h
      exact ⟨congrArg Outside.host hout, congrArg Outside.turns hout⟩
    | error e =>
      rw [hd] at h
      cases h
      exact ⟨rfl, rfl⟩
  | bPopA | bPopB | bLast =>
    simp only [he, fsmPopA, fsmPopB, fsmLast] at h
    split at h
    · cases h
    · cases h
      exact ⟨rfl, rfl⟩
  | bDone =>
    simp only [he, fsmDone] at h
    split at h
    · cases h
      exact ⟨rfl, rfl⟩
    · cases h
      exact ⟨rfl, rfl⟩

theorem BusyRun.env {k : Nat} (h : BusyRun k s t) : t.host = s.host ∧ t.turns = s.turns := by
  induction h with
  | refl s => exact ⟨rfl, rfl⟩
  | head hb hs _ ih =>
    obtain ⟨hhost, hturns⟩ := engineStep_env hs
    exact ⟨ih.1.trans hhost, ih.2.trans hturns⟩

theorem core_run_succ (k : Nat) (h : step s = .next t) :
    Host.Core.run Sys2Proof.core (k + 1) s = Host.Core.run Sys2Proof.core k t := by
  have hcore : Sys2Proof.core.step s = .next t := h
  simp only [Host.Core.run, hcore]

theorem step_of_busy (ht : s.turns = []) (hb : s.eng ≠ .idle) : step s = engineStep s := by
  simp only [step, ht, busy_of_ne_idle hb, if_true]

theorem step_of_idle (ht : s.turns = []) (he : s.eng = .idle) : step s = hostStep s := by
  simp only [step, ht, busy_of_idle he, Bool.false_eq_true, if_false]

/-- With no turn listed, the machine runs a busy engine (log 6). -/
theorem BusyRun.core_run {k : Nat} (h : BusyRun k s t) (ht : s.turns = []) (m : Nat) :
    Host.Core.run Sys2Proof.core (k + m) s = Host.Core.run Sys2Proof.core m t := by
  induction h with
  | refl s => rw [Nat.zero_add]
  | head hb hs _ ih =>
    rw [Nat.add_right_comm, core_run_succ _ ((step_of_busy ht hb).trans hs)]
    exact ih ((engineStep_env hs).2.trans ht)

/-- A POLL made while busy stays, and its read is kept (R101, log 22). -/
theorem hostStep_poll_busy (hh : s.host = .poll :: ops) (hb : s.eng ≠ .idle) :
    hostStep s = .next { s with reads := s.readReg .status :: s.reads, draws := s.draws + 1 } := by
  have hread : (s.readReg .status).getLsbD 0 = true := by
    rw [State.readReg, if_pos (busy_of_ne_idle hb)]
    exact statusWord_getLsbD_zero ..
  simp only [hostStep, hh, hread, if_true, hostRead_eq, if_neg hb]

/-- A POLL made while idle ends with STATUS read (R101, log 22). -/
theorem hostStep_poll_idle (hh : s.host = .poll :: ops) (he : s.eng = .idle) :
    hostStep s = .next { s with host := ops, reads := s.status :: s.reads } := by
  have hstatus : s.readReg .status = s.status := if_neg (by simp [busy_of_idle he])
  have hread : s.status.getLsbD 0 = false := (statusWord_getLsbD_zero ..).trans (busy_of_idle he)
  simp only [hostStep, hh, hstatus, hread, Bool.false_eq_true, if_false, hostRead_eq, he, if_true]

theorem issue_turns (v : Word) (s : State) : (issue v s).turns = s.turns := by
  rw [issue]
  split
  · split <;> rfl
  · rfl

/-- The state with other accesses of the host to come. -/
def withHost (s : State) (ops : List HostOp) : State := { s with host := ops }

/-- A CMD write and a POLL: the issue, the engine's run to its completion, and the read of STATUS. -/
theorem core_run_wr_poll {v : Word} {k : Nat} (he : s.eng = .idle) (ht : s.turns = [])
    (hh : s.host = wrOp s.params .cmd v :: .poll :: ops) (hr : BusyRun k (withHost (issue v s) (.poll :: ops)) u)
    (hu : u.eng = .idle) :
    Host.Core.run Sys2Proof.core (k + 2) s = .next { u with host := ops, reads := u.status :: u.reads } := by
  have hresolve : resolve s.params (regAccess s.params .cmd) = .ok .cmd := resolve_eq_ok_iff.2 ⟨rfl, rfl⟩
  have hissue : step s = .next (withHost (issue v s) (.poll :: ops)) := by
    rw [step_of_idle ht he, hostStep_wr hh hresolve]
    simp only [hostWrite, busy_of_idle he, Bool.false_eq_true, if_false, withHost]
  have hturns : (withHost (issue v s) (.poll :: ops)).turns = [] := (issue_turns v s).trans ht
  obtain ⟨huhost, huturns⟩ := hr.env
  have hpoll := (step_of_idle (huturns.trans hturns) hu).trans (hostStep_poll_idle huhost hu)
  rw [core_run_succ _ hissue, hr.core_run hturns, core_run_succ _ hpoll]
  rfl

/-- A command does the same whatever accesses the host has to come. -/
theorem exec_withHost (i : Instr) (s : State) (ops : List HostOp) :
    exec i (withHost s ops) = mapNext (withHost · ops) (exec i s) := by
  have hs : withHost s ops = s.withOutside { s.outside with host := ops } := rfl
  rw [hs, exec_withOutside]
  cases hx : exec i s with
  | next t =>
    rw [← exec_outside hx]
    rfl
  | fault f => rfl
  | refused r => rfl

/-- The issue of a command other than BUILD latches it for EXEC (R271). -/
theorem issue_of_ne_build {i : Instr} (hw : i.wellFormed = true) (hne : i ≠ .build) (s : State) :
    issue (encode i) s = latchExec (encode i) s := by
  simp only [issue, decode_encode hw, if_neg hne]

/-- The EXEC step runs the latched command, whatever accesses the host has to come. -/
theorem engineStep_withHost_latchExec {i : Instr} (hw : i.wellFormed = true) (hc : command i s = .next t) :
    engineStep (withHost (latchExec (encode i) s) ops) = .next (withHost t ops) := by
  have hexec : engineStep (withHost (latchExec (encode i) s) ops) =
      exec i (withHost (latchExec (encode i) s) ops) := by
    simp only [engineStep, runLatched, withHost, latchExec, latch, decode_encode hw]
  rw [hexec, exec_withHost, ← command_eq_exec hw, hc, mapNext_next]

/-- A command other than BUILD is one engine step. -/
theorem core_run_command {i : Instr} (hw : i.wellFormed = true) (hne : i ≠ .build) (he : s.eng = .idle)
    (ht : s.turns = []) (hh : s.host = wrOp s.params .cmd (encode i) :: .poll :: ops) (hc : command i s = .next t) :
    Host.Core.run Sys2Proof.core 3 s = .next { t with host := ops, reads := t.status :: t.reads } := by
  have hrun : BusyRun 1 (withHost (issue (encode i) s) (.poll :: ops)) (withHost t (.poll :: ops)) := by
    rw [issue_of_ne_build hw hne]
    exact .single nofun (engineStep_withHost_latchExec hw hc)
  rw [command_eq_exec hw] at hc
  exact core_run_wr_poll (u := withHost t (.poll :: ops)) he ht hh hrun (exec_completes hc).eng

/-- BUILD is the FSM's run. -/
theorem core_run_build (he : s.eng = .idle) (ht : s.turns = []) (hq : s.pq = []) (hft : s.ft.length ≤ 32768)
    (hh : s.host = wrOp s.params .cmd (encode .build) :: .poll :: ops) : ∃ t u, command .build s = .next t ∧
      Host.Core.run Sys2Proof.core (fsmSteps s.ft.length + 2) s = .next u ∧
      forgetWorking u = forgetWorking { t with host := ops, reads := t.status :: t.reads } := by
  obtain ⟨t', u, hexec, hrun, hsame⟩ :=
    build_busyRun (withHost (latchExec (encode .build) s) (.poll :: ops)) hft hq
  rw [exec_withHost, ← command_eq_exec rfl] at hexec
  cases hc : command .build s with
  | next t =>
    rw [hc] at hexec
    cases hexec
    have hissue : withHost (issue (encode .build) s) (.poll :: ops) =
      buildIssue (withHost (latchExec (encode .build) s) (.poll :: ops)) := rfl
    have hidle : u.eng = .idle := by
      have heng := congrArg State.eng hsame
      exact heng.trans (exec_completes ((command_eq_exec rfl s).symm.trans hc)).eng
    exact ⟨t, _, rfl, core_run_wr_poll he ht hh (hissue ▸ hrun) hidle,
      congrArg (fun v => { v with host := ops, reads := v.status :: v.reads }) hsame⟩
  | fault f => simp [hc] at hexec
  | refused r => simp [hc] at hexec

/-- Settles O54: the issue, the engine's run with the POLL left in place, and the POLL's one read. -/
theorem writeAndPollRunTheCommand : Obligations.WriteAndPollRunTheCommand := by
  refine ⟨fun s t i ops hw hne he ht hh hc => core_run_command hw hne he ht hh hc,
    fun s ops he ht hq hft hh => core_run_build he ht hq hft hh, fun s ops hh => ?_⟩
  refine ⟨hostStep_poll_busy hh, hostStep_poll_idle hh, fun ts hts => ?_⟩
  simp only [step, hts]

end Sys2Proof.Safety
end

section
/-! COUNT, FSET and FREAD, one equation for each way they end (spec/40_frequency.md R121, R124, R126). -/

namespace Sys2Proof.Safety

open Sys2Proof.Machine

variable {s : State} {i : Nat} {x : Word} {e : FtEntry}

/-! ### The store of COUNT and FSET -/

/-- A write to a valid entry replaces it. -/
theorem ftWrite_of_entry {ft : List FtEntry} (h : ft[i]? = some e) (e' : FtEntry) : ftWrite ft i e' = ft.set i e' :=
  if_pos (List.getElem?_eq_some_iff.1 h).1

/-- A store over a valid entry, field by field. -/
theorem storeEntry_of_entry (h : s.ft[i]? = some e) (e' : FtEntry) : storeEntry s i e' = { s with
    ft := s.ft.set i e', res0 := BitVec.ofNat 32 i, res1 := e'.count, err := .ok, eng := .idle } := by
  simp only [storeEntry, complete, ftWrite_of_entry h]

/-- A store at NSYMS, field by field. -/
theorem storeEntry_append (s : State) (e : FtEntry) : storeEntry s s.ft.length e = { s with
    ft := s.ft ++ [e], res0 := BitVec.ofNat 32 s.ft.length, res1 := e.count, err := .ok, eng := .idle } := by
  simp only [storeEntry, complete, ftWrite_append]

/-! ### COUNT, FSET and FREAD -/

/-- COUNT of a symbol without an entry raises FULL when the table has no room (R121). -/
theorem execCount_full (h : ftFind s.ft s.a0l = none) (hfull : s.ft.length = s.params.maxSyms) :
    execCount s = .next (raiseError .full s) := by
  simp only [execCount, State.symbolOperand, h]
  exact if_pos hfull

/-- FSET of a symbol that has an entry replaces its count (R124). -/
theorem execFset_present (h : ftFind s.ft s.a0l = some i) :
    execFset s = .next (storeEntry s i ⟨s.a0l, s.a1l⟩) := by
  simp only [execFset, State.symbolOperand, h]
  rfl

/-- FSET of a symbol without an entry appends one when there is room (R124). -/
theorem execFset_absent (h : ftFind s.ft s.a0l = none) (hroom : s.ft.length ≠ s.params.maxSyms) :
    execFset s = .next (storeEntry s s.ft.length ⟨s.a0l, s.a1l⟩) := by
  simp only [execFset, State.symbolOperand, h]
  exact if_neg hroom

/-- FSET of a symbol without an entry raises FULL when the table has no room (R124). -/
theorem execFset_full (h : ftFind s.ft s.a0l = none) (hfull : s.ft.length = s.params.maxSyms) :
    execFset s = .next (raiseError .full s) := by
  simp only [execFset, State.symbolOperand, h]
  exact if_pos hfull

/-- FREAD of a valid index reads its entry (R126). -/
theorem execFread_of_entry (h : s.ft[s.a0l.toNat]? = some e) :
    execFread s = .next (complete { s with res0 := e.sym, res1 := e.count }) := by
  have hlt : ¬s.indexOperand ≥ s.nsyms := Nat.not_le.2 (List.getElem?_eq_some_iff.1 h).1
  have hread : ftRead s.ft s.indexOperand = e := ftRead_of_entry h
  rw [execFread, if_neg hlt, hread]

/-- Settles O12: the symbol has one entry, or none and there is room, or none and there is no room. -/
theorem countCountsOneOccurrence : Obligations.CountCountsOneOccurrence := by
  refine ⟨decode_encode (i := .count) rfl, fun s i c hd he => ?_, fun s habs hroom => ?_, fun s habs hfull => ?_⟩
  · have hexec := execCount_present (ftFind_of_entry hd he)
    rw [ftRead_of_entry he] at hexec
    exact hexec.trans (congrArg _ (storeEntry_of_entry (s := { s with sat := s.sat || c == cntMax }) he _))
  · exact (execCount_absent ((ftFind_none_iff _ _).2 habs) hroom).trans (congrArg _ (storeEntry_append s _))
  · exact execCount_full ((ftFind_none_iff _ _).2 habs) hfull

/-- Settles O13: COUNT's three cases, with the count A1 and SAT left alone. -/
theorem fsetSetsTheCount : Obligations.FsetSetsTheCount := by
  refine ⟨decode_encode (i := .fset) rfl, fun s i c hd he => ?_, fun s habs hroom => ?_, fun s habs hfull => ?_⟩
  · exact (execFset_present (ftFind_of_entry hd he)).trans (congrArg _ (storeEntry_of_entry he _))
  · exact (execFset_absent ((ftFind_none_iff _ _).2 habs) hroom).trans (congrArg _ (storeEntry_append s _))
  · exact execFset_full ((ftFind_none_iff _ _).2 habs) hfull

/-- Settles O14: the index is that of a valid entry, or not below NSYMS. -/
theorem freadReadsAnEntry : Obligations.FreadReadsAnEntry :=
  ⟨decode_encode (i := .fread) rfl, fun _ _ he => execFread_of_entry he, fun _ hge => if_pos hge⟩

end Sys2Proof.Safety
end

section
/-! The table of a counted sequence (spec/40_frequency.md R120, R122): how `firstSeen` and `countTable` grow by one
symbol, and that a COUNT makes the table grow so. -/

namespace Sys2Proof.Safety

open Sys2Proof.Machine

variable {xs ys : List Word} {x : Word} {s : State}

/-! ### The distinct symbols -/

theorem mem_firstSeen_iff : x ∈ firstSeen xs ↔ x ∈ xs := by
  refine ⟨fun h => ?_, mem_firstSeen⟩
  induction xs with
  | nil => exact h
  | cons y xs ih =>
    rcases List.mem_cons.1 h with rfl | hx
    · exact List.mem_cons_self
    · exact List.mem_cons_of_mem _ (ih (List.mem_of_mem_filter hx))

theorem firstSeen_nodup (xs : List Word) : (firstSeen xs).Nodup := by
  induction xs with
  | nil => exact List.nodup_nil
  | cons x xs ih => exact List.nodup_cons.2 ⟨by simp, ih.filter _⟩

/-- A longer sequence adds, at the end, the distinct symbols of its rest that were not seen before. -/
theorem firstSeen_append (xs ys : List Word) :
    firstSeen (xs ++ ys) = firstSeen xs ++ (firstSeen ys).filter (· ∉ xs) := by
  induction xs with
  | nil => simp [firstSeen]
  | cons x xs ih => simp [firstSeen, ih, List.filter_filter]

theorem firstSeen_snoc_of_mem (h : x ∈ xs) : firstSeen (xs ++ [x]) = firstSeen xs := by
  simp [firstSeen_append, firstSeen, h]

theorem firstSeen_snoc_of_not_mem (h : x ∉ xs) : firstSeen (xs ++ [x]) = firstSeen xs ++ [x] := by
  simp [firstSeen_append, firstSeen, h]

/-- A symbol that was not seen before adds to the number of distinct symbols. -/
theorem firstSeen_length_lt (h : x ∉ xs) : (firstSeen xs).length < (firstSeen (xs ++ x :: ys)).length := by
  simp [firstSeen_append, firstSeen, h]

/-! ### The count table -/

/-- A symbol's entry in the table of a sequence: its number of occurrences, saturated (R120). -/
def countEntry (xs : List Word) (x : Word) : FtEntry := ⟨x, BitVec.ofNat 32 (min (xs.count x) cntMax.toNat)⟩

theorem countTable_eq_map (xs : List Word) : countTable xs = (firstSeen xs).map (countEntry xs) := rfl

theorem countTable_length (xs : List Word) : (countTable xs).length = (firstSeen xs).length := List.length_map _

/-- `sat_inc` of a saturated number is the saturated successor (R13). -/
theorem satInc_ofNat_min (n : Nat) :
    satInc (BitVec.ofNat 32 (min n cntMax.toNat)) = BitVec.ofNat 32 (min (n + 1) cntMax.toNat) := by
  have hmax : cntMax.toNat = 4294967295 := rfl
  have hone : (1 : Word).toNat = 1 := rfl
  have hlt : min n 4294967295 < 2 ^ 32 := by omega
  rw [satInc, satAdd, hmax, hone, BitVec.toNat_ofNat, Nat.mod_eq_of_lt hlt]
  congr 1
  omega

/-- One more occurrence of a symbol adds 1 to its entry and keeps the others. -/
theorem countEntry_snoc (xs : List Word) (x : Word) :
    countEntry (xs ++ [x]) = Function.update (countEntry xs) x ⟨x, satInc (countEntry xs x).count⟩ := by
  funext y
  by_cases hy : y = x
  · subst hy
    rw [Function.update_self, countEntry, countEntry, satInc_ofNat_min, List.count_append, List.count_singleton_self]
  · have hcount : (xs ++ [x]).count y = xs.count y := by
      rw [List.count_append, List.count_eq_zero_of_not_mem (l := [x]) (by simpa using hy), Nat.add_zero]
    rw [Function.update_of_ne hy, countEntry, countEntry, hcount]

/-- A symbol's entry stands at the place of its first appearance. -/
theorem countTable_getElem?_idxOf (h : x ∈ xs) :
    (countTable xs)[(firstSeen xs).idxOf x]? = some (countEntry xs x) := by
  rw [countTable_eq_map, List.getElem?_map, List.getElem?_idxOf (mem_firstSeen h), Option.map_some]

theorem countTable_syms (xs : List Word) : (countTable xs).map FtEntry.sym = firstSeen xs := by
  simp [countTable, Function.comp_def]

theorem ftFind_countTable_of_mem (h : x ∈ xs) : ftFind (countTable xs) x = some ((firstSeen xs).idxOf x) :=
  ftFind_of_entry (countTable_syms xs ▸ firstSeen_nodup xs) (countTable_getElem?_idxOf h)

theorem ftFind_countTable_of_not_mem (h : x ∉ xs) : ftFind (countTable xs) x = none := by
  refine (ftFind_none_iff _ _).2 fun e he hex => h (mem_firstSeen_iff.1 ?_)
  exact hex ▸ countTable_syms xs ▸ List.mem_map_of_mem he

/-- One more occurrence of a symbol that was seen before replaces its entry. -/
theorem countTable_snoc_of_mem (h : x ∈ xs) : countTable (xs ++ [x]) =
    (countTable xs).set ((firstSeen xs).idxOf x) ⟨x, satInc (countEntry xs x).count⟩ := by
  rw [countTable_eq_map, firstSeen_snoc_of_mem h, countEntry_snoc, (firstSeen_nodup xs).map_update,
    if_pos (mem_firstSeen h), ← countTable_eq_map]

/-- The first occurrence of a symbol appends an entry with the count 1. -/
theorem countTable_snoc_of_not_mem (h : x ∉ xs) : countTable (xs ++ [x]) = countTable xs ++ [⟨x, 1⟩] := by
  have hone : satInc (countEntry xs x).count = 1 := by
    rw [countEntry, satInc_ofNat_min, List.count_eq_zero_of_not_mem h]
    rfl
  rw [countTable_eq_map, firstSeen_snoc_of_not_mem h, countEntry_snoc, List.map_append, List.map_singleton,
    Function.update_self, hone, (firstSeen_nodup xs).map_update, if_neg (h ∘ mem_firstSeen_iff.1),
    ← countTable_eq_map]

/-! ### COUNT over a sequence -/

/-- COUNT of a symbol takes the table of a sequence to that of the sequence with the symbol at its end, if the table
has room for a symbol that was not seen before. -/
theorem command_count_countTable (hft : s.ft = countTable xs)
    (hroom : s.arg0 ∉ xs → (firstSeen xs).length ≠ s.params.maxSyms) :
    ∃ t, command .count s = .next t ∧ t.err = .ok ∧ t.params = s.params ∧ t.ft = countTable (xs ++ [s.arg0]) := by
  rw [command_eq_exec rfl]
  by_cases hmem : s.arg0 ∈ xs
  · have hfind : ftFind s.ft s.arg0 = some ((firstSeen xs).idxOf s.arg0) := hft ▸ ftFind_countTable_of_mem hmem
    have hentry : s.ft[(firstSeen xs).idxOf s.arg0]? = some (countEntry xs s.arg0) :=
      hft ▸ countTable_getElem?_idxOf hmem
    refine ⟨_, execCount_present hfind, rfl, rfl, ?_⟩
    rw [storeEntry_ft, latchExec_ft, ftRead_of_entry hentry, ftWrite_of_entry hentry, countTable_snoc_of_mem hmem, hft]
    rfl
  · have hfind : ftFind s.ft s.arg0 = none := hft ▸ ftFind_countTable_of_not_mem hmem
    have hlen : s.ft.length ≠ s.params.maxSyms := by
      rw [hft, countTable_length]
      exact hroom hmem
    refine ⟨_, execCount_absent hfind hlen, rfl, rfl, ?_⟩
    rw [storeEntry_ft, latchExec_ft, ftWrite_append, countTable_snoc_of_not_mem hmem, hft]
    rfl

/-- Counting the rest of a sequence from the table of its beginning ends with the table of the whole. -/
theorem countAll_countTable (hft : s.ft = countTable xs)
    (hfit : (firstSeen (xs ++ ys)).length ≤ s.params.maxSyms) :
    ∃ t, countAll ys s = some t ∧ t.ft = countTable (xs ++ ys) := by
  induction ys generalizing xs s with
  | nil => exact ⟨s, rfl, by rw [List.append_nil, hft]⟩
  | cons y ys ih =>
    have hroom (h : y ∉ xs) : (firstSeen xs).length ≠ s.params.maxSyms :=
      Nat.ne_of_lt (Nat.lt_of_lt_of_le (firstSeen_length_lt h) hfit)
    obtain ⟨t, ht, herr, hp, htft⟩ := command_count_countTable (s := { s with arg0 := y }) hft hroom
    have hfit' : (firstSeen ((xs ++ [y]) ++ ys)).length ≤ t.params.maxSyms := by
      rw [hp, ← List.append_cons]
      exact hfit
    obtain ⟨u, hu, huft⟩ := ih htft hfit'
    refine ⟨u, by simp only [countAll, ht, herr, if_true, hu], ?_⟩
    rw [huft, ← List.append_cons]

/-- Settles O15: the empty table is the table of the empty sequence. -/
theorem countingASequenceGivesItsTable : Obligations.CountingASequenceGivesItsTable :=
  fun _ _ hft hfit => countAll_countTable (xs := []) hft hfit

end Sys2Proof.Safety
end

section
/-! The order of the priority queue (spec/41_pq_engine.md R142 to R146): the key against the structural order on trees,
and that POPMIN's scan finds a least element. -/

namespace Sys2Proof.Machine

/-! ### The key and the structural order -/

theorem QTree.lml_mem_leaves (t : QTree) : t.lml ∈ t.leaves := by
  induction t with
  | leaf x => exact List.mem_singleton_self x
  | fork l r ihl _ => exact List.mem_append_left _ ihl

/-- Trees with different leftmost leaves are compared down their left spines alone: the right subtrees are never
consulted (R143). -/
theorem cmpT_eq_key_of_lml_ne {t u : QTree} (h : t.lml ≠ u.lml) :
    cmpT t u = (compare t.lsd u.lsd).then (compare t.lml.toNat u.lml.toNat) := by
  induction t generalizing u with
  | leaf a =>
    cases u with
    | leaf b => rfl
    | fork l r => simp [cmpT, QTree.lsd, Nat.compare_eq_lt.2]
  | fork l1 r1 ihl _ =>
    cases u with
    | leaf b => simp [cmpT, QTree.lsd, Nat.compare_eq_gt.2]
    | fork l2 r2 =>
      have hlml : l1.lml ≠ l2.lml := h
      have hne : cmpT l1 l2 ≠ .eq := by
        rw [ihl hlml]
        simp [Ordering.then_eq_eq, BitVec.toNat_inj, hlml]
      have hleft : cmpT (.fork l1 r1) (.fork l2 r2) = cmpT l1 l2 := by
        rw [cmpT]
        cases hc : cmpT l1 l2 with
        | lt => rfl
        | gt => rfl
        | eq => exact absurd hc hne
      have hlsd : compare (l1.lsd + 1) (l2.lsd + 1) = compare l1.lsd l2.lsd := by
        simp [Nat.compare_eq_ite_lt]
      rw [hleft, ihl hlml, QTree.lsd, QTree.lsd, hlsd, QTree.lml, QTree.lml]

/-! ### POPMIN's scan -/

/-- The key comparison is a weak order: what is not before is not before what that is not before. -/
theorem keyBefore_false_trans {a b c : NodeEntry} (h1 : keyBefore a b = false) (h2 : keyBefore b c = false) :
    keyBefore a c = false := by
  simp only [← Bool.not_eq_true, keyBefore_iff] at *
  omega

/-- Entries with different LML are ordered, whatever the rest of their keys. -/
theorem keyBefore_or_of_lml_ne {a b : NodeEntry} (h : a.lml ≠ b.lml) :
    keyBefore a b = true ∨ keyBefore b a = true := by
  have hlml : a.lml.toNat ≠ b.lml.toNat := fun he => h (BitVec.eq_of_toNat_eq he)
  simp only [keyBefore_iff]
  omega

/-- Nothing scanned is before what the scan returns (R146). -/
theorem not_keyBefore_pqMin (m : Memory) {best j : Index} {q : List Index} (hj : j ∈ best :: q) :
    keyBefore (nodeRead m j) (nodeRead m (pqMin m best q)) = false := by
  induction q generalizing best j with
  | nil =>
    obtain rfl := List.mem_singleton.1 hj
    exact keyBefore_irrefl _
  | cons i q ih =>
    rw [pqMin]
    split
    case isTrue hi =>
      rcases List.mem_cons.1 hj with rfl | hj
      · exact keyBefore_false_trans (keyBefore_asymm hi) (ih List.mem_cons_self)
      · exact ih hj
    case isFalse hi =>
      rcases List.mem_cons.1 hj with rfl | hj
      · exact ih List.mem_cons_self
      · rcases List.mem_cons.1 hj with rfl | hj
        · exact keyBefore_false_trans (Bool.eq_false_iff.2 hi) (ih List.mem_cons_self)
        · exact ih (List.mem_cons_of_mem _ hj)

/-- Nothing in the queue is before what POPMIN answers. -/
theorem not_keyBefore_of_pqPop {m : Memory} {q q' : List Index} {i j : Index} (h : pqPop m q = some (i, q'))
    (hj : j ∈ q) : keyBefore (nodeRead m j) (nodeRead m i) = false := by
  cases q with
  | nil => simp at hj
  | cons k q =>
    simp only [pqPop, Option.some.injEq, Prod.mk.injEq] at h
    obtain ⟨rfl, -⟩ := h
    exact not_keyBefore_pqMin m hj

end Sys2Proof.Machine

namespace Sys2Proof.Safety

open Sys2Proof.Machine

/-! ### The roots of a forest -/

section

variable {ft : List FtEntry} {m : Memory} {k : Nat} {q : List Index} {i j : Index}

/-- A node is a LEAF of the table, or a FORK that takes its LML from its LEFT (R149). -/
theorem IsForest.lml_cases (h : IsForest ft m k q) (hj : j.toNat < k) :
    (∃ x, ft[j.toNat]? = some x ∧ (nodeRead m j).lml = x.sym) ∨
      ft.length ≤ j.toNat ∧ ∃ a : Index, a.toNat < j.toNat ∧ a.toNat ∈ childrenOf m j.toNat ∧
        (nodeRead m j).lml = (nodeRead m a).lml := by
  by_cases hl : j.toNat < ft.length
  · have hx := List.getElem?_eq_getElem hl
    exact .inl ⟨_, hx, by rw [nodeRead_of_nodeAt (h.leaves _ _ hx), leafEntry]⟩
  · obtain ⟨a, b, ha, -, hab⟩ := h.forks j.toNat (by omega) hj
    exact .inr ⟨by omega, a, ha, by simp [childrenOf_join hab], by rw [nodeRead_of_nodeAt hab, joinEntry]⟩

/-- No node has two parents (R141). -/
theorem IsForest.parent_unique (h : IsForest ft m k q) {x c d : Nat} (hc : c < k) (hd : d < k)
    (hxc : x ∈ childrenOf m c) (hxd : x ∈ childrenOf m d) : c = d := by
  have hnodup : (childList m k).Nodup := (h.parents.nodup_iff.2 List.nodup_range).of_append_right
  by_contra hne
  have hsymm : Std.Symm (Function.onFun List.Disjoint (childrenOf m)) := ⟨fun _ _ hab => List.Disjoint.symm hab⟩
  exact (List.nodup_flatMap.1 hnodup).2.forall (List.mem_range.2 hc) (List.mem_range.2 hd) hne hxc hxd

/-- Of two nodes with one LML, the one of smaller index is below the other: both lie on the one left spine over the
leaf of that symbol. -/
theorem IsForest.parent_of_lml_eq (h : IsForest ft m k q) (hn : (ft.map FtEntry.sym).Nodup) (hj : j.toNat < k)
    (hij : i.toNat < j.toNat) (hlml : (nodeRead m i).lml = (nodeRead m j).lml) :
    ∃ c ≤ j.toNat, i.toNat ∈ childrenOf m c := by
  induction hd : j.toNat using Nat.strong_induction_on generalizing i j with
  | _ d ih =>
    subst hd
    rcases h.lml_cases hj with ⟨y, hy, hjl⟩ | ⟨-, a, ha, hmem, hjl⟩
    · -- a LEAF: the other would be a LEAF of the same symbol
      have hjn := (List.getElem?_eq_some_iff.1 hy).1
      rcases h.lml_cases (j := i) (by omega) with ⟨x, hx, hil⟩ | ⟨hin, -⟩
      · have hsym : (ft.map FtEntry.sym)[i.toNat]? = (ft.map FtEntry.sym)[j.toNat]? := by
          rw [List.getElem?_map, List.getElem?_map, hx, hy, Option.map_some, Option.map_some, ← hil, ← hjl, hlml]
        have := (List.getElem?_inj (by simpa using Nat.lt_trans hij hjn) hn).1 hsym
        omega
      · omega
    · rcases Nat.lt_trichotomy a.toNat i.toNat with hai | hai | hai
      · -- the other is on the spine above `a`, which would give `a` a second parent
        obtain ⟨c, hc, hac⟩ := ih i.toNat hij (by omega) hai (hjl ▸ hlml.symm) rfl
        have := h.parent_unique (by omega) hj hac hmem
        omega
      · exact ⟨j.toNat, le_refl _, hai ▸ hmem⟩
      · obtain ⟨c, hc, hic⟩ := ih a.toNat ha (by omega) hai (hlml.trans hjl) rfl
        exact ⟨c, by omega, hic⟩

/-- A root is no node's child. -/
theorem IsForest.root_not_child (h : IsForest ft m k q) (hi : i ∈ q) {c : Nat} (hc : c < k) :
    i.toNat ∉ childrenOf m c := fun hic =>
  (h.parents.nodup_iff.2 List.nodup_range).disjoint (List.mem_map_of_mem hi)
    (List.mem_flatMap.2 ⟨c, List.mem_range.2 hc, hic⟩)

/-- Two roots have different LMLs: their trees have no leaf in common (R141). -/
theorem IsForest.lml_ne_of_roots (h : IsForest ft m k q) (hn : (ft.map FtEntry.sym).Nodup) (hi : i ∈ q) (hj : j ∈ q)
    (hij : i ≠ j) : (nodeRead m i).lml ≠ (nodeRead m j).lml := by
  intro hlml
  rcases Nat.lt_or_gt_of_ne fun he => hij (BitVec.eq_of_toNat_eq he) with hlt | hlt
  · obtain ⟨c, hc, hic⟩ := h.parent_of_lml_eq hn (h.root_lt hj) hlt hlml
    exact h.root_not_child hi (Nat.lt_of_le_of_lt hc (h.root_lt hj)) hic
  · obtain ⟨c, hc, hjc⟩ := h.parent_of_lml_eq hn (h.root_lt hi) hlt hlml.symm
    exact h.root_not_child hj (Nat.lt_of_le_of_lt hc (h.root_lt hi)) hjc

end

/-- In a state that pops, the queue's elements are roots of the forest. -/
theorem Inv.forest_of_pops {s : State} (h : Inv s) (he : s.eng = .bPopA ∨ s.eng = .bPopB ∨ s.eng = .bLast) :
    ∃ roots, IsForest s.ft s.nodes s.nextIdx.toNat roots ∧ s.pq.Sublist roots := by
  have hE := h.engine
  rcases he with he | he | he <;> simp only [EngineOk, he] at hE
  · exact ⟨s.pq, hE.1, List.Sublist.refl _⟩
  · exact ⟨s.ia :: s.pq, hE.1, List.sublist_cons_self _ _⟩
  · exact ⟨s.pq, hE.1, List.Sublist.refl _⟩

/-! ### The obligations -/

/-- Settles O16: trees with no leaf in common have different leftmost leaves. -/
theorem keyOrderIsTheStructuralOrder : Obligations.KeyOrderIsTheStructuralOrder :=
  fun t u hdisj => cmpT_eq_key_of_lml_ne fun he => hdisj t.lml t.lml_mem_leaves (he ▸ u.lml_mem_leaves)

/-- Settles O17: nothing is before what POPMIN answers, so what is ordered with it comes after. -/
theorem popminRemovesTheSmallest : Obligations.PopminRemovesTheSmallest := by
  intro m q hne _ htotal
  obtain ⟨i, q', hpop⟩ := pqPop_of_ne_nil m hne
  obtain ⟨hi, rfl⟩ := pqPop_some hpop
  refine ⟨i, hpop, hi, fun j hj hji => ?_⟩
  have hleast := not_keyBefore_of_pqPop hpop hj
  exact ⟨(htotal i hi j hj hji.symm).resolve_right (by simp [hleast]), hleast⟩

/-- Settles O18: the queue's elements are roots of a forest, and two roots have different LMLs. -/
theorem queueOrderIsStrict : Obligations.QueueOrderIsStrict := by
  intro s hs he
  obtain ⟨roots, hforest, hsub⟩ := hs.forest_of_pops he
  exact ⟨hsub.nodup hforest.roots_nodup, fun i hi j hj hij => keyBefore_or_of_lml_ne
    (hforest.lml_ne_of_roots hs.ftNodup (hsub.subset hi) (hsub.subset hj) hij)⟩

end Sys2Proof.Safety
end

section
/-! The abstract merge loop (spec/42_tree_build.md R160, spec/41_pq_engine.md R142): each turn takes the two elements of
least key, and so depends on the queue as a multiset alone when no two elements share a leftmost leaf (R144). -/

namespace Sys2Proof.Machine

/-! ### The key of an element -/

/-- The key of a queue element, in lexicographic order: frequency, left-spine depth, leftmost leaf (R143). -/
def elemKey (x : Elem) : Nat ×ₗ Nat ×ₗ Nat := toLex (x.1.toNat, toLex (x.2.lsd, x.2.lml.toNat))

/-- No two elements of a queue have the same leftmost leaf. -/
def DistinctLml (q : List Elem) : Prop := (q.map fun x => x.2.lml).Nodup

theorem DistinctLml.perm {q r : List Elem} (h : DistinctLml q) (hp : q.Perm r) : DistinctLml r :=
  (hp.map _).nodup_iff.1 h

theorem DistinctLml.sublist {q r : List Elem} (h : DistinctLml q) (hs : r.Sublist q) : DistinctLml r :=
  List.Nodup.sublist (hs.map _) h

/-- Elements with different leftmost leaves stand in the order of their keys (R143). -/
theorem elemBefore_iff_key_lt {x y : Elem} (h : x.2.lml ≠ y.2.lml) : elemBefore x y = true ↔ elemKey x < elemKey y := by
  simp only [elemBefore, elemKey, cmpT_eq_key_of_lml_ne h, Prod.Lex.toLex_lt_toLex, Bool.or_eq_true, Bool.and_eq_true,
    decide_eq_true_eq, beq_iff_eq, Ordering.then_eq_lt, Nat.compare_eq_lt, Nat.compare_eq_eq, BitVec.toNat_inj]

/-- Among elements with different leftmost leaves a key has one element. -/
theorem DistinctLml.eq_of_key_eq {q : List Elem} (h : DistinctLml q) {x y : Elem} (hx : x ∈ q) (hy : y ∈ q)
    (hk : elemKey x = elemKey y) : x = y := by
  have hpair : (x.1.toNat, toLex (x.2.lsd, x.2.lml.toNat)) = (y.1.toNat, toLex (y.2.lsd, y.2.lml.toNat)) := hk
  have hlml : x.2.lml.toNat = y.2.lml.toNat := congrArg (fun k : Nat ×ₗ Nat => (ofLex k).2) (Prod.ext_iff.1 hpair).2
  exact List.inj_on_of_nodup_map h hx hy (BitVec.eq_of_toNat_eq hlml)

/-! ### The least element -/

theorem minElem_mem (best : Elem) (q : List Elem) : minElem best q ∈ best :: q := by
  induction q generalizing best with
  | nil => exact List.mem_singleton_self best
  | cons x q ih =>
    rw [minElem]
    split
    · exact List.mem_cons_of_mem _ (ih x)
    · exact ((List.sublist_cons_self x q).cons_cons best).subset (ih best)

/-- The scan returns an element of least key. -/
theorem elemKey_minElem_le {best y : Elem} {q : List Elem} (h : DistinctLml (best :: q)) (hy : y ∈ best :: q) :
    elemKey (minElem best q) ≤ elemKey y := by
  induction q generalizing best y with
  | nil => rw [List.mem_singleton.1 hy, minElem]
  | cons x q ih =>
    have hx : DistinctLml (x :: q) := h.sublist (List.sublist_cons_self best _)
    have hbest : DistinctLml (best :: q) := h.sublist ((List.sublist_cons_self x q).cons_cons best)
    have hne : x.2.lml ≠ best.2.lml := fun he => (List.nodup_cons.1 h).1 (by simp [he])
    rw [minElem]
    split
    case isTrue hlt =>
      rcases List.mem_cons.1 hy with rfl | hy
      · exact (ih hx List.mem_cons_self).trans ((elemBefore_iff_key_lt hne).1 hlt).le
      · exact ih hx hy
    case isFalse hlt =>
      rcases List.mem_cons.1 hy with rfl | hy
      · exact ih hbest List.mem_cons_self
      · rcases List.mem_cons.1 hy with rfl | hy
        · exact (ih hbest List.mem_cons_self).trans (not_lt.1 fun hk => hlt ((elemBefore_iff_key_lt hne).2 hk))
        · exact ih hbest (List.mem_cons_of_mem _ hy)

theorem eq_nil_of_takeMin {q : List Elem} (h : takeMin q = none) : q = [] := by
  cases q with
  | nil => rfl
  | cons x q => simp [takeMin] at h

/-- What `takeMin` takes is in the queue, and the rest is the queue without it. -/
theorem takeMin_perm {q q' : List Elem} {x : Elem} (h : takeMin q = some (x, q')) : q.Perm (x :: q') := by
  cases q with
  | nil => simp [takeMin] at h
  | cons y q =>
    simp only [takeMin, Option.some.injEq, Prod.mk.injEq] at h
    obtain ⟨rfl, rfl⟩ := h
    exact List.perm_cons_erase (minElem_mem y q)

theorem takeMin_length {q q' : List Elem} {x : Elem} (h : takeMin q = some (x, q')) : q.length = q'.length + 1 := by
  simpa using (takeMin_perm h).length_eq

/-- What `takeMin` takes has the least key. -/
theorem elemKey_le_of_takeMin {q q' : List Elem} {x y : Elem} (hd : DistinctLml q) (h : takeMin q = some (x, q'))
    (hy : y ∈ q) : elemKey x ≤ elemKey y := by
  cases q with
  | nil => simp at hy
  | cons z q =>
    simp only [takeMin, Option.some.injEq, Prod.mk.injEq] at h
    obtain ⟨rfl, -⟩ := h
    exact elemKey_minElem_le hd hy

/-- An element of least key is the one that `takeMin` takes. -/
theorem eq_of_takeMin {q q' : List Elem} {x z : Elem} (hd : DistinctLml q) (h : takeMin q = some (x, q')) (hz : z ∈ q)
    (hleast : ∀ y ∈ q, elemKey z ≤ elemKey y) : z = x := by
  have hx : x ∈ q := (takeMin_perm h).mem_iff.2 List.mem_cons_self
  exact hd.eq_of_key_eq hz hx (le_antisymm (hleast x hx) (elemKey_le_of_takeMin hd h hz))

/-- `takeMin` sees a queue as a multiset. -/
theorem takeMin_of_perm {q q' r : List Elem} {x : Elem} (hd : DistinctLml q) (hp : q.Perm r)
    (h : takeMin q = some (x, q')) : ∃ r', takeMin r = some (x, r') ∧ q'.Perm r' := by
  have hx : x ∈ q := (takeMin_perm h).mem_iff.2 List.mem_cons_self
  obtain ⟨⟨z, r'⟩, hr⟩ := Option.ne_none_iff_exists'.1 fun hr =>
    List.ne_nil_of_mem (hp.mem_iff.1 hx) (eq_nil_of_takeMin hr)
  obtain rfl : x = z := eq_of_takeMin (hd.perm hp) hr (hp.mem_iff.1 hx) fun y hy =>
    elemKey_le_of_takeMin hd h (hp.mem_iff.2 hy)
  exact ⟨r', hr, List.Perm.cons_inv ((takeMin_perm h).symm.trans (hp.trans (takeMin_perm hr)))⟩

/-! ### The merge loop -/

/-- The element that a turn of the merge loop makes of the two it pops (R160). -/
def joinElem (x y : Elem) : Elem := (satAdd x.1 y.1, .fork x.2 y.2)

/-- A turn of the merge loop: nothing is left to merge, or the two least elements are joined. -/
theorem mergeElems_cases (q : List Elem) :
    (q.length < 2 ∧ ∀ fuel, mergeElems fuel q = q ∧ mergePairs fuel q = [] ∧ mergeOverflows fuel q = false) ∨
      ∃ x q1 y q2, takeMin q = some (x, q1) ∧ takeMin q1 = some (y, q2) ∧ ∀ fuel,
        mergeElems (fuel + 1) q = mergeElems fuel (joinElem x y :: q2) ∧
        mergePairs (fuel + 1) q = (x, y) :: mergePairs fuel (joinElem x y :: q2) ∧
        mergeOverflows (fuel + 1) q = (ovfAdd x.1 y.1 || mergeOverflows fuel (joinElem x y :: q2)) := by
  cases hx : takeMin q with
  | none =>
    obtain rfl := eq_nil_of_takeMin hx
    exact .inl ⟨by simp, fun fuel => by cases fuel <;> exact ⟨rfl, rfl, rfl⟩⟩
  | some p =>
    obtain ⟨x, q1⟩ := p
    cases hy : takeMin q1 with
    | none =>
      obtain rfl := eq_nil_of_takeMin hy
      refine .inl ⟨by simp [takeMin_length hx], fun fuel => ?_⟩
      cases fuel with
      | zero => exact ⟨rfl, rfl, rfl⟩
      | succ fuel => simp only [mergeElems, mergePairs, mergeOverflows, hx, hy, and_self]
    | some p =>
      obtain ⟨y, q2⟩ := p
      refine .inr ⟨x, q1, y, q2, rfl, hy, fun fuel => ?_⟩
      simp only [mergeElems, mergePairs, mergeOverflows, hx, hy, joinElem, and_self]

/-- Two elements popped, and the rest. -/
theorem takeMin_two_perm {q q1 q2 : List Elem} {x y : Elem} (hx : takeMin q = some (x, q1))
    (hy : takeMin q1 = some (y, q2)) : q.Perm (x :: y :: q2) :=
  (takeMin_perm hx).trans ((takeMin_perm hy).cons x)

/-- A join keeps the leftmost leaf of its left and drops that of its right. -/
theorem DistinctLml.join {q q2 : List Elem} {x y : Elem} (h : DistinctLml q) (hp : q.Perm (x :: y :: q2)) :
    DistinctLml (joinElem x y :: q2) :=
  show DistinctLml (x :: q2) from (h.perm hp).sublist ((List.sublist_cons_self y q2).cons_cons x)

/-- The merge loop ends with one element and has popped one pair a merge. -/
theorem mergeElems_length {fuel : Nat} {q : List Elem} (h : q.length ≤ fuel + 1) :
    (mergeElems fuel q).length = min q.length 1 ∧ (mergePairs fuel q).length = q.length - 1 := by
  induction fuel generalizing q with
  | zero => exact ⟨by rw [mergeElems]; omega, by rw [mergePairs, List.length_nil]; omega⟩
  | succ fuel ih =>
    rcases mergeElems_cases q with ⟨hlt, hstop⟩ | ⟨x, q1, y, q2, hx, hy, hstep⟩
    · obtain ⟨hq, hpairs, -⟩ := hstop (fuel + 1)
      rw [hq, hpairs, List.length_nil]
      omega
    · obtain ⟨hq, hpairs, -⟩ := hstep fuel
      have hlen : q.length = q2.length + 2 := (takeMin_two_perm hx hy).length_eq
      obtain ⟨ihq, ihpairs⟩ := ih (q := joinElem x y :: q2) (by rw [List.length_cons]; omega)
      rw [hq, hpairs, List.length_cons, ihq, ihpairs, List.length_cons]
      omega

/-- The merge loop sees a queue as a multiset. -/
theorem mergeElems_perm (fuel : Nat) {q r : List Elem} (hd : DistinctLml q) (hp : q.Perm r) :
    (mergeElems fuel q).Perm (mergeElems fuel r) := by
  induction fuel generalizing q r with
  | zero => exact hp
  | succ fuel ih =>
    rcases mergeElems_cases q with ⟨hlt, hstop⟩ | ⟨x, q1, y, q2, hx, hy, hstep⟩
    · rcases mergeElems_cases r with ⟨-, hstop'⟩ | ⟨x, r1, y, r2, hx, hy, -⟩
      · rw [(hstop _).1, (hstop' _).1]
        exact hp
      · have := hp.length_eq.trans (takeMin_two_perm hx hy).length_eq
        simp only [List.length_cons] at this
        omega
    · obtain ⟨r1, hx', hp1⟩ := takeMin_of_perm hd hp hx
      have hd1 : DistinctLml q1 := (hd.perm (takeMin_perm hx)).sublist (List.sublist_cons_self x q1)
      obtain ⟨r2, hy', hp2⟩ := takeMin_of_perm hd1 hp1 hy
      have hstep' : mergeElems (fuel + 1) r = mergeElems fuel (joinElem x y :: r2) := by
        simp only [mergeElems, hx', hy', joinElem]
      rw [(hstep fuel).1, hstep']
      exact ih (hd.join (takeMin_two_perm hx hy)) (hp2.cons _)

/-- Merging keeps the leaves. -/
theorem mergeElems_leaves (fuel : Nat) (q : List Elem) :
    ((mergeElems fuel q).flatMap fun x => x.2.leaves).Perm (q.flatMap fun x => x.2.leaves) := by
  induction fuel generalizing q with
  | zero => exact .refl _
  | succ fuel ih =>
    rcases mergeElems_cases q with ⟨-, hstop⟩ | ⟨x, q1, y, q2, hx, hy, hstep⟩
    · rw [(hstop _).1]
    · have hleaves : (joinElem x y :: q2).flatMap (fun z => z.2.leaves) =
          (x :: y :: q2).flatMap fun z => z.2.leaves := by
        simp only [joinElem, QTree.leaves, List.flatMap_cons, List.append_assoc]
      rw [(hstep fuel).1]
      refine (ih _).trans ?_
      rw [hleaves]
      exact (takeMin_two_perm hx hy).symm.flatMap_right _

/-! ### `buildTree` -/

theorem seedElems_distinct {ft : List FtEntry} (h : (ft.map FtEntry.sym).Nodup) : DistinctLml (seedElems ft) := by
  rw [DistinctLml, seedElems, List.map_map]
  exact h

theorem seedElems_perm {ft ft' : List FtEntry} (h : ft.Perm ft') : (seedElems ft).Perm (seedElems ft') := h.map _

theorem seedElems_length (ft : List FtEntry) : (seedElems ft).length = ft.length := List.length_map _

theorem seedElems_leaves (ft : List FtEntry) : (seedElems ft).flatMap (fun x => x.2.leaves) = ft.map FtEntry.sym := by
  rw [seedElems, List.flatMap_map, List.map_eq_flatMap]
  rfl

/-- `buildTree` of a table with entries is the final tree of the one element the merge loop ends with. -/
theorem buildTree_eq {ft : List FtEntry} (h : ft ≠ []) :
    ∃ x, mergeElems ft.length (seedElems ft) = [x] ∧ buildTree ft = some (finalTree x.2) := by
  have hpos := List.length_pos_iff.2 h
  have hseed := seedElems_length ft
  obtain ⟨hlen, -⟩ := mergeElems_length (fuel := ft.length) (q := seedElems ft) (by omega)
  obtain ⟨x, hx⟩ := List.length_eq_one_iff.1 (hlen.trans (by omega))
  exact ⟨x, hx, by rw [buildTree, hx]⟩

theorem QTree.toTree_leaves (t : QTree) : t.toTree.leaves = t.leaves := by
  induction t with
  | leaf x => rfl
  | fork l r ihl ihr => rw [toTree, Tree.leaves, ihl, ihr, QTree.leaves]

/-- The final tree is a fork over the leaves of the queue tree. -/
theorem finalTree_eq_fork (t : QTree) : ∃ l r, finalTree t = .fork l r ∧ (Tree.fork l r).leaves = t.leaves := by
  cases t with
  | leaf x => exact ⟨.leaf x, .placeholder, rfl, rfl⟩
  | fork l r => exact ⟨l.toTree, r.toTree, rfl, (QTree.fork l r).toTree_leaves⟩

end Sys2Proof.Machine

namespace Sys2Proof.Safety

open Sys2Proof.Machine

/-- Settles O26: the merge loop sees its queue as a multiset, and ends with one element at most. -/
theorem buildTreeIgnoresTableOrder : Obligations.BuildTreeIgnoresTableOrder := by
  intro ft ft' hn hp
  by_cases h : ft = []
  · obtain rfl := h
    rw [hp.nil_eq]
  · have h' : ft' ≠ [] := fun he => h (he ▸ hp).eq_nil
    obtain ⟨x, hx, htree⟩ := buildTree_eq h
    obtain ⟨y, hy, htree'⟩ := buildTree_eq h'
    have hmerged := mergeElems_perm ft.length (seedElems_distinct hn) (seedElems_perm hp)
    rw [hx, hp.length_eq, hy, List.singleton_perm_singleton] at hmerged
    rw [htree, htree', hmerged]

/-- Settles O25: merging keeps the leaves, and the final tree adds none. -/
theorem buildTreeHoldsExactlyTheSymbols : Obligations.BuildTreeHoldsExactlyTheSymbols := by
  intro ft h
  obtain ⟨x, hx, htree⟩ := buildTree_eq h
  obtain ⟨l, r, hfork, hleaves⟩ := finalTree_eq_fork x.2
  have hmerge := mergeElems_leaves ft.length (seedElems ft)
  rw [hx, List.flatMap_singleton, seedElems_leaves, ← hleaves] at hmerge
  exact ⟨l, r, by rw [htree, hfork], hmerge⟩

end Sys2Proof.Safety
end

section
/-! BUILD against the abstract merge (spec/42_tree_build.md R160 to R166): each node of the forest stands for a queue
element, POPMIN pops what `takeMin` takes, and a turn of the machine's merge loop is a turn of the abstract one. -/

namespace Sys2Proof.Safety

open Sys2Proof.Machine

/-! ### Nodes and queue elements -/

/-- Node `i` is the root of an element's tree, with the element's frequency: the LEAF of a table entry (R163), or the
join of two nodes of smaller index (R164). -/
inductive StandsFor (m : Memory) : Index → Elem → Prop where
  | leaf {i : Index} {e : FtEntry} (h : nodeAt? m i.toNat = some (leafEntry e)) : StandsFor m i (e.count, .leaf e.sym)
  | fork {i a b : Index} {x y : Elem} (ha : a.toNat < i.toNat) (hb : b.toNat < i.toNat)
      (h : nodeAt? m i.toNat = some (joinEntry m a b)) (hx : StandsFor m a x) (hy : StandsFor m b y) :
      StandsFor m i (joinElem x y)

/-- The key of a node, in lexicographic order (spec/41_pq_engine.md R143). -/
def nodeKey (e : NodeEntry) : Nat ×ₗ Nat ×ₗ Nat := toLex (e.freq.toNat, toLex (e.lsd.toNat, e.lml.toNat))

theorem keyBefore_iff_key_lt (a b : NodeEntry) : keyBefore a b = true ↔ nodeKey a < nodeKey b := by
  rw [keyBefore_iff, nodeKey, nodeKey, Prod.Lex.toLex_lt_toLex, Prod.Lex.toLex_lt_toLex]

section

variable {m m' : Memory} {n : Nat} {i : Index} {x y : Elem} {q : List Index} {elems : List Elem}

/-- The node's FREQ, LSD and LML are those of the element's tree; LSD fits, because indices fall along a spine (R149). -/
theorem StandsFor.fields (h : StandsFor m i x) : (nodeRead m i).freq = x.1 ∧
    (nodeRead m i).lsd.toNat = x.2.lsd ∧ (nodeRead m i).lml = x.2.lml ∧ x.2.lsd ≤ i.toNat := by
  induction h with
  | leaf h =>
    rw [nodeRead_of_nodeAt h]
    exact ⟨rfl, rfl, rfl, Nat.zero_le _⟩
  | @fork i a b x y ha hb h _ _ ihx ihy =>
    obtain ⟨hfx, hdx, hlx, hle⟩ := ihx
    have := i.isLt
    rw [nodeRead_of_nodeAt h, joinEntry, hfx, ihy.1, hlx]
    refine ⟨rfl, ?_, rfl, ?_⟩
    · rw [toNat_succ (by omega), hdx]
      rfl
    · simp only [joinElem, QTree.lsd]
      omega

theorem StandsFor.freq_eq (h : StandsFor m i x) : (nodeRead m i).freq = x.1 := h.fields.1

/-- Keys of nodes are keys of elements. -/
theorem StandsFor.key_eq (h : StandsFor m i x) : nodeKey (nodeRead m i) = elemKey x := by
  obtain ⟨hfreq, hlsd, hlml, -⟩ := h.fields
  rw [nodeKey, elemKey, hfreq, hlsd, hlml]

/-- The tree under the node is the element's (spec/10_state.md R39). -/
theorem StandsFor.treeOf_eq (h : StandsFor m i x) : treeOf m i = some x.2.toTree := by
  induction h with
  | leaf h =>
    rw [treeOf, treeAt, nodeRead_of_nodeAt h]
    rfl
  | fork ha hb h _ _ ihx ihy =>
    rw [treeOf, treeAt, nodeRead_of_nodeAt h]
    simp only [joinEntry, treeAt_mono ihx ha, treeAt_mono ihy hb]
    rfl

/-- What a node stands for depends on the nodes below a bound alone. -/
theorem StandsFor.congr (h : StandsFor m i x) (hi : i.toNat < n) (hm : ∀ j < n, nodeAt? m' j = nodeAt? m j) :
    StandsFor m' i x := by
  induction h with
  | leaf h => exact .leaf ((hm _ hi).trans h)
  | fork ha hb h _ _ ihx ihy =>
    have hja := hm _ (ha.trans hi)
    have hjb := hm _ (hb.trans hi)
    refine .fork ha hb ?_ (ihx (ha.trans hi)) (ihy (hb.trans hi))
    rw [hm _ hi, h, joinEntry_congr hja hjb]

/-- Node `n` is the join of nodes that stand for `x` and `y` (R164). -/
def IsJoin (m : Memory) (n : Nat) (x y : Elem) : Prop :=
  ∃ a b : Index, a.toNat < n ∧ b.toNat < n ∧ nodeAt? m n = some (joinEntry m a b) ∧ StandsFor m a x ∧ StandsFor m b y

theorem IsJoin.congr {k : Nat} (h : IsJoin m k x y) (hk : k < n) (hm : ∀ j < n, nodeAt? m' j = nodeAt? m j) :
    IsJoin m' k x y := by
  obtain ⟨a, b, ha, hb, hab, hx, hy⟩ := h
  refine ⟨a, b, ha, hb, ?_, hx.congr (ha.trans hk) hm, hy.congr (hb.trans hk) hm⟩
  rw [hm _ hk, hab, joinEntry_congr (hm _ (ha.trans hk)) (hm _ (hb.trans hk))]

theorem IsJoin.standsFor (h : IsJoin m i.toNat x y) : StandsFor m i (joinElem x y) := by
  obtain ⟨a, b, ha, hb, hab, hx, hy⟩ := h
  exact .fork ha hb hab hx hy

/-! ### The queue -/

/-- PQ holds nodes below `n` that stand for the elements of an abstract queue, one for one. -/
def QueueFor (m : Memory) (n : Nat) (q : List Index) (elems : List Elem) : Prop :=
  ∃ ps : List (Index × Elem), q.Perm (ps.map Prod.fst) ∧ elems.Perm (ps.map Prod.snd) ∧
    ∀ p ∈ ps, p.1.toNat < n ∧ StandsFor m p.1 p.2

theorem QueueFor.length_eq (h : QueueFor m n q elems) : q.length = elems.length := by
  obtain ⟨ps, hq, he, -⟩ := h
  rw [hq.length_eq, he.length_eq, List.length_map, List.length_map]

/-- POPMIN pops a node of what `takeMin` takes (spec/41_pq_engine.md R143, R146). -/
theorem QueueFor.pop {q' : List Index} (h : QueueFor m n q elems) (hd : DistinctLml elems)
    (hpop : pqPop m q = some (i, q')) : ∃ x elems', takeMin elems = some (x, elems') ∧ i.toNat < n ∧ StandsFor m i x ∧
      QueueFor m n q' elems' := by
  obtain ⟨ps, hq, he, hps⟩ := h
  have hqi := pqPop_perm hpop
  obtain ⟨p, hp, rfl⟩ := List.mem_map.1 (hq.mem_iff.1 (hqi.mem_iff.2 List.mem_cons_self))
  have hpe : p.2 ∈ elems := he.mem_iff.2 (List.mem_map_of_mem hp)
  obtain ⟨⟨x, elems'⟩, htake⟩ := Option.ne_none_iff_exists'.1 fun hnone =>
    List.ne_nil_of_mem hpe (eq_nil_of_takeMin hnone)
  have hleast : ∀ y ∈ elems, elemKey p.2 ≤ elemKey y := by
    intro y hy
    obtain ⟨p', hp', rfl⟩ := List.mem_map.1 (he.mem_iff.1 hy)
    have hnot := not_keyBefore_of_pqPop hpop (hq.mem_iff.2 (List.mem_map_of_mem hp'))
    rw [← Bool.not_eq_true, keyBefore_iff_key_lt, (hps p' hp').2.key_eq, (hps p hp).2.key_eq] at hnot
    exact not_lt.1 hnot
  obtain rfl := eq_of_takeMin hd htake hpe hleast
  have hrest := List.perm_cons_erase hp
  refine ⟨p.2, elems', htake, (hps p hp).1, (hps p hp).2, ps.erase p, ?_, ?_, fun p' hp' =>
    hps p' (List.mem_of_mem_erase hp')⟩
  · exact (hqi.symm.trans (hq.trans (hrest.map Prod.fst))).cons_inv
  · exact ((takeMin_perm htake).symm.trans (he.trans (hrest.map Prod.snd))).cons_inv

/-- PUSH of a new node adds its element (spec/41_pq_engine.md R145). -/
theorem QueueFor.push (h : QueueFor m i.toNat q elems) (hm : ∀ j < i.toNat, nodeAt? m' j = nodeAt? m j)
    (hx : StandsFor m' i x) : QueueFor m' (i.toNat + 1) (pqPush q i) (x :: elems) := by
  obtain ⟨ps, hq, he, hps⟩ := h
  refine ⟨(i, x) :: ps, (pqPush_perm q i).trans (hq.cons i), he.cons x, fun p hp => ?_⟩
  rcases List.mem_cons.1 hp with rfl | hp
  · exact ⟨Nat.lt_succ_self _, hx⟩
  · exact ⟨Nat.lt_succ_of_lt (hps p hp).1, (hps p hp).2.congr (hps p hp).1 hm⟩

/-- After the seeding PQ stands for the table's elements (R163). -/
theorem IsSeeded.queueFor {ft : List FtEntry} (h : IsSeeded ft m ft.length q) :
    QueueFor m ft.length q (seedElems ft) := by
  have hlen : q.length = ft.length := by simpa using congrArg List.length h.queue
  refine ⟨q.zip (seedElems ft), ?_, ?_, fun p hp => ?_⟩
  · rw [List.map_fst_zip (by rw [seedElems_length]; omega)]
  · rw [List.map_snd_zip (by rw [seedElems_length]; omega)]
  · obtain ⟨k, hk, rfl⟩ := List.mem_iff_getElem.1 hp
    have hkn : k < ft.length := by simp only [List.length_zip] at hk; omega
    have hqk : (q[k]'(by omega)).toNat = k := by
      have := List.getElem_of_eq h.queue (i := k) (by simpa [hlen] using hkn)
      simpa using this
    have hleaf := h.leaves k hkn _ (List.getElem?_eq_getElem hkn)
    simp only [List.getElem_zip, seedElems, List.getElem_map, hqk]
    exact ⟨hkn, .leaf (by rw [hqk]; exact hleaf)⟩

end

/-! ### The merge loop -/

/-- The machine's merge loop stands where the abstract one stands with the queue `elems`. -/
structure Simulates (r : BuildRun) (elems : List Elem) : Prop where
  queue : QueueFor r.nodes r.next.toNat r.pq elems
  room : r.next.toNat + r.pq.length ≤ 65536
  distinct : DistinctLml elems

/-- What has happened when the machine's merge loop has gone from `r` to `r'` while the abstract one popped `pairs`:
node NEXT + j is the join of the j-th pair, the nodes below NEXT stay, and `satp` tells whether a sum exceeded CNT_MAX
(R164). -/
structure Merged (r r' : BuildRun) (pairs : List (Elem × Elem)) (ovf : Bool) : Prop where
  below : ∀ j < r.next.toNat, nodeAt? r'.nodes j = nodeAt? r.nodes j
  joins : ∀ (j : Nat) (x y : Elem), pairs[j]? = some (x, y) → IsJoin r'.nodes (r.next.toNat + j) x y
  satp : r'.satp = (r.satp || ovf)

theorem Merged.refl (r : BuildRun) : Merged r r [] false :=
  ⟨fun _ _ => rfl, fun j x y h => by simp at h, (Bool.or_false _).symm⟩

/-- One merge, and the merges after it. -/
theorem Merged.head {r r1 r' : BuildRun} {x y : Elem} {pairs : List (Elem × Elem)} {b ovf : Bool}
    (h : Merged r r1 [(x, y)] b) (hnext : r1.next.toNat = r.next.toNat + 1) (h' : Merged r1 r' pairs ovf) :
    Merged r r' ((x, y) :: pairs) (b || ovf) where
  below := fun j hj => (h'.below j (by omega)).trans (h.below j hj)
  joins := by
    intro j u v huv
    cases j with
    | zero => exact (h.joins 0 u v huv).congr (by omega) h'.below
    | succ j =>
      have := h'.joins j u v huv
      rwa [hnext, Nat.add_assoc, Nat.add_comm 1] at this
  satp := by rw [h'.satp, h.satp, Bool.or_assoc]

/-- A turn of the machine's merge loop is a turn of the abstract one (R164). -/
theorem Simulates.joinTwo {r : BuildRun} {elems : List Elem} {a b : Index} {q q' : List Index} (h : Simulates r elems)
    (ha : pqPop r.nodes r.pq = some (a, q)) (hb : pqPop r.nodes q = some (b, q')) :
    ∃ x elems1 y elems2, takeMin elems = some (x, elems1) ∧ takeMin elems1 = some (y, elems2) ∧
      Simulates (joinTwo a b { r with pq := q' }) (joinElem x y :: elems2) ∧
      (joinTwo a b { r with pq := q' }).next.toNat = r.next.toNat + 1 ∧
      Merged r (joinTwo a b { r with pq := q' }) [(x, y)] (ovfAdd x.1 y.1) := by
  obtain ⟨x, elems1, hx, han, hax, hq1⟩ := h.queue.pop h.distinct ha
  have hd1 : DistinctLml elems1 := (h.distinct.perm (takeMin_perm hx)).sublist (List.sublist_cons_self x elems1)
  obtain ⟨y, elems2, hy, hbn, hby, hq2⟩ := hq1.pop hd1 hb
  have hlen : r.pq.length = q'.length + 2 := by rw [pqPop_length ha, pqPop_length hb]
  have hroom := h.room
  have hnext := toNat_succ (i := r.next) (by omega)
  have hbelow : ∀ j < r.next.toNat, nodeAt? (Machine.joinTwo a b { r with pq := q' }).nodes j = nodeAt? r.nodes j :=
    fun j hj => nodeAt_write_ne _ _ (Nat.ne_of_lt hj)
  have hjoin : IsJoin (Machine.joinTwo a b { r with pq := q' }).nodes r.next.toNat x y :=
    ⟨a, b, han, hbn, (nodeAt_write_self _ _ _).trans (by rw [joinEntry_congr (hbelow _ han) (hbelow _ hbn)]),
      hax.congr han hbelow, hby.congr hbn hbelow⟩
  refine ⟨x, elems1, y, elems2, hx, hy, ⟨?_, ?_, h.distinct.join (takeMin_two_perm hx hy)⟩, hnext, hbelow, ?_, ?_⟩
  · have := hq2.push hbelow hjoin.standsFor
    rw [← hnext] at this
    exact this
  · simp only [Machine.joinTwo, hnext, pqPush_length]
    omega
  · intro j u v huv
    cases j with
    | zero =>
      cases huv
      exact hjoin
    | succ j => simp at huv
  · simp only [Machine.joinTwo, hax.freq_eq, hby.freq_eq]

/-- The machine's merge loop computes the abstract one (R160, R164). -/
theorem Simulates.mergeAll {r : BuildRun} {elems : List Elem} (fuel : Nat) (h : Simulates r elems) :
    Simulates (mergeAll fuel r) (mergeElems fuel elems) ∧
      Merged r (mergeAll fuel r) (mergePairs fuel elems) (mergeOverflows fuel elems) := by
  induction fuel generalizing r elems with
  | zero => exact ⟨h, .refl r⟩
  | succ fuel ih =>
    have hlen := h.queue.length_eq
    rcases mergeOne_cases r with ⟨hlt, hnone⟩ | ⟨a, q, b, q', ha, hb, hsome⟩
    · rcases mergeElems_cases elems with ⟨-, hstop⟩ | ⟨x, elems1, y, elems2, hx, hy, -⟩
      · obtain ⟨he, hp, ho⟩ := hstop (fuel + 1)
        rw [he, hp, ho]
        simp only [Machine.mergeAll, hnone]
        exact ⟨h, .refl r⟩
      · have := (takeMin_two_perm hx hy).length_eq
        simp only [List.length_cons] at this
        omega
    · obtain ⟨x, elems1, y, elems2, hx, hy, hsim, hnext, hjoin⟩ := h.joinTwo ha hb
      obtain ⟨hend, hmerged⟩ := ih hsim
      simp only [Machine.mergeAll, hsome, mergeElems, mergePairs, mergeOverflows, hx, hy]
      exact ⟨hend, hjoin.head hnext hmerged⟩

/-! ### BUILD -/

section

variable {s : State}

/-- What BUILD has when its merge loop ends, for a table of distinct symbols: one root, which stands for the one element
that the abstract merge ends with (R160, R165). -/
theorem buildMerged_simulates (h0 : s.ft ≠ []) (hft : s.ft.length ≤ 32768) (hn : (s.ft.map FtEntry.sym).Nodup) :
    ∃ a x, (buildMerged s).pq = [a] ∧ mergeElems s.ft.length (seedElems s.ft) = [x] ∧
      IsForest s.ft (buildMerged s).nodes (buildMerged s).next.toNat [a] ∧ StandsFor (buildMerged s).nodes a x ∧
      (buildMerged s).satp = mergeOverflows s.ft.length (seedElems s.ft) ∧
      ∀ (j : Nat) (x y : Elem), (mergePairs s.ft.length (seedElems s.ft))[j]? = some (x, y) →
        IsJoin (buildMerged s).nodes (s.ft.length + j) x y := by
  obtain ⟨hseeded, hnext, hsatp, -⟩ := seedAll_spec (ft := s.ft) s.ft 0 (buildStart s) hft (by simp) rfl
    ⟨rfl, fun i hi => absurd hi (by omega)⟩
  have hnext : (seedAll s.ft 0 (buildStart s)).next.toNat = s.ft.length := by
    rw [hnext]
    exact Nat.mod_eq_of_lt (show s.ft.length < 2 ^ 16 by omega)
  have hqueue := hseeded.queueFor
  have hlen := hqueue.length_eq
  rw [seedElems_length] at hlen
  rw [← hnext] at hqueue
  have hsim : Simulates (seedAll s.ft 0 (buildStart s)) (seedElems s.ft) :=
    ⟨hqueue, by omega, seedElems_distinct hn⟩
  obtain ⟨hend, hmerged⟩ := hsim.mergeAll s.nsyms
  obtain ⟨a, ha, hforest, -⟩ := buildMerged_forest h0 hft
  obtain ⟨x, hx, -⟩ := buildTree_eq h0
  have hone : takeMin [x] = some (x, []) := by simp [takeMin, minElem]
  have hpop : pqPop (buildMerged s).nodes (buildMerged s).pq = some (a, []) := by rw [ha]; simp [pqPop, pqMin]
  have hqueue' : QueueFor (buildMerged s).nodes (buildMerged s).next.toNat (buildMerged s).pq [x] := hx ▸ hend.queue
  obtain ⟨y, rest, hy, -, hstands, -⟩ := hqueue'.pop (List.nodup_singleton _) hpop
  cases hone.symm.trans hy
  refine ⟨a, x, ha, hx, hforest, hstands, ?_, ?_⟩
  · have := hmerged.satp
    rwa [hsatp] at this
  · have := hmerged.joins
    rwa [hnext] at this

/-- BUILD's answer for a table with entries, from the state in which its merge loop ends (R165 to R167, R170). -/
theorem execBuild_eq {a : Index} (h0 : s.ft ≠ []) (ha : (buildMerged s).pq = [a]) :
    exec .build s = .next (finishTree
      { s with nodes := (fixup (buildMerged s).nodes a (buildMerged s).next).1, pq := [] }
      (fixup (buildMerged s).nodes a (buildMerged s).next).2.1
      (fixup (buildMerged s).nodes a (buildMerged s).next).2.2 (buildMerged s).satp) := by
  have hn : s.nsyms ≠ 0 := by simpa [State.nsyms] using h0
  simp only [exec, execBuild, if_neg hn, ha, pqPop, pqMin, List.erase_cons_head]

end

/-- The fix-up of a leaf makes the placeholder and a fork over both, the root (R166). -/
theorem fixup_leaf_nodes {m : Memory} {a next : Index} {e : FtEntry} (he : nodeAt? m a.toNat = some (leafEntry e))
    (ha : a.toNat < next.toNat) (hroom : next.toNat < 65535) :
    (fixup m a next).2.1 = next + 1 ∧ nodeAt? (fixup m a next).1 a.toNat = some (leafEntry e) ∧
      nodeAt? (fixup m a next).1 next.toNat = some placeholderEntry ∧
      nodeAt? (fixup m a next).1 (next + 1).toNat = some (fixupEntry (fixup m a next).1 a next) := by
  have hnext := toNat_succ hroom
  have hfix : fixup m a next = (nodeWrite (nodeWrite m next placeholderEntry) (next + 1) (fixupEntry m a next),
      next + 1, next + 2) := by
    rw [fixup, nodeRead_of_nodeAt he]
    rfl
  have hleaf : nodeAt? (fixup m a next).1 a.toNat = some (leafEntry e) := by
    rw [hfix, nodeAt_write_ne _ _ (by omega), nodeAt_write_ne _ _ (by omega), he]
  have hentry : fixupEntry (fixup m a next).1 a next = fixupEntry m a next := by
    rw [fixupEntry, fixupEntry, nodeRead_of_nodeAt hleaf, nodeRead_of_nodeAt he]
  refine ⟨by rw [hfix], hleaf, ?_, ?_⟩
  · rw [hfix, nodeAt_write_ne _ _ (by omega), nodeAt_write_self]
  · rw [hentry, hfix, nodeAt_write_self]

/-- The root after the fix-up carries the final tree of the element that stood there before it (R160, R166). -/
theorem fixup_treeOf {m : Memory} {a next : Index} {x : Elem} (h : StandsFor m a x) (ha : a.toNat < next.toNat)
    (hroom : (nodeRead m a).kind = .leaf → next.toNat < 65535) :
    treeOf (fixup m a next).1 (fixup m a next).2.1 = some (finalTree x.2) := by
  have htree := h.treeOf_eq
  cases h with
  | fork hb hc hbc hx hy =>
    rw [fixup_fork (by rw [nodeRead_of_nodeAt hbc]; rfl), htree]
    rfl
  | leaf he =>
    have hnext := hroom (by rw [nodeRead_of_nodeAt he]; rfl)
    obtain ⟨hroot, hleaf, hholder, hfork⟩ := fixup_leaf_nodes he ha hnext
    have hleft := treeAt_mono (StandsFor.leaf hleaf).treeOf_eq (show a.toNat + 1 ≤ (next + 1).toNat by
      rw [toNat_succ hnext]; omega)
    have hright : treeAt (fixup m a next).1 (next + 1).toNat next = some .placeholder := by
      rw [toNat_succ hnext, treeAt, nodeRead_of_nodeAt hholder]
      rfl
    rw [hroot, treeOf, treeAt, nodeRead_of_nodeAt hfork]
    simp only [fixupEntry, hleft, hright]
    rfl

/-! ### The obligations -/

/-- Settles O21: the machine's merge loop computes the abstract one, and the fix-up makes the final tree. -/
theorem buildComputesBuildTree : Obligations.BuildComputesBuildTree := by
  intro s t h0 hft hn hb
  obtain ⟨a, x, ha, hx, hforest, hstands, hsatp, -⟩ := buildMerged_simulates h0 hft hn
  obtain ⟨y, hy, htree⟩ := buildTree_eq h0
  obtain rfl : x = y := List.singleton_inj.1 (hx.symm.trans hy)
  obtain ⟨hnext, -, hpos, hfork, -⟩ := hforest.last
  obtain rfl := Host.Outcome.next.inj ((execBuild_eq h0 ha).symm.trans hb)
  refine ⟨?_, by rw [htree]; rfl, by rw [finishTree_sat, hsatp]⟩
  rw [htree]
  refine fixup_treeOf hstands (hforest.root_lt List.mem_cons_self) fun hleaf => ?_
  have hone : ¬2 ≤ s.ft.length := fun h2 => by simp [hfork h2] at hleaf
  omega

/-- Settles O20: the state that BUILD answers, written out field by field. -/
theorem buildCompletesWithATree : Obligations.BuildCompletesWithATree := by
  intro s h0 hft
  obtain ⟨m, r, k, sp, hb, h1, h2, habove, -⟩ := execBuild_spec h0 hft
  exact ⟨m, r, k, sp, hb, h1, h2, habove⟩

/-- Settles O22: the merge loop's joins stand from node NSYMS upward, and the fix-up of two symbols or more changes
nothing. -/
theorem buildLeavesAWellFormedTree : Obligations.BuildLeavesAWellFormedTree := by
  intro s t h0 hft hn hb
  obtain ⟨m, r, k, sp, hspec, -, -, -, -, -, htree, hleaves⟩ := execBuild_spec h0 hft
  obtain rfl := Host.Outcome.next.inj (hspec.symm.trans hb)
  obtain ⟨a, x, ha, -, hforest, -, -, hjoins⟩ := buildMerged_simulates h0 hft hn
  obtain ⟨hk, hroot, -, hkind, -⟩ := hforest.last
  have hm : m = (fixup (buildMerged s).nodes a (buildMerged s).next).1 :=
    congrArg State.nodes (Host.Outcome.next.inj (hspec.symm.trans (execBuild_eq h0 ha)))
  have hpairs : (mergePairs s.ft.length (seedElems s.ft)).length = s.ft.length - 1 := by
    rw [(mergeElems_length (by rw [seedElems_length]; omega)).2, seedElems_length]
  refine ⟨htree hn, hleaves, hpairs, fun j x y hxy => ?_, fun h1 => ?_⟩
  · have hj := (List.getElem?_eq_some_iff.1 hxy).1
    rw [fixup_fork (hkind (by omega))] at hm
    obtain rfl := hm
    obtain ⟨c, d, -, -, hcd, hc, hd⟩ := hjoins j x y hxy
    exact ⟨c, d, hcd, hc.treeOf_eq, hc.freq_eq, hd.treeOf_eq, hd.freq_eq⟩
  · have hnext : (buildMerged s).next = 1 := BitVec.eq_of_toNat_eq (by rw [hk, h1]; rfl)
    obtain rfl : a = 0 := BitVec.eq_of_toNat_eq (by rw [hroot, hnext]; rfl)
    rw [hnext] at hm
    rw [finishTree_nodes, hm]
    obtain ⟨-, -, hholder, hfork⟩ := fixup_leaf_nodes (a := 0) (next := 1)
      (hforest.leaves 0 _ (List.getElem?_eq_getElem (by omega))) (by decide) (by decide)
    exact ⟨hholder, hfork⟩

end Sys2Proof.Safety
end

section
/-! The tree-merge FSM as the host sees it (spec/42_tree_build.md R161 to R168), NREAD (R175), and that no step of a
state of the invariant stops with a fault. -/

namespace Sys2Proof.Safety

open Sys2Proof.Machine

/-! ### The FSM -/

/-- A run of a busy engine, as `engineRun` counts it, with the states on its way. -/
theorem BusyRun.engineRun {k : Nat} {s t : State} (h : BusyRun k s t) : engineRun k s = .next t ∧
    ∀ j < k, ∃ v, engineRun j s = .next v ∧ v.busy = true := by
  induction h with
  | refl s => exact ⟨rfl, fun j hj => absurd hj (Nat.not_lt_zero j)⟩
  | @head _ s t _ hb hs _ ih =>
    have hrun (n : Nat) : Safety.engineRun (n + 1) s = Safety.engineRun n t := by rw [Safety.engineRun, hs]
    refine ⟨(hrun _).trans ih.1, fun j hj => ?_⟩
    cases j with
    | zero => exact ⟨_, rfl, busy_of_ne_idle hb⟩
    | succ j =>
      obtain ⟨v, hv, hbusy⟩ := ih.2 j (by omega)
      exact ⟨v, (hrun j).trans hv, hbusy⟩

/-- Settles O23: the FSM's run is `build_busyRun`, busy to its end. -/
theorem fsmComputesTheAtomicBuild : Obligations.FsmComputesTheAtomicBuild := by
  intro s hft hq
  obtain ⟨t, u, hexec, hrun, hsame⟩ := build_busyRun s hft hq
  exact ⟨t, u, hexec, hrun.engineRun.1, hsame, hrun.engineRun.2⟩

/-- Where the FSM goes after a PUSH, it is busy. -/
theorem afterPush_ne_idle (q : List Index) : afterPush q ≠ .idle := by
  rw [afterPush]
  split <;> nofun

/-- Settles O24: by the FSM's state; each step writes the fields it names, and stays in the FSM. -/
theorem fsmStepsAreHiddenUntilDone : Obligations.FsmStepsAreHiddenUntilDone := by
  intro s t hidle hexec hdone hs
  rw [engineStep] at hs
  cases he : s.eng with
  | idle => exact absurd he hidle
  | exec => exact absurd he hexec
  | bDone => exact absurd he hdone
  | bSeed =>
    rw [he] at hs
    cases hs
    refine ⟨busy_of_ne_idle ?_, rfl⟩
    show (if _ then Eng.bSeed else afterPush _) ≠ .idle
    split
    · nofun
    · exact afterPush_ne_idle _
  | bJoin =>
    rw [he] at hs
    cases hs
    exact ⟨busy_of_ne_idle (afterPush_ne_idle (pqPush s.pq s.nextIdx)), rfl⟩
  | bFixup =>
    rw [he] at hs
    cases hs
    exact ⟨rfl, rfl⟩
  | bPopA | bPopB | bLast =>
    simp only [he, fsmPopA, fsmPopB, fsmLast] at hs
    split at hs
    · cases hs
    · cases hs
      exact ⟨rfl, rfl⟩

/-- Settles O19: NSYMS is 0, so the command and the FSM's last step complete without a tree. -/
theorem buildOfAnEmptyTableRaisesEmpty : Obligations.BuildOfAnEmptyTableRaisesEmpty := by
  intro s hft
  have hn : s.nsyms = 0 := congrArg List.length hft
  refine ⟨if_pos hn, fun he => ?_⟩
  rw [engineStep, he]
  exact if_pos hn

/-! ### NREAD -/

/-- The packing of RES2, as shift and or (R175). -/
theorem childrenWord_eq (e : NodeEntry) :
    childrenWord e = (e.right.setWidth 32 <<< 16) ||| e.left.setWidth 32 := by
  rw [childrenWord, BitVec.append_def, BitVec.shiftLeftZeroExtend_eq, BitVec.setWidth'_eq]

/-- Settles O27: by whether a tree is held and A0 is below NNODES; a 16-bit index keeps all of such an A0. -/
theorem nreadReadsANode : Obligations.NreadReadsANode := by
  refine ⟨decode_encode (i := .nread) rfl, fun s htv hlt => ⟨_, rfl, ?_⟩, fun s htv => if_pos htv,
    fun s htv hge => ?_⟩
  · have hidx : BitVec.ofNat 16 s.a0l.toNat = s.a0l.setWidth 16 := BitVec.ofNat_toNat 16 s.a0l
    rw [exec, execNread, if_neg (by simp [htv]), State.indexOperand, if_neg (not_le.2 hlt), hidx, childrenWord_eq]
    cases (nodeRead s.nodes (s.a0l.setWidth 16)).kind <;> rfl
  · rw [exec, execNread, if_neg (by simp [htv]), State.indexOperand, if_pos hge]
    rfl

/-! ### Faults -/

/-- Only BUILD and CODE can fault. -/
theorem exec_fault {i : Instr} {s : State} {f : Fault} (h : exec i s = .fault f) : i = .build ∨ ∃ k, i = .code k := by
  cases i with
  | build => exact .inl rfl
  | code k => exact .inr ⟨k, rfl⟩
  | nop | clear | drst => cases h
  | count | fset =>
    simp only [exec, execCount, execFset] at h
    split at h
    · split at h <;> cases h
    · cases h
  | fread =>
    simp only [exec, execFread] at h
    split at h <;> cases h
  | nread =>
    simp only [exec, execNread] at h
    split at h
    · cases h
    · split at h <;> cases h
  | dec n =>
    simp only [exec, execDec] at h
    split at h
    · cases h
    · split at h
      · cases h
      · split at h <;> cases h
  | pop =>
    simp only [exec, execPop] at h
    split at h <;> cases h

/-- The host's accesses never fault. -/
theorem hostStep_ne_fault (s : State) (f : Fault) : hostStep s ≠ .fault f := by
  intro h
  rw [hostStep] at h
  split at h
  · cases h
  · split at h <;> cases h
  · split at h <;> cases h
  · split at h <;> cases h

section

variable {s : State}

/-- BUILD completes in a state of the invariant, with a tree or without one (R168, R170). -/
theorem Inv.build_completes (h : Inv s) : ∃ t, exec .build s = .next t := by
  by_cases hft : s.ft = []
  · exact ⟨_, (buildOfAnEmptyTableRaisesEmpty s hft).1⟩
  · obtain ⟨m, r, k, sp, hb, -⟩ := buildCompletesWithATree s hft h.ft_length_le
    exact ⟨_, hb⟩

/-- The EXEC step of a state of the invariant does not fault. -/
theorem Inv.runLatched_ne_fault (h : Inv s) (he : s.eng = .exec) (f : Fault) : Machine.runLatched s ≠ .fault f := by
  intro hf
  rw [Machine.runLatched] at hf
  split at hf
  · rename_i i hd
    rcases exec_fault hf with rfl | ⟨k, rfl⟩
    · obtain ⟨t, ht⟩ := h.build_completes
      rw [ht] at hf
      cases hf
    · obtain ⟨t, ht, -⟩ := codeCompletesWhenATreeIsHeld s k h he
      rw [ht] at hf
      cases hf
  · cases hf

/-- Where the FSM pops, PQ is not empty (R162). -/
theorem Inv.pq_ne_nil (h : Inv s) (he : s.eng = .bPopA ∨ s.eng = .bPopB ∨ s.eng = .bLast) : s.pq ≠ [] := by
  have hE := h.engine
  rw [← List.length_pos_iff]
  rcases he with he | he | he <;> rw [EngineOk, he] at hE
  · omega
  · omega
  · omega

/-- The engine step of a state of the invariant does not fault. -/
theorem Inv.engineStep_ne_fault (h : Inv s) (f : Fault) : Machine.engineStep s ≠ .fault f := by
  intro hf
  have hpop (he : s.eng = .bPopA ∨ s.eng = .bPopB ∨ s.eng = .bLast) := pqPop_of_ne_nil s.nodes (h.pq_ne_nil he)
  rw [Machine.engineStep] at hf
  cases he : s.eng with
  | idle | bSeed | bJoin | bFixup =>
    rw [he] at hf
    cases hf
  | exec =>
    rw [he] at hf
    exact h.runLatched_ne_fault he f hf
  | bPopA | bPopB | bLast =>
    obtain ⟨i, q, hq⟩ := hpop (by simp [he])
    simp only [he, Machine.fsmPopA, Machine.fsmPopB, Machine.fsmLast, hq] at hf
    cases hf
  | bDone =>
    simp only [he, Machine.fsmDone] at hf
    split at hf <;> cases hf

end

/-- Settles O58: by who acts; only the engine can fault, and in a state of the invariant it does not. -/
theorem noStepFaultsUnderTheInvariant : Obligations.NoStepFaultsUnderTheInvariant := by
  intro s h f hf
  rw [step] at hf
  split at hf
  · split at hf
    · exact h.engineStep_ne_fault f hf
    · exact hostStep_ne_fault _ _ hf
  · exact hostStep_ne_fault _ _ hf
  · exact (h.of_env _ _ _ _).engineStep_ne_fault f hf
  · cases hf

end Sys2Proof.Safety
end

section
/-! CODE and the codes it reads (spec/43_code_lookup.md R189 to R193): a path per leaf symbol, codes free of prefixes,
and their lengths in a built tree. -/

namespace Sys2Proof.Machine

/-! ### CODE's word -/

/-- CODE's word, as shift and or (R98). -/
theorem encode_code_eq_shiftLeft_or {k : Word} (hk : k.toNat < 65536) :
    encode (.code k.toNat) = (k <<< 16) ||| 0x20#32 := by
  have hshift : k.toNat <<< 16 % 2 ^ 32 = k.toNat <<< 16 := by
    rw [Nat.shiftLeft_eq]
    exact Nat.mod_eq_of_lt (by omega)
  refine BitVec.eq_of_toNat_eq ?_
  rw [toNat_encode_code hk, BitVec.toNat_or, BitVec.toNat_shiftLeft, hshift,
    ← Nat.shiftLeft_add_eq_or_of_lt (by decide), Nat.shiftLeft_eq]
  rfl

/-! ### The leaves of a built tree -/

theorem QTree.leaves_length_pos (t : QTree) : 0 < t.leaves.length := by
  induction t with
  | leaf x => exact Nat.one_pos
  | fork l r ihl _ =>
    rw [leaves, List.length_append]
    exact Nat.add_pos_left ihl _

/-- `buildTree` answers the final tree of a queue tree over the table's symbols. -/
theorem buildTree_eq_finalTree {ft : List FtEntry} {t : Tree} (h0 : ft ≠ []) (h : buildTree ft = some t) :
    ∃ q : QTree, t = finalTree q ∧ q.leaves.Perm (ft.map FtEntry.sym) := by
  obtain ⟨x, hx, htree⟩ := buildTree_eq h0
  have hleaves := mergeElems_leaves ft.length (seedElems ft)
  rw [hx, List.flatMap_singleton, seedElems_leaves] at hleaves
  exact ⟨x.2, Option.some.inj (h.symm.trans htree), hleaves⟩

end Sys2Proof.Machine

namespace Sys2Proof.Safety

open Sys2Proof.Machine

/-! ### Prefixes -/

/-- A path that is a prefix of another leads to the same leaf. -/
theorem eq_of_path_prefix {t : Tree} {x y : Word} {p q : List Bool} (hx : path t x = some p)
    (hy : path t y = some q) (hpq : p <+: q) : x = y := by
  induction t generalizing p q with
  | leaf z => exact (path_leaf hx).1.symm.trans (path_leaf hy).1
  | placeholder => cases hx
  | fork l r ihl ihr =>
    obtain ⟨b, p', rfl, hp⟩ := path_fork hx
    obtain ⟨c, q', rfl, hq⟩ := path_fork hy
    obtain ⟨rfl, hpq'⟩ := List.cons_prefix_cons.1 hpq
    cases b with
    | false => exact ihl hp hq hpq'
    | true => exact ihr hp hq hpq'

/-! ### Lengths -/

/-- A path in a queue tree has fewer bits than the tree has leaves: each fork on it leaves a subtree aside. -/
theorem path_toTree_length_lt {t : QTree} {x : Word} {p : List Bool} (h : path t.toTree x = some p) :
    p.length < t.leaves.length := by
  induction t generalizing p with
  | leaf y =>
    obtain ⟨-, rfl⟩ := path_leaf h
    exact Nat.one_pos
  | fork l r ihl ihr =>
    obtain ⟨b, p', rfl, hp⟩ := path_fork h
    have hl := l.leaves_length_pos
    have hr := r.leaves_length_pos
    rw [List.length_cons, QTree.leaves, List.length_append]
    cases b with
    | false =>
      have := ihl hp
      omega
    | true =>
      have := ihr hp
      omega

/-- A path in a final tree has a bit at least, and one fewer than there are leaves at most, or one for one leaf. -/
theorem path_finalTree_length {t : QTree} {x : Word} {p : List Bool} (h : path (finalTree t) x = some p) :
    1 ≤ p.length ∧ p.length ≤ max 1 (t.leaves.length - 1) := by
  cases t with
  | leaf y =>
    obtain ⟨b, p', rfl, hp⟩ := path_fork h
    cases b with
    | false =>
      obtain ⟨-, rfl⟩ := path_leaf hp
      exact ⟨le_rfl, le_rfl⟩
    | true => cases hp
  | fork l r =>
    have hlt := path_toTree_length_lt (t := .fork l r) h
    obtain ⟨b, p', rfl, -⟩ := path_fork h
    exact ⟨Nat.succ_pos _, (Nat.le_sub_one_of_lt hlt).trans (le_max_right 1 _)⟩

/-! ### The obligations -/

/-- Settles O28: `execCode_of_tree` with its chunk read bit by bit, and the word as `encode` writes it. -/
theorem codeReturnsAChunkOfTheCode : Obligations.CodeReturnsAChunkOfTheCode := by
  refine ⟨fun k hk => ?_, fun s k t htv ht => ?_, fun s k htv => if_pos htv⟩
  · rw [← encode_code_eq_shiftLeft_or hk]
    exact decode_encode_code hk
  · exact ⟨chunkOf (codeFor t s.a0l) k, execCode_of_tree k htv ht, fun i hi => getLsbD_chunkOf (codeFor t s.a0l) k hi⟩

/-- Settles O30: `path_isSome_iff`, by the tree. -/
theorem pathExistsExactlyForLeafSymbols : Obligations.PathExistsExactlyForLeafSymbols := path_isSome_iff

/-- Settles O31: a path that is a prefix of another belongs to the same symbol. -/
theorem codesArePrefixFree : Obligations.CodesArePrefixFree :=
  fun _ _ _ _ _ hne hx hy hpq => hne (eq_of_path_prefix hx hy hpq)

/-- Settles O32: the tree is the final tree of a queue tree with one leaf an entry. -/
theorem codeLengthsAreBounded : Obligations.CodeLengthsAreBounded := by
  intro ft t x hb hx
  have h0 : ft ≠ [] := fun h => by simp [h] at hx
  obtain ⟨q, rfl, hq⟩ := buildTree_eq_finalTree h0 hb
  obtain ⟨l, r, hfork, hleaves⟩ := finalTree_eq_fork q
  have hleaf : x ∈ (finalTree q).leaves := by
    rw [hfork, hleaves]
    exact hq.mem_iff.2 hx
  obtain ⟨p, hp⟩ := Option.isSome_iff_exists.1 ((path_isSome_iff (finalTree q) x).2 hleaf)
  have hlen : q.leaves.length = ft.length := by rw [hq.length_eq, List.length_map]
  exact ⟨p, hp, hlen ▸ path_finalTree_length hp⟩

end Sys2Proof.Safety
end

section
/-! The decoder (spec/44_decoder.md R199 to R213): its walk in the held tree emits what `decode` emits and sets PHIT where
`decode` reaches the placeholder, the pending bits are a walk from the root that emits nothing, and codes decode back. -/

namespace Sys2Proof.Safety

open Sys2Proof.Machine

/-! ### One decoder step -/

section

variable {m : Memory} {root c : Index} {b : Bool} {w : Walk}

/-- At a LEAF its symbol is emitted, and the decoder is back at the root (R202). -/
theorem walkBit_leaf (hc : c = if b then (nodeRead m w.cursor).right else (nodeRead m w.cursor).left)
    (hk : (nodeRead m c).kind = .leaf) : walkBit m root b w = (atRoot root w.phit, some (nodeRead m c).sym) := by
  subst hc
  simp only [walkBit, hk, atRoot]

/-- At the PLACEHOLDER nothing is emitted, PHIT is set, and the decoder is back at the root (R203). -/
theorem walkBit_placeholder (hc : c = if b then (nodeRead m w.cursor).right else (nodeRead m w.cursor).left)
    (hk : (nodeRead m c).kind = .placeholder) : walkBit m root b w = (atRoot root true, none) := by
  subst hc
  simp only [walkBit, hk, atRoot]

/-- At a FORK nothing is emitted, and the decoder goes one level down (R202). -/
theorem walkBit_fork (hc : c = if b then (nodeRead m w.cursor).right else (nodeRead m w.cursor).left)
    (hk : (nodeRead m c).kind = .fork) : walkBit m root b w = (⟨c, w.depth + 1, w.phit⟩, none) := by
  subst hc
  simp only [walkBit, hk]

end

theorem walkBits_cons (m : Memory) (root : Index) (b : Bool) (bits : List Bool) (w : Walk) :
    walkBits m root (b :: bits) w = ((walkBits m root bits (walkBit m root b w).1).1,
      (walkBit m root b w).2.toList ++ (walkBits m root bits (walkBit m root b w).1).2) := rfl

/-! ### The walk against `decode` -/

theorem treeAt_placeholder {m : Memory} {f : Nat} {i : Index} (h : treeAt m f i = some .placeholder) :
    (nodeRead m i).kind = .placeholder := by
  obtain ⟨g, -, ⟨-, ht⟩ | ⟨hk, -⟩ | ⟨-, l, r, ht, -⟩⟩ := treeAt_cases h
  · cases ht
  · exact hk
  · cases ht

/-- From a cursor at a fork of the held tree, the walk emits what the decode loop emits, and sets PHIT if the loop
reaches the placeholder (R199, R202, R203). -/
theorem walkBits_decodeFrom {m : Memory} {root : Index} {l r cl cr : Tree} {f : Nat} {w : Walk}
    (ht : treeOf m root = some (.fork l r)) (hc : treeAt m f w.cursor = some (.fork cl cr)) (bits : List Bool) :
    (walkBits m root bits w).2 = decodeFrom l r cl cr bits ∧
      (walkBits m root bits w).1.phit = (w.phit || hitsFrom l r cl cr bits) := by
  induction bits generalizing f cl cr w with
  | nil => simp [walkBits, decodeFrom, hitsFrom]
  | cons b bits ih =>
    obtain ⟨g, -, hchild⟩ := treeAt_child hc b
    rw [walkBits_cons, decodeFrom, hitsFrom]
    cases hu : (if b then cr else cl) with
    | leaf x =>
      rw [hu] at hchild
      obtain ⟨hk, hx⟩ := treeAt_leaf hchild
      obtain ⟨hout, hphit⟩ := ih (w := atRoot root w.phit) ht
      rw [walkBit_leaf rfl hk, hx]
      exact ⟨congrArg (x :: ·) hout, hphit⟩
    | placeholder =>
      rw [hu] at hchild
      obtain ⟨hout, hphit⟩ := ih (w := atRoot root true) ht
      rw [walkBit_placeholder rfl (treeAt_placeholder hchild), Bool.or_true]
      exact ⟨hout, hphit⟩
    | fork l' r' =>
      rw [hu] at hchild
      obtain ⟨-, -, hk, -⟩ := treeAt_fork hchild
      rw [walkBit_fork rfl hk]
      exact ih (w := ⟨_, w.depth + 1, w.phit⟩) hchild

/-- From the root, the walk over a bit sequence emits what `decode` emits, and sets PHIT if decoding reaches the
placeholder (R199, R203). -/
theorem walkBits_root {m : Memory} {root : Index} {t : Tree} (ht : treeOf m root = some t)
    (hk : (nodeRead m root).kind = .fork) (ph : Bool) (bits : List Bool) :
    (walkBits m root bits (atRoot root ph)).2 = decodeBits t bits ∧
      (walkBits m root bits (atRoot root ph)).1.phit = (ph || decodeHits t bits) := by
  obtain ⟨l, r, rfl⟩ := treeAt_of_fork ht hk
  exact walkBits_decodeFrom ht (w := atRoot root ph) ht bits

/-! ### Pending bits -/

theorem descend_cons {m : Memory} {i c : Index} {b : Bool} {bits : List Bool} (h : descend m i (b :: bits) = some c) :
    (nodeRead m i).kind = .fork ∧
      ∃ j, j = (if b then (nodeRead m i).right else (nodeRead m i).left) ∧ descend m j bits = some c := by
  rw [descend] at h
  split at h
  · exact ⟨‹_›, _, rfl, h⟩
  · cases h
  · cases h

/-- Bits that lead to a FORK start at one. -/
theorem kind_of_descend {m : Memory} {i c : Index} {bits : List Bool} (h : descend m i bits = some c)
    (hc : (nodeRead m c).kind = .fork) : (nodeRead m i).kind = .fork := by
  cases bits with
  | nil =>
    obtain rfl : i = c := Option.some.inj h
    exact hc
  | cons b bits => exact (descend_cons h).1

/-- The walk over bits that lead from its cursor to a FORK goes there, one level down a bit, and emits nothing (R202). -/
theorem walkBits_of_descend {m : Memory} {root c : Index} {bits : List Bool} {w : Walk}
    (h : descend m w.cursor bits = some c) (hc : (nodeRead m c).kind = .fork) :
    walkBits m root bits w = (⟨c, w.depth + BitVec.ofNat 16 bits.length, w.phit⟩, []) := by
  induction bits generalizing w with
  | nil =>
    obtain rfl : w.cursor = c := Option.some.inj h
    simp [walkBits]
  | cons b bits ih =>
    obtain ⟨-, j, hj, hrest⟩ := descend_cons h
    have hdepth : w.depth + BitVec.ofNat 16 (bits.length + 1) = w.depth + 1 + BitVec.ofNat 16 bits.length := by
      rw [BitVec.add_assoc, Nat.add_comm, BitVec.ofNat_add]
      rfl
    rw [walkBits_cons, walkBit_fork hj (kind_of_descend hrest hc), List.length_cons, hdepth,
      ih (w := ⟨j, w.depth + 1, w.phit⟩) hrest]
    rfl

/-- A walk with pending bits goes on as the walk from the root that takes those bits first (R43, R201). -/
theorem WalkOk.walkBits_pending {m : Memory} {root : Index} {w : Walk} {pend : List Bool} (h : WalkOk m root w pend)
    (bits : List Bool) : walkBits m root (pend ++ bits) (atRoot root w.phit) = walkBits m root bits w := by
  have hpend : walkBits m root pend (atRoot root w.phit) = (w, []) := by
    rw [walkBits_of_descend (w := atRoot root w.phit) h.path h.fork, ← h.depth]
    simp [atRoot]
  rw [walkBits_append, hpend]
  rfl

/-- Decoding the pending bits and any more emits what the walk emits over the rest (R199, R201). -/
theorem WalkOk.decodeBits_pending {m : Memory} {root : Index} {w : Walk} {pend : List Bool} {t : Tree}
    (h : WalkOk m root w pend) (ht : treeOf m root = some t) (bits : List Bool) :
    decodeBits t (pend ++ bits) = (walkBits m root bits w).2 := by
  rw [← h.walkBits_pending]
  exact (walkBits_root ht (kind_of_descend h.path h.fork) w.phit (pend ++ bits)).1.symm

/-- PHIT after a walk: its old value, or that decoding the pending bits and the rest reaches the placeholder (R203). -/
theorem WalkOk.phit_walkBits {m : Memory} {root : Index} {w : Walk} {pend : List Bool} {t : Tree}
    (h : WalkOk m root w pend) (ht : treeOf m root = some t) (bits : List Bool) :
    (walkBits m root bits w).1.phit = (w.phit || decodeHits t (pend ++ bits)) := by
  rw [← h.walkBits_pending]
  exact (walkBits_root ht (kind_of_descend h.path h.fork) w.phit (pend ++ bits)).2

/-! ### Codes -/

/-- The bits of a symbol's path decode to the symbol, and decoding goes on from the root (R205). -/
theorem decodeFrom_path {l r cl cr : Tree} {x : Word} {p : List Bool} (hp : path (.fork cl cr) x = some p)
    (bits : List Bool) : decodeFrom l r cl cr (p ++ bits) = x :: decodeFrom l r l r bits := by
  induction p generalizing cl cr with
  | nil =>
    obtain ⟨b, p', hbp, -⟩ := path_fork hp
    cases hbp
  | cons b p ih =>
    obtain ⟨b', p', hbp, hp'⟩ := path_fork hp
    obtain ⟨rfl, rfl⟩ := List.cons.inj hbp
    rw [List.cons_append, decodeFrom]
    cases hu : (if b then cr else cl) with
    | leaf y =>
      obtain ⟨rfl, rfl⟩ := path_leaf (hu ▸ hp')
      rfl
    | placeholder =>
      rw [hu] at hp'
      cases hp'
    | fork l' r' => exact ih (hu ▸ hp')

/-! ### DRST and POP -/

/-- POP with OUTQ empty (R213). -/
theorem execPop_nil {s : State} (h : s.outq = []) : execPop s = .next (raiseError .qempty s) := by
  simp only [execPop, h]

/-! ### The obligations -/

/-- Settles O33: DEC is a walk over its bits (`execDec_walks`), and the walk with pending bits is `decode` over the
pending bits and the rest, before DEC's bits and after them. -/
theorem decEmitsWhatDecodeEmits : Obligations.DecEmitsWhatDecodeEmits := by
  intro s n t pend htv htree ht hfork hpath hdepth h1 h32 hroom
  have hw : WalkOk s.nodes s.root s.walk pend := ⟨hfork, hpath, hdepth⟩
  obtain ⟨pend', hw'⟩ := htree.walkBits_ok (s.bitOperand n) hw
  have hout := hw.decodeBits_pending ht (s.bitOperand n)
  have hphit : (walkBits s.nodes s.root (s.bitOperand n) s.walk).1.phit =
      (s.phit || decodeHits t (pend ++ s.bitOperand n)) := hw.phit_walkBits ht (s.bitOperand n)
  refine ⟨_, _, pend', _, rfl, ?_, hw'.fork, hw'.path, hw'.depth, fun more => ?_⟩
  · rw [hout, ← hphit]
    exact execDec_walks htv h1 h32 (by omega)
  · rw [List.append_assoc, hw.decodeBits_pending ht, hout, hw'.decodeBits_pending ht, walkBits_append]

/-- Settles O35: each symbol with a leaf is decoded from its path, and a symbol without one has no bits. -/
theorem decodeOfEncodeIsTheText : Obligations.DecodeOfEncodeIsTheText := by
  intro l r xs
  induction xs with
  | nil => rfl
  | cons x xs ih =>
    rw [List.flatMap_cons, List.filter_cons]
    cases hp : path (.fork l r) x with
    | none => simpa [codeFor, hp] using ih
    | some p =>
      rw [codeFor_of_path hp, decodeBits, decodeFrom_path hp]
      exact congrArg (x :: ·) ih

/-- Settles O34: `walkBit_leaf`, `walkBit_placeholder` and `walkBit_fork`. -/
theorem oneDecoderStep : Obligations.OneDecoderStep :=
  fun _ _ _ _ _ hc => ⟨walkBit_leaf hc, walkBit_placeholder hc, walkBit_fork hc⟩

/-- Settles O36: with no tree, ROOT and DEPTH are 0 by the invariant (R40, R43). -/
theorem drstDropsThePendingBits : Obligations.DrstDropsThePendingBits := by
  have hdrst (s : State) : exec .drst s = .next { s with
      res0 := s.depth.setWidth 32, cursor := s.root, depth := 0, err := .ok, eng := .idle } := rfl
  refine ⟨decode_encode (i := .drst) rfl, hdrst, fun s hinv htv => ?_⟩
  obtain ⟨hroot, -, -, hdepth⟩ := hinv.noTree htv
  rw [hdrst, hroot, hdepth]
  rfl

/-- Settles O37: `execPop_cons` and `execPop_nil`. -/
theorem popTakesTheOldestSymbol : Obligations.PopTakesTheOldestSymbol :=
  ⟨decode_encode (i := .pop) rfl, fun _ _ _ => execPop_cons, fun _ => execPop_nil⟩

end Sys2Proof.Safety
end

section
/-! The control commands NOP and CLEAR (spec/45_control.md R230, R231). -/

namespace Sys2Proof.Safety

open Sys2Proof.Machine

/-- Settles O7: the word 0 is NOP's encoding (`decode_encode`), and NOP is the bare completion of a command. -/
theorem nopOnlySetsErrOk : Obligations.NopOnlySetsErrOk := by
  have hnop (s : State) : exec .nop s = .next (complete s) := rfl
  exact ⟨decode_encode (i := .nop) rfl, hnop⟩

/-- Settles O8: the word 1 is CLEAR's encoding (`decode_encode`), and CLEAR discards its stores in a single record
update, with no case split on the state. -/
theorem clearDiscardsTableTreeAndStream : Obligations.ClearDiscardsTableTreeAndStream :=
  ⟨decode_encode (i := .clear) rfl, fun _ => rfl⟩

end Sys2Proof.Safety
end

section
/-! Errors and the completion of commands (spec/60_exceptions.md R240, R242, R243, R246; spec/70_reset_and_hazards.md
R273): what an error leaves unchanged, that a command answers a next state in every state, and the order of the error
checks. -/

namespace Sys2Proof.Safety

open Sys2Proof.Machine

variable {s t : State} {n : Nat}

/-! ### What an error leaves unchanged -/

/-- A completion step that ends with an error is the bare error, or BUILD's EMPTY (R240, R168). -/
theorem completes_error_cases {i : Instr} (h : Completes s i t) (herr : t.err ≠ .ok) :
    t = raiseError t.err s ∨ (i = .build ∧ s.nsyms = 0 ∧ t = finishEmpty s) := by
  cases h with
  | error i c => exact .inl rfl
  | buildEmpty hn => exact .inr ⟨rfl, hn, rfl⟩
  | results | clear | append | count | fset | build | dec | drst | pop => exact absurd rfl herr

/-- Settles O11: by what a completion step can be (`exec_completes`), of which two kinds end with an error. -/
theorem errorsChangeNothingElse : Obligations.ErrorsChangeNothingElse := by
  intro i s t h herr
  rcases completes_error_cases (exec_completes h) herr with ht | ⟨hi, hn, ht⟩
  · exact .inl ht
  · exact .inr ⟨hi, List.length_eq_zero_iff.1 hn, ht⟩

/-! ### Every command but CODE answers -/

/-- A check before a command that answers: the command still answers. -/
theorem answers_ite {c : Prop} [Decidable c] {u : State} {r : Result} (hr : ∃ t, r = .next t) :
    ∃ t, (if c then Host.Outcome.next u else r) = .next t := by
  split
  · exact ⟨u, rfl⟩
  · exact hr

/-- The merge loop never empties PQ: each turn pushes the fork it made (R164). -/
theorem mergeAll_pq_ne_nil (fuel : Nat) {r : BuildRun} (h : r.pq ≠ []) : (mergeAll fuel r).pq ≠ [] := by
  induction fuel generalizing r with
  | zero => exact h
  | succ fuel ih =>
    rcases mergeOne_cases r with ⟨-, hnone⟩ | ⟨a, q, b, q', -, -, hsome⟩
    · simp only [mergeAll, hnone]
      exact h
    · simp only [mergeAll, hsome]
      exact ih (List.ne_nil_of_length_eq_add_one (pqPush_length q' r.next))

/-- On a table with entries the merge loop leaves a root to pop, however long the table is (R170). -/
theorem buildMerged_pq_ne_nil (hn : s.nsyms ≠ 0) : (buildMerged s).pq ≠ [] := by
  have hseed : (seedAll s.ft 0 (buildStart s)).pq.length = s.nsyms :=
    (seedAll_pq_length _ _ _).trans (Nat.zero_add _)
  exact mergeAll_pq_ne_nil _ (List.ne_nil_of_length_pos (by omega))

/-- BUILD answers in every state, in those outside the invariant too. -/
theorem execBuild_answers (s : State) : ∃ t, execBuild s = .next t := by
  by_cases hn : s.nsyms = 0
  · exact ⟨_, if_pos hn⟩
  · obtain ⟨a, q, hpop⟩ := pqPop_of_ne_nil (buildMerged s).nodes (buildMerged_pq_ne_nil hn)
    simp only [execBuild, if_neg hn, hpop]
    exact ⟨_, rfl⟩

/-- CODE is the one command that may not answer: it needs the node memory to hold a tree. -/
theorem exec_answers {i : Instr} (hi : ∀ k, i ≠ .code k) (s : State) : ∃ t, exec i s = .next t := by
  cases i with
  | nop | clear | drst => exact ⟨_, rfl⟩
  | count =>
    cases hf : ftFind s.ft s.a0l with
    | none =>
      simp only [exec, execCount, State.symbolOperand, hf]
      exact answers_ite ⟨_, rfl⟩
    | some j => exact ⟨_, execCount_present hf⟩
  | fset =>
    cases hf : ftFind s.ft s.a0l with
    | none =>
      simp only [exec, execFset, State.symbolOperand, hf]
      exact answers_ite ⟨_, rfl⟩
    | some j => exact ⟨_, execFset_present hf⟩
  | fread => exact answers_ite ⟨_, rfl⟩
  | build => exact execBuild_answers s
  | nread => exact answers_ite (answers_ite ⟨_, rfl⟩)
  | code k => exact absurd rfl (hi k)
  | dec n => exact answers_ite (answers_ite (answers_ite ⟨_, rfl⟩))
  | pop =>
    cases hq : s.outq with
    | nil => exact ⟨_, execPop_nil hq⟩
    | cons x q => exact ⟨_, execPop_cons hq⟩

/-- Settles O39: `exec_answers`, and each way a command completes leaves the engine idle (`Completes.eng`). -/
theorem commandsComplete : Obligations.CommandsComplete :=
  ⟨fun _ s hi => exec_answers hi s, fun _ _ _ h => (exec_completes h).eng⟩

/-! ### ILLEGAL and the order of the checks -/

/-- With ENG = EXEC the engine's step is the EXEC step (R273). -/
theorem engineStep_of_exec (he : s.eng = .exec) : engineStep s = runLatched s := by
  simp only [engineStep, he]

/-- The EXEC step of a word that does not decode raises ILLEGAL, whatever the operands hold (R242). -/
theorem runLatched_illegal {e : Illegal} (hd : decode s.cmdl = .error e) :
    runLatched s = .next (raiseError .illegal s) := by
  simp only [runLatched, hd]

/-- Settles O9: `runLatched_illegal`, which is the engine's step from EXEC. -/
theorem illegalWordCompletesWithErrSeven : Obligations.IllegalWordCompletesWithErrSeven :=
  fun _ _ hd => ⟨runLatched_illegal hd, fun he => (engineStep_of_exec he).trans (runLatched_illegal hd), rfl⟩

/-- DEC's second check: with a tree, the number of bits is 1 to 32 (R208). -/
theorem execDec_range (htv : s.tv = true) (hn : n = 0 ∨ n > 32) : execDec n s = .next (raiseError .range s) := by
  rw [execDec, if_neg (by simp [htv]), if_pos hn]

/-- DEC's third check: OUTQ has a free slot for each bit (R208). -/
theorem execDec_ovf (htv : s.tv = true) (h1 : 1 ≤ n) (h32 : n ≤ 32) (hfull : s.outq.length + n > s.params.outqDepth) :
    execDec n s = .next (raiseError .ovf s) := by
  rw [execDec, if_neg (by simp [htv]), if_neg (by omega), if_pos (by omega)]

/-- Settles O10: one clause for each check of each command, in the order of the table of R243. -/
theorem errorPrecedence : Obligations.ErrorPrecedence := by
  obtain ⟨-, -, -, hcount⟩ := countCountsOneOccurrence
  obtain ⟨-, -, -, hfset⟩ := fsetSetsTheCount
  obtain ⟨-, -, hfread⟩ := freadReadsAnEntry
  obtain ⟨-, -, hnotree, hrange⟩ := nreadReadsANode
  have hend (s t : State) (h : exec .nop s = .next t ∨ exec .clear s = .next t ∨ exec .drst s = .next t) :
      t.err = .ok := by
    rcases h with h | h | h <;> cases h <;> rfl
  exact ⟨fun s e hd => (illegalWordCompletesWithErrSeven s e hd).imp_right And.left,
    fun s habs hfull => ⟨hcount s habs hfull, hfset s habs hfull⟩, hfread,
    fun _ hn => ⟨_, if_pos hn, rfl⟩, hnotree, hrange, fun _ _ htv => if_pos htv, fun _ _ htv => if_pos htv,
    fun _ _ => execDec_range, fun _ _ => execDec_ovf, fun _ => execPop_nil, hend⟩

end Sys2Proof.Safety
end

section
/-! The engine counts down to idle (spec/70_reset_and_hazards.md R277, spec/42_tree_build.md R162): in a state of the
invariant each step of a busy engine answers, with exactly one step fewer to go. -/

namespace Sys2Proof.Safety

open Sys2Proof.Machine

/-- How many engine steps are left before the engine is idle: a seed for each entry to come, three steps for each
element of PQ but the last, and B_LAST, B_FIXUP and B_DONE. Between B_POPA and B_JOIN the elements already popped count
with PQ, less the steps their merge has taken. -/
def stepsLeft (s : State) : Nat :=
  match s.eng with
  | .idle => 0
  | .exec => 1
  | .bSeed => s.nsyms - s.seedi.toNat + 3 * s.nsyms
  | .bPopA => 3 * s.pq.length
  | .bPopB => 3 * (s.pq.length + 1) - 1
  | .bJoin => 3 * (s.pq.length + 2) - 2
  | .bLast => 3 * s.pq.length
  | .bFixup => 2
  | .bDone => 1

variable {s : State}

theorem stepsLeft_of_idle (he : s.eng = .idle) : stepsLeft s = 0 := by rw [stepsLeft, he]

theorem stepsLeft_of_seed (he : s.eng = .bSeed) : stepsLeft s = s.nsyms - s.seedi.toNat + 3 * s.nsyms := by
  rw [stepsLeft, he]

/-- After a PUSH that ends the seeding or a merge, three steps are left for each element of PQ. -/
theorem stepsLeft_afterPush (he : s.eng = afterPush s.pq) : stepsLeft s = 3 * s.pq.length := by
  rw [stepsLeft, he, afterPush]
  split_ifs <;> rfl

/-! ### Each step counts one down -/

/-- The EXEC step answers with the engine idle, whatever the latched word (R273). -/
theorem Inv.runLatched_idle (h : Inv s) (he : s.eng = .exec) : ∃ t, Machine.runLatched s = .next t ∧ t.eng = .idle := by
  cases hd : decode s.cmdl with
  | error e => exact ⟨_, runLatched_illegal hd, rfl⟩
  | ok i =>
    have hrun : Machine.runLatched s = exec i s := by simp only [Machine.runLatched, hd]
    obtain ⟨t, ht⟩ : ∃ t, exec i s = .next t := by
      by_cases hi : ∃ k, i = .code k
      · obtain ⟨k, rfl⟩ := hi
        obtain ⟨t, ht, -⟩ := codeCompletesWhenATreeIsHeld s k h he
        exact ⟨t, ht⟩
      · exact exec_answers (not_exists.1 hi) s
    exact ⟨t, hrun.trans ht, (exec_completes ht).eng⟩

/-- B_SEED seeds one entry; the last seed leaves all entries in PQ (R163). -/
theorem Inv.fsmSeed_counts_down (h : Inv s) (he : s.eng = .bSeed) :
    ∃ t, Machine.fsmSeed s = .next t ∧ stepsLeft s = stepsLeft t + 1 := by
  have hE := h.engine
  rw [EngineOk, he] at hE
  obtain ⟨hlt, -, hq, -⟩ := hE
  have hft : s.nsyms ≤ 32768 := h.ft_length_le
  have hsucc := toNat_succ (i := s.seedi) (by omega)
  have hlen : s.pq.length = s.seedi.toNat := by simpa using congrArg List.length hq
  refine ⟨_, rfl, ?_⟩
  rw [stepsLeft_of_seed he]
  by_cases hmore : (s.seedi + 1).toNat < s.nsyms
  · rw [stepsLeft_of_seed (if_pos hmore)]
    simp only [State.nsyms, hsucc] at hmore ⊢
    omega
  · rw [stepsLeft_afterPush (if_neg hmore), pqPush_length]
    omega

/-- A state of the FSM that pops: it answers, with PQ one element shorter (R162). -/
theorem Inv.pop_answers (h : Inv s) (he : s.eng = .bPopA ∨ s.eng = .bPopB ∨ s.eng = .bLast) :
    ∃ i q, pqPop s.nodes s.pq = some (i, q) ∧ s.pq.length = q.length + 1 := by
  obtain ⟨i, q, hpop⟩ := pqPop_of_ne_nil s.nodes (h.pq_ne_nil he)
  exact ⟨i, q, hpop, pqPop_length hpop⟩

/-- A step of a busy engine answers, with one step fewer to go. -/
theorem Inv.engineStep_counts_down (h : Inv s) (hb : s.eng ≠ .idle) :
    ∃ t, Machine.engineStep s = .next t ∧ stepsLeft s = stepsLeft t + 1 := by
  have hE := h.engine
  rw [EngineOk] at hE
  rw [Machine.engineStep]
  cases he : s.eng with
  | idle => exact absurd he hb
  | exec =>
    obtain ⟨t, ht, hidle⟩ := h.runLatched_idle he
    exact ⟨t, ht, by rw [stepsLeft_of_idle hidle, stepsLeft, he]⟩
  | bSeed => exact h.fsmSeed_counts_down he
  | bPopA =>
    obtain ⟨i, q, hpop, hlen⟩ := h.pop_answers (.inl he)
    refine ⟨{ s with ia := i, pq := q, eng := .bPopB }, by simp only [Machine.fsmPopA, hpop], ?_⟩
    simp only [stepsLeft, he]
    omega
  | bPopB =>
    obtain ⟨i, q, hpop, hlen⟩ := h.pop_answers (.inr (.inl he))
    refine ⟨{ s with ib := i, pq := q, eng := .bJoin }, by simp only [Machine.fsmPopB, hpop], ?_⟩
    simp only [stepsLeft, he]
    omega
  | bJoin =>
    obtain ⟨t, ht, hlen, hnext⟩ : ∃ t, Machine.fsmJoin s = .next t ∧ t.pq.length = s.pq.length + 1 ∧
      t.eng = afterPush t.pq := ⟨_, rfl, pqPush_length .., rfl⟩
    refine ⟨t, ht, ?_⟩
    rw [stepsLeft_afterPush hnext, hlen]
    simp only [stepsLeft, he]
    omega
  | bLast =>
    obtain ⟨i, q, hpop, -⟩ := h.pop_answers (.inr (.inr he))
    refine ⟨{ s with ia := i, pq := q, eng := .bFixup }, by simp only [Machine.fsmLast, hpop], ?_⟩
    rw [he] at hE
    simp only [stepsLeft, he]
    omega
  | bFixup => exact ⟨_, rfl, by simp only [stepsLeft, he]⟩
  | bDone =>
    by_cases hn : s.nsyms = 0
    · exact ⟨_, if_pos hn, by rw [stepsLeft_of_idle (finishEmpty_eng s), stepsLeft, he]⟩
    · exact ⟨_, if_neg hn, by rw [stepsLeft_of_idle (finishTree_eng ..), stepsLeft, he]⟩

/-- An engine run of `stepsLeft` steps ends with the engine idle. -/
theorem Inv.engineRun_stepsLeft (h : Inv s) : ∃ t, engineRun (stepsLeft s) s = .next t ∧ t.eng = .idle := by
  induction hk : stepsLeft s generalizing s with
  | zero =>
    refine ⟨s, rfl, by_contra fun hb => ?_⟩
    obtain ⟨t, -, hleft⟩ := h.engineStep_counts_down hb
    omega
  | succ k ih =>
    have hb : s.eng ≠ .idle := fun he => by rw [stepsLeft_of_idle he] at hk; omega
    obtain ⟨t, hs, hleft⟩ := h.engineStep_counts_down hb
    rw [engineRun, hs]
    exact ih (h.engineStep hs) (by omega)

/-! ### The count is bounded by the table -/

/-- A forest has no more roots than its table has entries: each merge takes one off (spec/41_pq_engine.md R147). -/
theorem IsForest.roots_le {ft : List FtEntry} {m : Memory} {n : Nat} {q : List Index} (h : IsForest ft m n q) :
    q.length ≤ ft.length := by
  have := h.size
  have := h.enough
  omega

/-- Seeding has at most four steps for each entry to go; from then on there are three for each root (R162). -/
theorem Inv.stepsLeft_le (h : Inv s) : stepsLeft s ≤ 4 * s.nsyms + 1 := by
  have hE := h.engine
  rw [EngineOk] at hE
  rw [stepsLeft, State.nsyms]
  cases he : s.eng with
  | idle | exec | bSeed | bDone =>
    simp only
    omega
  | bPopA | bPopB | bLast | bFixup =>
    rw [he] at hE
    obtain ⟨hforest, -⟩ := hE
    have hroots := hforest.roots_le
    simp only [List.length_cons] at hroots ⊢
    omega
  | bJoin =>
    rw [he] at hE
    have hroots := hE.roots_le
    simp only [List.length_cons] at hroots ⊢
    omega

/-- Settles O59: the engine is idle after exactly `stepsLeft` steps, and these are at most `4 n + 1`. -/
theorem everyCommandCompletes : Obligations.EveryCommandCompletes :=
  fun s h _ => ⟨stepsLeft s, h.stepsLeft_le, h.engineRun_stepsLeft⟩

end Sys2Proof.Safety
end

section
/-! Issue, completion, busy reads and the reset input (spec/70_reset_and_hazards.md R270 to R276). -/

namespace Sys2Proof.Machine

variable {s : State} {v : Word} {ts : List Turn}

/-! ### Who acts, and what the engine runs -/

theorem step_of_engine_turn (ht : s.turns = .engine :: ts) : step s = engineStep { s with turns := ts } := by
  simp only [step, ht]

theorem step_of_reset_turn (ht : s.turns = .reset :: ts) : step s = .next (applyReset { s with turns := ts }) := by
  simp only [step, ht]

/-- The EXEC step of a word that decodes is its command's completion step (R273). -/
theorem engineStep_of_decode {i : Instr} (he : s.eng = .exec) (hd : decode s.cmdl = .ok i) :
    engineStep s = exec i s := by
  simp only [engineStep, he, runLatched, hd]

/-- The EXEC step of a word that does not decode raises ILLEGAL, with nothing else changed (R273). -/
theorem engineStep_of_illegal {e : Illegal} (he : s.eng = .exec) (hd : decode s.cmdl = .error e) :
    engineStep s = .next { s with err := .illegal, eng := .idle } := by
  simp only [engineStep, he, runLatched, hd, raiseError]

/-- The bus carries a table word's bits to CMD as they are (spec/20_memory.md R64). -/
theorem decode_of_decodeTableWord {w : Nat} {i : Instr} (h : decodeTableWord 32 w = some i) :
    decode (commandWord 32 w) = .ok i := by
  simp only [decodeTableWord, wordOfBytes_byteOfWord] at h
  cases hd : decode (commandWord 32 w) with
  | ok j => simpa only [hd, Option.some.injEq, Except.ok.injEq] using h
  | error e => simp only [hd, reduceCtorEq] at h

theorem commandWord_eq_ofNat (w : Nat) : commandWord 32 w = BitVec.ofNat 32 w :=
  BitVec.eq_of_toNat_eq (by simp [commandWord])

/-! ### Issue -/

theorem issue_of_build (hd : decode v = .ok .build) : issue v s = buildIssue (latch v s) := by
  simp only [issue, hd, if_true]

/-- Every word but BUILD's goes to EXEC, an ILLEGAL one included (R271). -/
theorem issue_of_not_build (hd : decode v ≠ .ok .build) : issue v s = latchExec v s := by
  rw [issue]
  split
  · next i hi => exact if_neg fun hb => hd (hi.trans (congrArg _ hb))
  · rfl

/-! ### Reads -/

theorem readReg_of_busy (he : s.eng ≠ .idle) (r : Reg) : s.readReg r = s.readBusy (Config.freeRead s.draws) r :=
  if_pos (busy_of_ne_idle he)

theorem readReg_of_idle (he : s.eng = .idle) (r : Reg) : s.readReg r = s.readIdle r :=
  if_neg (by simp [busy_of_idle he])

end Sys2Proof.Machine

namespace Sys2Proof.Safety

open Sys2Proof.Machine

/-- Settles O42: an engine that acts in EXEC runs the latched word (`engineStep_of_decode`, `engineStep_of_illegal`). -/
theorem stepRunsTheLatchedCommand : Obligations.StepRunsTheLatchedCommand := by
  refine ⟨fun s i he hd => ⟨fun ht => ?_, fun ts ht => ?_⟩, fun s e he hd => ⟨fun ht => ?_, fun ts ht => ?_⟩⟩
  · exact (step_of_busy ht (by simp [he])).trans (engineStep_of_decode he hd)
  · exact (step_of_engine_turn ht).trans (engineStep_of_decode he hd)
  · exact (step_of_busy ht (by simp [he])).trans (engineStep_of_illegal he hd)
  · exact (step_of_engine_turn ht).trans (engineStep_of_illegal he hd)

/-- Settles O43: the placed word is latched for EXEC, and the engine's turn is next whatever turns are listed. -/
theorem placedWordIsTheNextCommand : Obligations.PlacedWordIsTheNextCommand := by
  intro s w i h
  have hd := decode_of_decodeTableWord h
  obtain ⟨hnone, hturn⟩ := stepRunsTheLatchedCommand.1 (s.withFetchWord 32 w) i rfl hd
  rw [← commandWord_eq_ofNat]
  cases ht : s.turns with
  | nil =>
    rw [hnone (by simp only [State.withFetchWord, ht])]
    simp only [State.withFetchWord, ht, latchExec, latch]
  | cons t ts =>
    rw [hturn (t :: ts) (by simp only [State.withFetchWord, ht])]
    simp only [State.withFetchWord, ht, latchExec, latch]

/-- Settles O44: a CMD write while idle is an issue, which BUILD's word takes to the FSM and every other to EXEC. -/
theorem cmdWriteWhileIdleIssues : Obligations.CmdWriteWhileIdleIssues := by
  intro s v he
  obtain ⟨hissue, -⟩ := writesHaveTheListedEffect s v
  exact ⟨fun hd => (hissue he).trans (issue_of_build hd), fun hd => (hissue he).trans (issue_of_not_build hd)⟩

/-- Settles O45: the CMD clause of the writes' effects, for a busy engine. -/
theorem cmdWriteWhileBusyIsDropped : Obligations.CmdWriteWhileBusyIsDropped := by
  intro s v
  obtain ⟨-, hdrop, -⟩ := writesHaveTheListedEffect s v
  exact hdrop

/-- Settles O46: bit 0 of the STATUS word is its BUSY argument, idle or busy. -/
theorem busyReadsOneExactlyWhileExecuting : Obligations.BusyReadsOneExactlyWhileExecuting := by
  intro s
  by_cases he : s.eng = .idle
  · have hread : (s.readIdle .status).getLsbD 0 = s.busy := statusWord_getLsbD_zero ..
    rw [readReg_of_idle he, hread, busy_of_idle he]
    simp [he]
  · have hread : (s.readBusy (Config.freeRead s.draws) .status).getLsbD 0 = true := statusWord_getLsbD_zero ..
    simp [readReg_of_busy he, hread, he]

/-- Settles O51: a busy STATUS is a STATUS word with BUSY 1 and the current DROP; the other registers named are read
without the drawn value. -/
theorem busyReadsKeepTheStatedFields : Obligations.BusyReadsKeepTheStatedFields := by
  intro s he
  obtain ⟨-, -, h3, hdrop, -⟩ : _ ∧ _ ∧ (s.statusBusy (Config.freeRead s.draws)).getLsbD 3 = false ∧
    (s.statusBusy (Config.freeRead s.draws)).getLsbD 16 = s.drop ∧ _ := statusWord_flags ..
  obtain ⟨-, -, hreserved⟩ : _ ∧ _ ∧ (s.statusBusy (Config.freeRead s.draws)).extractLsb' 19 13 = 0 :=
    statusWord_fields ..
  have hbusy := (busyReadsOneExactlyWhileExecuting s).2 he
  simp only [readReg_of_busy he] at hbusy ⊢
  exact ⟨hbusy, hdrop, h3, hreserved, rfl, rfl, rfl, rfl, rfl, rfl, rfl, rfl⟩

/-- Settles O55: the step is `applyReset`, which leaves an idle block, so its registers read as the reset values. -/
theorem resetInputGivesTheResetState : Obligations.ResetInputGivesTheResetState := by
  intro s ts ht
  refine ⟨_, step_of_reset_turn ht, rfl, rfl, rfl, ?_⟩
  have hstatus : statusWord false false false 0 0 false false false = 0 := by decide
  have hpair : (0#16 ++ 0#16 : Word) = 0 := by decide
  simp only [readReg_of_idle (s := applyReset { s with turns := ts }) rfl]
  exact ⟨hstatus, hpair, hpair, hpair, rfl, rfl, rfl, rfl, rfl, rfl⟩

end Sys2Proof.Safety
end
